-- ==== Sys2Proof/Word.lean ====
section
/-! DEFINITION. The two bit-vector types of the engine: a register's contents and a byte of memory. -/

namespace Sys2Proof

/-- The contents of a register: `XLEN = 64` bits (00_scope.md R3, 10_state.md R13). -/
abbrev Word := BitVec 64

/-- One byte of the host's memory, the only size the memory port moves (20_memory.md R30). -/
abbrev Byte := BitVec 8

end Sys2Proof
end

