-- ==== Sys2Proof/Config.lean ====
section
/-! DEFINITION. What one machine of this spec fixes (92_eei_decisions.md, open parameters), as plain data, and the
free values the spec leaves to a draw, as constants without a body. -/

namespace Sys2Proof

/-- `POW5_ROUNDING`, the rounding of inexact POW5 entries (41_pow5_rom.md R61). -/
inductive Pow5Rounding where
  /-- Round toward zero, the default. -/
  | trunc
  /-- Round to the nearest integer. -/
  | nearest
  deriving DecidableEq, Repr

/-- A range of byte addresses, both ends included. -/
structure AddrRange where
  first : Nat
  last  : Nat
  deriving DecidableEq, Repr

/-- The open parameters a result depends on (92_eei_decisions.md). DESIGN CHOICE (log 3): they are carried by the
state, so that a statement about every state is one about every choice of them; no step changes them. -/
structure Params where
  /-- `ADDR_W`, the width of a memory-port address, 1..64 (00_scope.md R3, 20_memory.md R29). -/
  addrWidth : Nat
  /-- `POW5_ROUNDING` (41_pow5_rom.md R61). -/
  rounding  : Pow5Rounding
  /-- The addresses for which `MEM_OK` is false (60_exceptions.md R119), as ranges. -/
  memHoles  : List AddrRange
  deriving DecidableEq, Repr

/-- The defaults: `ADDR_W = 64`, `POW5_ROUNDING = TRUNC`, `MEM_OK` true everywhere (92_eei_decisions.md). -/
def Params.default : Params := ⟨64, .trunc, []⟩

/-- `ADDR_W` is an integer in 1..64 (92_eei_decisions.md, open parameters). -/
def Params.wf (p : Params) : Bool := 1 ≤ p.addrWidth && p.addrWidth ≤ 64

namespace Config

/-- Free value (log 6): what the engine reads from a text byte the host wrote while the command was running,
by the number of the draw: "any value (a draw)" (20_memory.md R40 d). -/
opaque racedByte : Nat → Byte

/-- Free value (log 7): whether an output byte the host wrote while FORMAT was running keeps the host's value
(20_memory.md R40 e), by the number of the draw. -/
opaque racedKeepsHost : Nat → Bool

/-- Free value (log 7): whether a host read of an output byte while FORMAT is running returns the new value
(20_memory.md R40 c), by the number of the draw. -/
opaque racedReadsNew : Nat → Bool

/-- Free value (log 8): how many bytes FORMAT had written when a reset abandoned it (70_reset_and_hazards.md R129),
by the number of the draw. -/
opaque bytesBeforeReset : Nat → Nat

end Config

end Sys2Proof
end

