-- ==== Sys2Proof/Machine/State.lean ====
section
/-! DEFINITION. The state of the engine and of the memory at its port, as plain data (10_state.md, 20_memory.md), the
state after reset (70_reset_and_hazards.md R128), and the reasons a step can stop. -/

namespace Sys2Proof.Machine

/-- STATUS.CAUSE: the five outcome codes; 5..15 are never produced (60_exceptions.md R115). -/
inductive Cause where
  | ok
  | invalidArgument
  | illegalCommand
  | operandRange
  | memoryFault
  deriving DecidableEq, Repr

/-- STATUS (10_state.md R18). Its other bits read 0 and no host write reaches it, so the fields are all of it. -/
structure Status where
  busy  : Bool
  done  : Bool
  cause : Cause
  ovr   : Bool
  deriving DecidableEq, Repr

/-- FLAGS.CLASS (10_state.md R19). -/
inductive FloatClass where
  | finite
  | zero
  | inf
  | nan
  deriving DecidableEq, Repr

/-- FLAGS (10_state.md R19). Its other bits read 0 and ignore writes, so the fields are all of it. -/
structure Flags where
  n   : Bool
  rb  : Bool
  sb  : Bool
  cls : FloatClass
  deriving DecidableEq, Repr

/-- The names of the fifteen data registers, A_HI to LEN (10_state.md R13, R16). -/
inductive DataReg where
  | aHi | aLo | bHi | bLo | pHi | pLo | mant | exp10 | bexp | bits | addr | endAddr | pos | count | len
  deriving DecidableEq, Repr

/-- The names of the eighteen registers of the window (10_state.md R13). -/
inductive Reg where
  | cmd
  | status
  | flags
  | data (r : DataReg)
  deriving DecidableEq, Repr

/-- The contents of the data registers (10_state.md R13, R21). -/
structure Regs where
  aHi     : Word
  aLo     : Word
  bHi     : Word
  bLo     : Word
  pHi     : Word
  pLo     : Word
  mant    : Word
  exp10   : Word
  bexp    : Word
  bits    : Word
  addr    : Word
  endAddr : Word
  pos     : Word
  count   : Word
  len     : Word
  deriving DecidableEq, Repr

/-- The host's memory as the port reaches it (20_memory.md R29): address and byte, addresses rising, no entry equal
to what an unlisted address reads as. -/
abbrev Memory := List Host.Cell

/-- One action of the host or the platform on the engine and its memory. -/
inductive HostOp where
  /-- A write of `size` bytes at a byte offset of the register window (10_state.md R14). -/
  | write (size offset : Nat) (v : Word)
  /-- A read of `size` bytes at a byte offset of the register window (10_state.md R14). -/
  | read (size offset : Nat)
  /-- Read STATUS until DONE = 1 (30_encoding.md R53). -/
  | wait
  /-- A store of one byte to the host's memory (30_encoding.md R53 `mem`, 20_memory.md R40). -/
  | memWrite (a : Nat) (b : Byte)
  /-- A load of one byte from the host's memory (20_memory.md R40). -/
  | memRead (a : Nat)
  /-- Reset, applied by the platform (70_reset_and_hazards.md R128, R129). -/
  | reset
  deriving DecidableEq, Repr

/-- A byte the host wrote while a command was running, and the number of its draw (20_memory.md R40 d, e). -/
structure Raced where
  addr : Nat
  draw : Nat
  deriving DecidableEq, Repr

/-- The engine, the memory at its port, and the host's actions still to come. -/
structure State where
  /-- CMD: the last CMD write made while BUSY = 0 (10_state.md R17). -/
  cmd       : Word
  /-- STATUS (10_state.md R18). -/
  status    : Status
  /-- FLAGS (10_state.md R19). -/
  flags     : Flags
  /-- A_HI to LEN (10_state.md R13). -/
  regs      : Regs
  /-- The host's memory (20_memory.md R29). -/
  mem       : Memory
  /-- The open parameters (92_eei_decisions.md); DESIGN CHOICE (log 3). -/
  params    : Params
  /-- The model's own: what the host does next, oldest first; DESIGN CHOICE (log 4). -/
  inbox     : List HostOp
  /-- The model's own: the values the host's reads returned, newest first; DESIGN CHOICE (log 13). -/
  hostReads : List Word
  /-- The model's own: the bytes the host wrote since the running command was issued, newest first (log 6). -/
  raced     : List Raced
  /-- The model's own: the number of the next free value a race draws (log 6). -/
  draws     : Nat
  deriving DecidableEq, Repr

/-- STATUS after reset: idle, no command completed, CAUSE OK, no overrun (10_state.md R18). -/
def Status.reset : Status := ⟨false, false, .ok, false⟩

/-- FLAGS after reset: N = RB = SB = 0, CLASS = 0 (70_reset_and_hazards.md R128). -/
def Flags.reset : Flags := ⟨false, false, false, .finite⟩

/-- The data registers after reset. The spec gives no value (UNSPEC, 10_state.md R23); DESIGN CHOICE zero (log 1). -/
def Regs.reset : Regs := ⟨0, 0, 0, 0, 0, 0, 0, 0, 0, 0, 0, 0, 0, 0, 0⟩

/-- The machine right after reset (70_reset_and_hazards.md R128), over a memory nothing has written, with the default
parameters and nothing for the host to do. -/
def State.reset : State where
  cmd       := 0
  status    := Status.reset
  flags     := Flags.reset
  regs      := Regs.reset
  mem       := []
  params    := Params.default
  inbox     := []
  hostReads := []
  raced     := []
  draws     := 0

/-- What stops a run. No command raises one: a command's error is a completion with a CAUSE (60_exceptions.md R116). -/
inductive Fault where
  /-- Raised by the host's own load or store at an address the memory does not complete: at or above `2^ADDR_W`, or
  with `MEM_OK` false. Safe: the run stops where a platform would report an error to the host (log 12). -/
  | hostMemoryAccess (a : Nat)
  deriving DecidableEq, Repr

/-- What the model does not accept. -/
inductive Refusal where
  /-- Raised by an arm of `exec` whose command has no meaning yet; no arm is left. Safe. -/
  | notModelled (mnemonic : String)
  /-- Raised by a host register access whose size is not 8 bytes or whose offset is no multiple of 8 in the 256-byte
  window: "has no meaning in this spec. A model refuses it" (10_state.md R14). Safe. -/
  | registerAccess (size offset : Nat)
  deriving DecidableEq, Repr

end Sys2Proof.Machine
end

