-- ==== Sys2Proof/Machine/Ops.lean ====
section
/-! DEFINITION. The named operations over registers and memory, and how a command ends (60_exceptions.md R116). -/

namespace Sys2Proof.Machine

/-! ### Data registers -/

/-- `x[NAME]` (00_scope.md R6). -/
def Regs.get (x : Regs) : DataReg → Word
  | .aHi => x.aHi
  | .aLo => x.aLo
  | .bHi => x.bHi
  | .bLo => x.bLo
  | .pHi => x.pHi
  | .pLo => x.pLo
  | .mant => x.mant
  | .exp10 => x.exp10
  | .bexp => x.bexp
  | .bits => x.bits
  | .addr => x.addr
  | .endAddr => x.endAddr
  | .pos => x.pos
  | .count => x.count
  | .len => x.len

/-- `x[NAME] <- v` (00_scope.md R6). -/
def Regs.set (x : Regs) (r : DataReg) (v : Word) : Regs :=
  match r with
  | .aHi => { x with aHi := v }
  | .aLo => { x with aLo := v }
  | .bHi => { x with bHi := v }
  | .bLo => { x with bLo := v }
  | .pHi => { x with pHi := v }
  | .pLo => { x with pLo := v }
  | .mant => { x with mant := v }
  | .exp10 => { x with exp10 := v }
  | .bexp => { x with bexp := v }
  | .bits => { x with bits := v }
  | .addr => { x with addr := v }
  | .endAddr => { x with endAddr := v }
  | .pos => { x with pos := v }
  | .count => { x with count := v }
  | .len => { x with len := v }

/-- The contents of a data register. -/
def State.reg (s : State) (r : DataReg) : Word := s.regs.get r

/-- The state with a data register written. -/
def State.setReg (s : State) (r : DataReg) (v : Word) : State := { s with regs := s.regs.set r v }

/-- The state with FLAGS replaced. -/
def State.setFlags (s : State) (f : Flags) : State := { s with flags := f }

/-- The state with STATUS replaced. -/
def State.setStatus (s : State) (t : Status) : State := { s with status := t }

/-- The state with the memory replaced. -/
def State.setMem (s : State) (m : Memory) : State := { s with mem := m }

/-- A signed value in a register: `v mod 2^64` (00_scope.md R6). -/
def signedWord (v : Int) : Word := BitVec.ofInt 64 v

/-- The register pair of a wide value: `hi` holds bits [127:64] and `lo` bits [63:0] (20_memory.md R31). -/
def State.setWide (s : State) (hi lo : DataReg) (v : Nat) : State :=
  (s.setReg hi (BitVec.ofNat 64 (v / 2 ^ 64))).setReg lo (BitVec.ofNat 64 v)

/-! ### Memory -/

namespace Memory

/-- What an address reads as that nothing has written; DESIGN CHOICE (log 2). -/
def unlisted : Byte := 0

/-- The byte at an address. -/
def read : Memory → Nat → Byte
  | [], _ => unlisted
  | c :: m, a => if c.1 = a then c.2 else read m a

/-- The memory with the byte at `a` replaced, in canonical form: the entry goes where the rising order of addresses
puts it, and a byte equal to what an unlisted address reads as leaves no entry. -/
def write : Memory → Nat → Byte → Memory
  | [], a, b => if b = unlisted then [] else [(a, b)]
  | c :: m, a, b =>
    if a < c.1 then (if b = unlisted then c :: m else (a, b) :: c :: m)
    else if a = c.1 then (if b = unlisted then m else (a, b) :: m)
    else c :: write m a b

/-- Canonical form: addresses strictly rising and no entry that reads as an unlisted address does. -/
def wf : Memory → Bool
  | [] => true
  | [c] => c.2 != unlisted
  | c :: d :: m => c.2 != unlisted && decide (c.1 < d.1) && wf (d :: m)

end Memory

/-! ### How a command can end (60_exceptions.md R115) -/

/-- The errors a command raises after issue, with what they record (60_exceptions.md R115). -/
inductive CmdError where
  | invalidArgument
  | operandRange
  | memoryFault (faultAddr : Nat)
  deriving DecidableEq, Repr

/-- The outcome code of an error (60_exceptions.md R115). -/
def CmdError.cause : CmdError → Cause
  | .invalidArgument => .invalidArgument
  | .operandRange => .operandRange
  | .memoryFault _ => .memoryFault

/-- Completion, the one way a command ends (60_exceptions.md R116, 70_reset_and_hazards.md R131): BUSY ← 0, DONE ← 1,
CAUSE ← the code; OVR stays until the next issue (R133). The engine "takes no trap" (60_exceptions.md R123), so this
stands where other machines enter a handler. -/
def State.complete (s : State) (c : Cause) : State :=
  { s with status := { s.status with busy := false, done := true, cause := c }, raced := [] }

/-- Completion of SCAN and PARSE with an error: INVALID_ARGUMENT records POS ← ADDR, MEMORY_FAULT records POS ← fault
address, and nothing else is written (60_exceptions.md R115, R119). -/
def State.raiseText (s : State) (e : CmdError) : State :=
  match e with
  | .invalidArgument => (s.setReg .pos (s.reg .addr)).complete .invalidArgument
  | .operandRange => s.complete .operandRange
  | .memoryFault a => (s.setReg .pos (BitVec.ofNat 64 a)).complete .memoryFault

/-! ### The memory port (20_memory.md) -/

/-- `MEM_OK(a)` (60_exceptions.md R119). -/
def memOk (p : Params) (a : Nat) : Bool := !(p.memHoles.any fun h => h.first ≤ a && a ≤ h.last)

/-- Whether the memory port completes a byte access at `a`, or the fault it raises: an address at or above
`2^ADDR_W` faults with the address mod `2^ADDR_W` (20_memory.md R35), another failing address with itself
(60_exceptions.md R119). -/
def portAccess (p : Params) (a : Nat) : Except CmdError Unit :=
  if a ≥ 2 ^ p.addrWidth then .error (.memoryFault (a % 2 ^ p.addrWidth))
  else if memOk p a then .ok ()
  else .error (.memoryFault a)

/-- The number of the newest draw at `a`, when the host wrote that byte while the command was running. -/
def raceAt : List Raced → Nat → Option Nat
  | [], _ => none
  | r :: rs, a => if r.addr = a then some r.draw else raceAt rs a

/-- The byte the engine's read of `a` returns: its current contents (20_memory.md R36), or a free value where the host
wrote that byte while the command was running (R40 d; log 6). -/
def State.seenByte (s : State) (a : Nat) : Byte :=
  match raceAt s.raced a with
  | none => s.mem.read a
  | some k => Config.racedByte k

/-- `MemRead(a, 1)` (00_scope.md R7). -/
def State.portRead (s : State) (a : Nat) : Except CmdError Byte :=
  match portAccess s.params a with
  | .error e => .error e
  | .ok _ => .ok (s.seenByte a)

/-- The byte an engine write of `b` leaves at `a`: `b`, or either of the host's byte and `b` where the host wrote that
byte while the command was running (20_memory.md R40 e; log 7). -/
def State.leftByte (s : State) (m : Memory) (a : Nat) (b : Byte) : Byte :=
  match raceAt s.raced a with
  | none => b
  | some k => if Config.racedKeepsHost k then m.read a else b

/-- `MemWrite(base, 1, T[0])`, `MemWrite(base + 1, 1, T[1])`, … in order (45_extract_format.md R105): the memory after
the writes, and the number written with the fault where one of them faults. -/
def State.portWrites (s : State) (m : Memory) (base : Nat) : List Byte → Memory × Option (Nat × CmdError)
  | [] => (m, none)
  | b :: bs =>
    match portAccess s.params base with
    | .error e => (m, some (0, e))
    | .ok _ =>
      match s.portWrites (m.write base (s.leftByte m base b)) (base + 1) bs with
      | (m', none) => (m', none)
      | (m', some (j, e)) => (m', some (j + 1, e))

end Sys2Proof.Machine
end

