-- ==== Sys2Proof/Machine/Flags.lean ====
section
/-! DEFINITION. STATUS and FLAGS as words (10_state.md R18, R19), and the FLAGS fields each command writes (R20). -/

namespace Sys2Proof.Machine

/-- The outcome codes (60_exceptions.md R115). -/
def Cause.code : Cause → Nat
  | .ok => 0
  | .invalidArgument => 1
  | .illegalCommand => 2
  | .operandRange => 3
  | .memoryFault => 4

/-- STATUS as the host reads it: BUSY 0, DONE 1, CAUSE 7:4, OVR 8, all else 0 (10_state.md R18). -/
def Status.word (t : Status) : Word :=
  BitVec.ofNat 64 (t.busy.toNat + t.done.toNat * 2 + t.cause.code * 16 + t.ovr.toNat * 256)

/-- The codes of CLASS (10_state.md R19). -/
def FloatClass.code : FloatClass → Nat
  | .finite => 0
  | .zero => 1
  | .inf => 2
  | .nan => 3

/-- CLASS from bits 5 and 4 of a write to FLAGS. -/
def FloatClass.ofBits (b5 b4 : Bool) : FloatClass :=
  match b5, b4 with
  | false, false => .finite
  | false, true => .zero
  | true, false => .inf
  | true, true => .nan

/-- FLAGS as the host reads it: N 0, RB 1, SB 2, CLASS 5:4, all else 0 (10_state.md R19). -/
def Flags.word (f : Flags) : Word :=
  BitVec.ofNat 64 (f.n.toNat + f.rb.toNat * 2 + f.sb.toNat * 4 + f.cls.code * 16)

/-- FLAGS after a host write: the listed bits are taken, the others ignored (10_state.md R19). -/
def Flags.ofWord (v : Word) : Flags where
  n   := v.getLsbD 0
  rb  := v.getLsbD 1
  sb  := v.getLsbD 2
  cls := FloatClass.ofBits (v.getLsbD 5) (v.getLsbD 4)

/-- MUL128 and SCALE write RB and SB only (10_state.md R20). -/
def State.setRounding (s : State) (rb sb : Bool) : State := s.setFlags { s.flags with rb := rb, sb := sb }

/-- SCAN writes N only (10_state.md R20). -/
def State.setSign (s : State) (n : Bool) : State := s.setFlags { s.flags with n := n }

/-- EXTRACT writes N and CLASS only (10_state.md R20). -/
def State.setClass (s : State) (n : Bool) (c : FloatClass) : State := s.setFlags { s.flags with n := n, cls := c }

end Sys2Proof.Machine
end

