-- ==== Sys2Proof/Syntax.lean ====
section
/-! DEFINITION. The commands of the engine as syntax: one constructor for each row of the opcode table
(30_encoding.md R50), with the command-word fields the command uses as its arguments. -/

namespace Sys2Proof

/-- Field W: the floating-point format of a command (30_encoding.md R46, 00_scope.md R2). -/
inductive FloatFormat where
  | binary64
  | binary32
  deriving DecidableEq, Repr

/-- Field M: how the scanner's text ends (30_encoding.md R47). -/
inductive ScanMode where
  /-- M = 0: the text is `[x[ADDR], x[END])`. -/
  | bounded
  /-- M = 1: the text is read until the scanner stops; END is not read. -/
  | nul
  deriving DecidableEq, Repr

/-- Field T: which of the two tables POW5 reads (30_encoding.md R48). -/
inductive Pow5Table where
  /-- T = 0: POW5_POS, the powers 5^(2^k). -/
  | pos
  /-- T = 1: POW5_NEG, the powers 5^-(2^k). -/
  | neg
  deriving DecidableEq, Repr

/-- The ten commands (30_encoding.md R50). A command "plays the part of an instruction" (00_scope.md §5). -/
inductive Instr where
  /-- OP 0x00 (46_api.md R111). -/
  | nop
  /-- OP 0x01 (40_wide_arith.md R55). -/
  | mul64
  /-- OP 0x02 (40_wide_arith.md R56). -/
  | mul128
  /-- OP 0x03 with fields T and K (41_pow5_rom.md R65); `k` is legal up to 8, see `Instr.wf`. -/
  | pow5 (t : Pow5Table) (k : Nat)
  /-- OP 0x10 with field M (42_scanner.md R70). -/
  | scan (m : ScanMode)
  /-- OP 0x11 (43_scaler.md R75). -/
  | scale
  /-- OP 0x12 with field W (44_assembler.md R83). -/
  | assemble (f : FloatFormat)
  /-- OP 0x13 with fields W and M (46_api.md R107). -/
  | parse (f : FloatFormat) (m : ScanMode)
  /-- OP 0x20 with field W (45_extract_format.md R100). -/
  | extract (f : FloatFormat)
  /-- OP 0x21 with field W (45_extract_format.md R105). -/
  | format (f : FloatFormat)
  deriving DecidableEq, Repr

end Sys2Proof
end

