-- ==== Sys2Proof/WellFormed.lean ====
section
/-! DEFINITION. Which terms of `Instr` a command word can stand for (30_encoding.md R48, R51). -/

namespace Sys2Proof

/-- The number of entries of each POW5 table, `POW5_ENTRIES` (00_scope.md R1). -/
def pow5Entries : Nat := 9

/-- A command is well formed when a legal word encodes it: POW5's index is 0..8 (30_encoding.md R51 d);
every other field has only legal values. -/
def Instr.wf : Instr → Bool
  | .nop => true
  | .mul64 => true
  | .mul128 => true
  | .pow5 _ k => k < pow5Entries
  | .scan _ => true
  | .scale => true
  | .assemble _ => true
  | .parse _ _ => true
  | .extract _ => true
  | .format _ => true

end Sys2Proof
end

