-- ==== Sys2Proof/Machine/Operands.lean ====
section
/-! DEFINITION. The operand forms of the commands (30_encoding.md R49), the fixed parameters (00_scope.md R1) and the
parameters of the two floating-point formats (00_scope.md R2). -/

namespace Sys2Proof.Machine

/-! ### Register operands -/

/-- A register operand read as unsigned 64 (30_encoding.md R49). -/
def State.unsigned (s : State) (r : DataReg) : Nat := (s.reg r).toNat

/-- EXP10 and BEXP are read as signed: `sext_64` (30_encoding.md R49, 00_scope.md R5). -/
def State.signed (s : State) (r : DataReg) : Int := (s.reg r).toInt

/-- A 128-bit operand `(x[hi] : x[lo])` (30_encoding.md R49, 00_scope.md R4). -/
def State.wide (s : State) (hi lo : DataReg) : Nat := s.unsigned hi * 2 ^ 64 + s.unsigned lo

/-! ### Fixed parameters (00_scope.md R1) -/

/-- `MAX_SIG_DIGITS`. -/
def maxSigDigits : Nat := 17

/-- `EXP10_CLAMP`. -/
def exp10Clamp : Int := 400

/-- The formatter's extraction width in significant digits. -/
def extractDigits : Nat := 17

/-- The largest |q| SCALE accepts (43_scaler.md R79). -/
def scaleRange : Nat := 511

/-! ### Float formats (00_scope.md R2) -/

end Sys2Proof.Machine

namespace Sys2Proof.FloatFormat

/-- The width of a pattern in bits. -/
def width : FloatFormat → Nat
  | .binary64 => 64
  | .binary32 => 32

/-- p: the precision in bits, the implicit bit included. -/
def precision : FloatFormat → Nat
  | .binary64 => 53
  | .binary32 => 24

/-- f = p − 1: the number of fraction-field bits. -/
def fracBits : FloatFormat → Nat
  | .binary64 => 52
  | .binary32 => 23

/-- The exponent bias. -/
def bias : FloatFormat → Nat
  | .binary64 => 1023
  | .binary32 => 127

/-- Emax: the all-ones exponent field. -/
def emax : FloatFormat → Nat
  | .binary64 => 2047
  | .binary32 => 255

end Sys2Proof.FloatFormat

namespace Sys2Proof.Machine

/-- `x[BITS][width−1:0]`: with W = 1 bits [63:32] are ignored (10_state.md R22). -/
def State.pattern (s : State) (f : FloatFormat) : Nat := s.unsigned .bits % 2 ^ f.width

/-- A pattern as BITS holds it: zero-extended to 64 bits (10_state.md R22). -/
def State.setPattern (s : State) (b : Nat) : State := s.setReg .bits (BitVec.ofNat 64 b)

/-! ### The text of SCAN and PARSE (42_scanner.md R66) -/

/-- L: the length of the bounded text, 0 when END lies below ADDR. -/
def State.boundedLength (s : State) : Nat := s.unsigned .endAddr - s.unsigned .addr

/-- `peek(j)`: the byte at offset j from ADDR, or `none` for EOT, or the fault of the read. -/
def State.peek (s : State) (m : ScanMode) (j : Nat) : Except CmdError (Option Byte) :=
  if m = .bounded ∧ s.boundedLength ≤ j then .ok none
  else match s.portRead (s.unsigned .addr + j) with
    | .error e => .error e
    | .ok b => .ok (some b)

end Sys2Proof.Machine
end

