-- ==== Sys2Proof/Machine/Rom.lean ====
section
/-! DEFINITION. The POW5 ROM and the command POW5 (41_pow5_rom.md). -/

namespace Sys2Proof.Machine

/-- A Pow5Entry: `(hi:lo) × 2^exp` (00_scope.md R11), its significand as one 128-bit number. -/
structure Pow5Entry where
  sig : Nat
  exp : Int
  deriving DecidableEq, Repr

/-- One row of the ROM's listing (41_pow5_rom.md R62): the columns hi, lo and exp, and the mark † of a row whose
`lo` is one more under NEAREST. -/
structure Pow5Row where
  hi     : Nat
  lo     : Nat
  exp    : Int
  dagger : Bool
  deriving DecidableEq, Repr

/-- POW5_POS (41_pow5_rom.md R62). -/
def pow5Pos : List Pow5Row :=
  [ ⟨0xA000000000000000, 0x0000000000000000, -125, false⟩,
    ⟨0xC800000000000000, 0x0000000000000000, -123, false⟩,
    ⟨0x9C40000000000000, 0x0000000000000000, -118, false⟩,
    ⟨0xBEBC200000000000, 0x0000000000000000, -109, false⟩,
    ⟨0x8E1BC9BF04000000, 0x0000000000000000, -90, false⟩,
    ⟨0x9DC5ADA82B70B59D, 0xF020000000000000, -53, false⟩,
    ⟨0xC2781F49FFCFA6D5, 0x3CBF6B71C76B25FB, 21, false⟩,
    ⟨0x93BA47C980E98CDF, 0xC66F336C36B10137, 170, false⟩,
    ⟨0xAA7EEBFB9DF9DE8D, 0xDDBB901B98FEEAB7, 467, true⟩ ]

/-- POW5_NEG (41_pow5_rom.md R62). -/
def pow5Neg : List Pow5Row :=
  [ ⟨0xCCCCCCCCCCCCCCCC, 0xCCCCCCCCCCCCCCCC, -130, true⟩,
    ⟨0xA3D70A3D70A3D70A, 0x3D70A3D70A3D70A3, -132, true⟩,
    ⟨0xD1B71758E219652B, 0xD3C36113404EA4A8, -137, true⟩,
    ⟨0xABCC77118461CEFC, 0xFDC20D2B36BA7C3D, -146, false⟩,
    ⟨0xE69594BEC44DE15B, 0x4C2EBE687989A9B3, -165, true⟩,
    ⟨0xCFB11EAD453994BA, 0x67DE18EDA5814AF2, -202, false⟩,
    ⟨0xA87FEA27A539E9A5, 0x3F2398D747B36224, -276, false⟩,
    ⟨0xDDD0467C64BCE4A0, 0xAC7CB3F6D05DDBDE, -425, true⟩,
    ⟨0xC0314325637A1939, 0xFA911155FEFB5308, -722, true⟩ ]

/-- A row as the ROM of a machine with the given POW5_ROUNDING holds it (41_pow5_rom.md R62). -/
def Pow5Row.entry (x : Pow5Row) (r : Pow5Rounding) : Pow5Entry where
  sig := x.hi * 2 ^ 64 + x.lo + (if x.dagger && r == .nearest then 1 else 0)
  exp := x.exp

/-- `POW5_POS[k]` or `POW5_NEG[k]` (00_scope.md R9). The tables have nine entries; a larger index, which no legal
command and no scaling step uses, is given the zero entry. -/
def pow5 (r : Pow5Rounding) (t : Pow5Table) (k : Nat) : Pow5Entry :=
  match t with
  | .pos => ((pow5Pos[k]?).getD ⟨0, 0, 0, false⟩).entry r
  | .neg => ((pow5Neg[k]?).getD ⟨0, 0, 0, false⟩).entry r

/-- POW5 (41_pow5_rom.md R65): B and BEXP from one ROM entry. A K of nine or more is no command
(30_encoding.md R51 d): should such a term be run, it completes with ILLEGAL_COMMAND as its word does. -/
def execPow5 (t : Pow5Table) (k : Nat) (s : State) : Host.Outcome State Fault Refusal :=
  if k < pow5Entries then
    let e := pow5 s.params.rounding t k
    .next (((s.setWide .bHi .bLo e.sig).setReg .bexp (signedWord e.exp)).complete .ok)
  else .next (s.complete .illegalCommand)

end Sys2Proof.Machine
end

