-- ==== Sys2Proof/Machine/Wide.lean ====
section
/-! DEFINITION. The wide-arithmetic primitives and their commands MUL64 and MUL128 (40_wide_arith.md). -/

namespace Sys2Proof.Machine

/-- The kept half of a 256-bit product and what was cut off below it (40_wide_arith.md R56). -/
structure WideProduct where
  /-- P[255:128]. -/
  kept : Nat
  /-- P[127]: "the bit immediately below the kept range". -/
  rb   : Bool
  /-- OR(P[126:0]). -/
  sb   : Bool
  deriving DecidableEq, Repr

/-- `mul128`: the top 128 bits of a 256-bit product, with round and sticky (40_wide_arith.md R56). -/
def mul128 (a b : Nat) : WideProduct where
  kept := a * b / 2 ^ 128
  rb   := (a * b).testBit 127
  sb   := a * b % 2 ^ 127 != 0

/-- MUL64 (40_wide_arith.md R55): P ← A_LO × B_LO, exact; no flag. -/
def execMul64 (s : State) : Host.Outcome State Fault Refusal :=
  .next ((s.setWide .pHi .pLo (s.unsigned .aLo * s.unsigned .bLo)).complete .ok)

/-- MUL128 (40_wide_arith.md R56): P, RB and SB from A × B. -/
def execMul128 (s : State) : Host.Outcome State Fault Refusal :=
  let p := mul128 (s.wide .aHi .aLo) (s.wide .bHi .bLo)
  .next (((s.setWide .pHi .pLo p.kept).setRounding p.rb p.sb).complete .ok)

end Sys2Proof.Machine
end

