-- ==== Sys2Proof/Machine/Scaler.lean ====
section
/-! DEFINITION. The mantissa scaler and the command SCALE (43_scaler.md). -/

namespace Sys2Proof.Machine

/-- The scaler's running value: a significand of 128 bits, a binary exponent and the rounding bits. -/
structure Scaled where
  sig : Nat
  exp : Int
  rb  : Bool
  sb  : Bool
  deriving DecidableEq, Repr

/-- `bitlen(v)`: the least n with `v < 2^n` (00_scope.md R5). -/
def bitlen (v : Nat) : Nat := if v = 0 then 0 else v.log2 + 1

/-- `clz_N(v)` (00_scope.md R5). -/
def clz (n v : Nat) : Nat := n - bitlen v

/-- The left-normalization of m into the high word: `W × 2^e = m` (43_scaler.md R75). -/
def scaleInit (m : Nat) : Scaled where
  sig := (m <<< clz 64 m) <<< 64
  exp := -(64 + (clz 64 m : Int))
  rb  := false
  sb  := false

/-- Renormalization after a multiplication: one left shift when bit 127 is 0, filled with 0; the rounding bits stay
(43_scaler.md R77). -/
def renormalize (x : Scaled) : Scaled :=
  if x.sig.testBit 127 then x else { x with sig := (x.sig <<< 1) % 2 ^ 128, exp := x.exp - 1 }

/-- One multiplication by a table entry (43_scaler.md R75): "sticky |= old_round | new_sticky". -/
def scaleBy (e : Pow5Entry) (x : Scaled) : Scaled :=
  let p := mul128 x.sig e.sig
  renormalize ⟨p.kept, x.exp + e.exp + 128, p.rb, x.sb || x.rb || p.sb⟩

/-- The loop's body for entry k: applied when bit k of n = |q| is set. -/
def scaleStep (r : Pow5Rounding) (t : Pow5Table) (n : Nat) (x : Scaled) (k : Nat) : Scaled :=
  if n.testBit k then scaleBy (pow5 r t k) x else x

/-- POW5_POS for q ≥ 0, POW5_NEG otherwise (43_scaler.md R75). -/
def scaleTable (q : Int) : Pow5Table := if q ≥ 0 then .pos else .neg

/-- The function of 43_scaler.md R75 for |q| ≤ 511: entries 0 to 8 in ascending order (R76), then the factor 2^q; m = 0
gives all zeros (R78). -/
def scale (r : Pow5Rounding) (m : Nat) (q : Int) : Scaled :=
  if m = 0 then ⟨0, 0, false, false⟩
  else
    let x := (List.range pow5Entries).foldl (scaleStep r (scaleTable q) q.natAbs) (scaleInit m)
    { x with exp := x.exp + q }

/-- SCALE (43_scaler.md R75): P, BEXP, RB and SB from MANT and EXP10; OPERAND_RANGE when |q| > 511 (R79). -/
def execScale (s : State) : Host.Outcome State Fault Refusal :=
  if (s.signed .exp10).natAbs > scaleRange then .next (s.complete .operandRange)
  else
    let x := scale s.params.rounding (s.unsigned .mant) (s.signed .exp10)
    .next ((((s.setWide .pHi .pLo x.sig).setReg .bexp (signedWord x.exp)).setRounding x.rb x.sb).complete .ok)

end Sys2Proof.Machine
end

