-- ==== Sys2Proof/Machine/Assembler.lean ====
section
/-! DEFINITION. The IEEE 754 rounder and assembler and the command ASSEMBLE (44_assembler.md). -/

namespace Sys2Proof.Machine

/-- `sgn`: the sign in the top bit of the width (44_assembler.md R83). -/
def signBits (f : FloatFormat) (neg : Bool) : Nat := neg.toNat <<< (f.width - 1)

/-- The infinity of a sign (44_assembler.md R86). -/
def infinity (f : FloatFormat) (neg : Bool) : Nat := signBits f neg ||| f.emax <<< f.fracBits

/-- Steps (6) to (8) (44_assembler.md R89 to R91): `mant` is the kept value, `up` whether it is rounded up, `e` the
biased exponent of the leading bit. -/
def packRounded (f : FloatFormat) (neg : Bool) (e : Int) (mant : Nat) (up : Bool) : Nat :=
  let mant := mant + up.toNat
  if e ≥ 1 then
    let carry := mant = 2 ^ f.precision
    let mant := if carry then 2 ^ f.fracBits else mant
    let e := if carry then e + 1 else e
    if e ≥ f.emax then infinity f neg
    else signBits f neg ||| e.toNat <<< f.fracBits ||| (mant - 2 ^ f.fracBits)
  else signBits f neg ||| mant

/-- Steps (3) to (8) on a significand normalized to bit 127 with biased exponent `e` (44_assembler.md R83). -/
def roundNormalized (f : FloatFormat) (neg : Bool) (sig : Nat) (e : Int) (rb sb : Bool) : Nat :=
  if e ≥ f.emax then infinity f neg
  else
    let sh : Nat := 128 - f.precision + (1 - e).toNat
    if sh > 128 then signBits f neg
    else
      let mant := sig >>> sh
      let round := sig.testBit (sh - 1)
      let sticky := sig % 2 ^ (sh - 1) != 0 || rb || sb
      packRounded f neg e mant (round && (sticky || mant.testBit 0))

/-- The pattern ASSEMBLE gives (44_assembler.md R83): a zero significand is a signed zero (R85); another is normalized
by clz_128 (R84) and rounded. All arithmetic is on integers. -/
def assemble (f : FloatFormat) (neg : Bool) (sig : Nat) (be : Int) (rb sb : Bool) : Nat :=
  if sig = 0 then signBits f neg
  else
    let lz := clz 128 sig
    roundNormalized f neg (sig <<< lz) (be - lz + 127 + f.bias) rb sb

/-- ASSEMBLE (44_assembler.md R83): BITS from P, BEXP and FLAGS; no flag is written and there is no error. -/
def execAssemble (f : FloatFormat) (s : State) : Host.Outcome State Fault Refusal :=
  .next ((s.setPattern
    (assemble f s.flags.n (s.wide .pHi .pLo) (s.signed .bexp) s.flags.rb s.flags.sb)).complete .ok)

end Sys2Proof.Machine
end

