-- ==== Sys2Proof/Machine/Scanner.lean ====
section
/-! DEFINITION. The decimal scanner and the command SCAN (42_scanner.md). -/

namespace Sys2Proof.Machine

/-! ### Byte classes (00_scope.md R10) -/

/-- A byte is a digit when it lies in 0x30..0x39; EOT is no digit. -/
def isDigit : Option Byte → Bool
  | some c => 0x30 ≤ c.toNat && c.toNat ≤ 0x39
  | none => false

/-- The value of a digit: `c − 0x30`. -/
def digitVal : Option Byte → Nat
  | some c => c.toNat - 0x30
  | none => 0

/-- '-'. -/
def chMinus : Byte := 0x2D
/-- '+'. -/
def chPlus : Byte := 0x2B
/-- '.'. -/
def chDot : Byte := 0x2E
/-- 'e'. -/
def chLowerE : Byte := 0x65
/-- 'E'. -/
def chUpperE : Byte := 0x45
/-- '0'. -/
def chZero : Byte := 0x30

/-! ### Accumulation (42_scanner.md R69, R70) -/

/-- The scanner's accumulators: the mantissa, the count of significant digits (up to the cap) and the exponent. -/
structure Accum where
  m    : Nat
  nsig : Nat
  e    : Int
  deriving DecidableEq, Repr

/-- A digit of a nonzero integer part: accumulated up to the cap, then "value dropped" with e + 1. -/
def Accum.intDigit (x : Accum) (d : Nat) : Accum :=
  if x.nsig < maxSigDigits then { x with m := 10 * x.m + d, nsig := x.nsig + 1 } else { x with e := x.e + 1 }

/-- A digit of the fraction: a leading zero lowers e; a digit up to the cap is accumulated and lowers e; an excess
digit is dropped and leaves e. -/
def Accum.fracDigit (x : Accum) (d : Nat) : Accum :=
  if x.nsig = 0 ∧ d = 0 then { x with e := x.e - 1 }
  else if x.nsig < maxSigDigits then { m := 10 * x.m + d, nsig := x.nsig + 1, e := x.e - 1 }
  else x

/-- The value of an exponent's digits, unbounded (42_scanner.md R72). -/
def decimalValue (ds : List Nat) : Nat := ds.foldl (fun v d => 10 * v + d) 0

/-- The clamp of the final sum (42_scanner.md R72). -/
def clampExp10 (e : Int) : Int := max (-exp10Clamp) (min exp10Clamp e)

/-! ### The scan -/

/-- What a successful scan yields: `{negative, mantissa, exp10}` and the number of bytes consumed. -/
structure Scanned where
  neg      : Bool
  mant     : Nat
  exp10    : Int
  consumed : Nat
  deriving DecidableEq, Repr

/-- The scanner reads its text through `peek` (42_scanner.md R66). -/
abbrev Peek := Nat → Except CmdError (Option Byte)

/-- The loop `while digit(peek(i)): …; i <- i + 1`: the values of the digits from offset `i` on. The first argument
bounds the loop; `scanFuel` is more than the number of addresses, so the bound is never met. -/
def digitRun (peek : Peek) : Nat → Nat → Except CmdError (List Nat)
  | 0, _ => .ok []
  | fuel + 1, i =>
    match peek i with
    | .error e => .error e
    | .ok c =>
      if isDigit c then
        match digitRun peek fuel (i + 1) with
        | .error e => .error e
        | .ok ds => .ok (digitVal c :: ds)
      else .ok []

/-- A digit run that must not be empty: INVALID_ARGUMENT otherwise (42_scanner.md R68). -/
def digitRun1 (peek : Peek) (fuel i : Nat) : Except CmdError (List Nat) :=
  match digitRun peek fuel i with
  | .error e => .error e
  | .ok [] => .error .invalidArgument
  | .ok (d :: ds) => .ok (d :: ds)

/-- The optional sign: whether there is one, from offset 0. -/
def scanSign (peek : Peek) : Except CmdError Bool :=
  match peek 0 with
  | .error e => .error e
  | .ok c => .ok (c == some chMinus)

/-- `intpart` from offset `i`: the accumulators after it and the offset past it. A '0' stands alone. -/
def scanInt (peek : Peek) (fuel i : Nat) : Except CmdError (Accum × Nat) :=
  match peek i with
  | .error e => .error e
  | .ok c =>
    if isDigit c = false then .error .invalidArgument
    else if c = some chZero then
      match peek (i + 1) with
      | .error e => .error e
      | .ok c1 => if isDigit c1 then .error .invalidArgument else .ok (⟨0, 0, 0⟩, i + 1)
    else
      match digitRun peek fuel i with
      | .error e => .error e
      | .ok ds => .ok (ds.foldl Accum.intDigit ⟨0, 0, 0⟩, i + ds.length)

/-- `[ frac ]` from offset `i`. -/
def scanFrac (peek : Peek) (fuel : Nat) (x : Accum) (i : Nat) : Except CmdError (Accum × Nat) :=
  match peek i with
  | .error e => .error e
  | .ok c =>
    if c = some chDot then
      match digitRun1 peek fuel (i + 1) with
      | .error e => .error e
      | .ok ds => .ok (ds.foldl Accum.fracDigit x, i + 1 + ds.length)
    else .ok (x, i)

/-- `[ exp ]` from offset `i`: the exponent's signed value and the offset past it. -/
def scanExp (peek : Peek) (fuel i : Nat) : Except CmdError (Int × Nat) :=
  match peek i with
  | .error e => .error e
  | .ok c =>
    if c = some chLowerE ∨ c = some chUpperE then
      match peek (i + 1) with
      | .error e => .error e
      | .ok g =>
        let signed := g = some chPlus ∨ g = some chMinus
        let j := if signed then i + 2 else i + 1
        match digitRun1 peek fuel j with
        | .error e => .error e
        | .ok ds =>
          let v : Int := decimalValue ds
          .ok (if g = some chMinus then -v else v, j + ds.length)
    else .ok (0, i)

/-- The scan of 42_scanner.md R70 over a text given by `peek`. -/
def scanText (peek : Peek) (fuel : Nat) : Except CmdError Scanned :=
  match scanSign peek with
  | .error e => .error e
  | .ok neg =>
    match scanInt peek fuel neg.toNat with
    | .error e => .error e
    | .ok (x, i) =>
      match scanFrac peek fuel x i with
      | .error e => .error e
      | .ok (y, j) =>
        match scanExp peek fuel j with
        | .error e => .error e
        | .ok (xv, n) => .ok ⟨neg, y.m, clampExp10 (y.e + xv), n⟩

/-- A bound on the length of any digit run: past the last address every read faults (20_memory.md R35). -/
def State.scanFuel (s : State) : Nat := 2 ^ s.params.addrWidth + 1

/-- `scan()` on the state's text (42_scanner.md R70, without its register writes). -/
def State.scan (s : State) (m : ScanMode) : Except CmdError Scanned := scanText (s.peek m) s.scanFuel

/-- `x[ADDR] + i`, as POS holds it (42_scanner.md R67; log 11). -/
def State.textPos (s : State) (i : Nat) : Word := BitVec.ofNat 64 (s.unsigned .addr + i)

/-- SCAN (42_scanner.md R70): MANT, EXP10, FLAGS.N and POS on success; POS alone on an error. -/
def execScan (m : ScanMode) (s : State) : Host.Outcome State Fault Refusal :=
  match s.scan m with
  | .error e => .next (s.raiseText e)
  | .ok x =>
    .next (((((s.setReg .mant (BitVec.ofNat 64 x.mant)).setReg .exp10 (signedWord x.exp10)).setSign x.neg).setReg .pos
      (s.textPos x.consumed)).complete .ok)

end Sys2Proof.Machine
end

