-- ==== Sys2Proof/Machine/Api.lean ====
section
/-! DEFINITION. The commands PARSE and NOP (46_api.md). -/

namespace Sys2Proof.Machine

/-- The pattern of a scanned literal: scale, then assemble, on internal values (46_api.md R107). -/
def literalPattern (r : Pow5Rounding) (f : FloatFormat) (x : Scanned) : Nat :=
  let y := scale r x.mant x.exp10
  assemble f x.neg y.sig y.exp y.rb y.sb

/-- PARSE (46_api.md R107): BITS and POS on success; POS alone on an error. Its intermediate values reach no register
(R108). What R113 says of it and of FORMAT is stated by `RoundTrips`, `FormatIsIdempotent` and `ParsesCorrectlyRounded`
of Safety.lean, and is no part of it. -/
def execParse (f : FloatFormat) (m : ScanMode) (s : State) : Host.Outcome State Fault Refusal :=
  match s.scan m with
  | .error e => .next (s.raiseText e)
  | .ok x =>
    .next (((s.setPattern (literalPattern s.params.rounding f x)).setReg .pos (s.textPos x.consumed)).complete .ok)

/-- NOP (46_api.md R111): nothing but STATUS. -/
def execNop (s : State) : Host.Outcome State Fault Refusal := .next (s.complete .ok)

end Sys2Proof.Machine
end

