-- ==== Sys2Proof/Machine/Extractor.lean ====
section
/-! DEFINITION. The digit extractor and the command EXTRACT (45_extract_format.md R94 to R101). -/

namespace Sys2Proof.Machine

/-- What a pattern decomposes into (45_extract_format.md R94); `m` and `e2` have a meaning for FINITE only. -/
structure Decomposed where
  neg : Bool
  cls : FloatClass
  m   : Nat
  e2  : Int
  deriving DecidableEq, Repr

/-- The sign bit of a pattern. -/
def patternSign (f : FloatFormat) (b : Nat) : Bool := b.testBit (f.width - 1)

/-- Ef: the exponent field `b[width-2 : f]`. -/
def patternExp (f : FloatFormat) (b : Nat) : Nat := (b >>> f.fracBits) % (f.emax + 1)

/-- F: the fraction field `b[f-1 : 0]`. -/
def patternFrac (f : FloatFormat) (b : Nat) : Nat := b % 2 ^ f.fracBits

/-- `decompose` (45_extract_format.md R94): the value of a FINITE pattern is `(−1)^neg × m × 2^e2`. -/
def decompose (f : FloatFormat) (b : Nat) : Decomposed :=
  let neg := patternSign f b
  let ef := patternExp f b
  let frac := patternFrac f b
  if ef = f.emax then ⟨neg, if frac ≠ 0 then .nan else .inf, 0, 0⟩
  else if ef = 0 ∧ frac = 0 then ⟨neg, .zero, 0, 0⟩
  else if ef = 0 then ⟨neg, .finite, frac, 1 - (f.bias : Int) - f.fracBits⟩
  else ⟨neg, .finite, frac + 2 ^ f.fracBits, (ef : Int) - f.bias - f.fracBits⟩

/-- k0, the first estimate of the leading-digit exponent (45_extract_format.md R95); the shift floors. -/
def estimateExp10 (m : Nat) (e2 : Int) : Int := (((bitlen m : Int) - 1 + e2) * 78913) >>> 18

/-- One pass's D for a candidate exponent k (45_extract_format.md R96 steps 4 and 5): |value| × 10^(16−k), rounded half up
at the cut; SCALE's round and sticky are not used. -/
def extractPass (r : Pow5Rounding) (m : Nat) (e2 k : Int) : Nat :=
  let x := scale r m (16 - k)
  let s := (-(x.exp + e2)).toNat
  x.sig >>> s + (x.sig.testBit (s - 1)).toNat

/-- The loop of 45_extract_format.md R96 with a bound on its passes: D and k at its end. -/
def extractLoop (r : Pow5Rounding) (m : Nat) (e2 : Int) : Nat → Nat → Int → Nat × Int
  | 0, d, k => (d, k)
  | n + 1, _, k =>
    let d := extractPass r m e2 k
    if d ≥ 10 ^ extractDigits then extractLoop r m e2 n d (k + 1)
    else if d < 10 ^ (extractDigits - 1) then extractLoop r m e2 n d (k - 1)
    else (d, k)

/-- `digits(m, e2)`: the 17-digit integer D and the leading-digit exponent, in at most two passes
(45_extract_format.md R96, R99; log 16). -/
def extractNumber (r : Pow5Rounding) (m : Nat) (e2 : Int) : Nat × Int :=
  extractLoop r m e2 2 0 (estimateExp10 m e2)

/-- The trailing zero digits removed and their number, at most as many as the bound (45_extract_format.md R98). -/
def stripZeros : Nat → Nat → Nat × Nat
  | 0, d => (d, 0)
  | n + 1, d =>
    if d % 10 = 0 then
      match stripZeros n (d / 10) with
      | (d', t) => (d', t + 1)
    else (d, 0)

/-- The decimal digits of a FINITE value: D' and count (45_extract_format.md R98) and the leading-digit exponent X. -/
structure DecimalDigits where
  number : Nat
  count  : Nat
  exp10  : Int
  deriving DecidableEq, Repr

/-- Steps (3) to (7) (45_extract_format.md R95 to R99). -/
def decimalDigits (r : Pow5Rounding) (m : Nat) (e2 : Int) : DecimalDigits :=
  let dk := extractNumber r m e2
  let z := stripZeros extractDigits dk.1
  ⟨z.1, extractDigits - z.2, dk.2⟩

/-- EXTRACT (45_extract_format.md R100): N, CLASS, MANT, COUNT and EXP10 from BITS; no error. -/
def execExtract (f : FloatFormat) (s : State) : Host.Outcome State Fault Refusal :=
  let x := decompose f (s.pattern f)
  let d : DecimalDigits :=
    if x.cls = .finite then decimalDigits s.params.rounding x.m x.e2 else ⟨0, 0, 0⟩
  .next ((((s.setReg .mant (BitVec.ofNat 64 d.number)).setReg .count (BitVec.ofNat 64 d.count)).setReg .exp10
    (signedWord d.exp10)).setClass x.neg x.cls |>.complete .ok)

end Sys2Proof.Machine
end

