-- ==== Sys2Proof/Machine/Formatter.lean ====
section
/-! DEFINITION. The formatter and the command FORMAT (45_extract_format.md R102 to R106). -/

namespace Sys2Proof.Machine

/-- The byte of a decimal digit (00_scope.md R10). -/
def digitByte (d : Nat) : Byte := BitVec.ofNat 8 (0x30 + d)

/-- The `count` digits of a number, most significant first (45_extract_format.md R98). -/
def digitBytes (count number : Nat) : List Byte :=
  (List.range count).map fun i => digitByte (number / 10 ^ (count - 1 - i) % 10)

/-- `decimal(|X|)`: with no leading zeros (45_extract_format.md R102); |X| has at most three digits there. -/
def decimalBytes (n : Nat) : List Byte :=
  digitBytes (if n < 10 then 1 else if n < 100 then 2 else 3) n

/-- "null" (00_scope.md R10). -/
def nullText : List Byte := [0x6E, 0x75, 0x6C, 0x6C]

/-- The sign of a text. -/
def signText (neg : Bool) : List Byte := if neg then [chMinus] else []

/-- The fixed form (45_extract_format.md R102). -/
def fixedText (ds : List Byte) (x : Int) : List Byte :=
  if x ≥ 0 then
    let whole := x.toNat + 1
    ds.take whole ++ (if whole < ds.length then chDot :: ds.drop whole else [])
  else [chZero, chDot] ++ List.replicate (-x - 1).toNat chZero ++ ds

/-- The exponential form (45_extract_format.md R102). -/
def exponentialText (ds : List Byte) (x : Int) : List Byte :=
  ds.take 1 ++ (if ds.length > 1 then chDot :: ds.drop 1 else []) ++
    [chLowerE, if x < 0 then chMinus else chPlus] ++ decimalBytes x.natAbs

/-- The text of a FINITE value's digits (45_extract_format.md R102): fixed when `-4 ≤ X < c`. -/
def renderDigits (d : DecimalDigits) : List Byte :=
  let ds := digitBytes d.count d.number
  if -4 ≤ d.exp10 ∧ d.exp10 < d.count then fixedText ds d.exp10 else exponentialText ds d.exp10

/-- The text T of a pattern (45_extract_format.md R102). -/
def formatText (r : Pow5Rounding) (f : FloatFormat) (b : Nat) : List Byte :=
  let x := decompose f b
  match x.cls with
  | .nan => nullText
  | .inf => nullText
  | .zero => signText x.neg ++ [chZero]
  | .finite => signText x.neg ++ renderDigits (decimalDigits r x.m x.e2)

/-- The text FORMAT writes from a state. -/
def State.outputText (s : State) (f : FloatFormat) : List Byte := formatText s.params.rounding f (s.pattern f)

/-- The address FORMAT writes its text to. -/
def State.outputBase (s : State) : Nat := s.unsigned .addr

/-- Completion of FORMAT with the fault of its j-th write (60_exceptions.md R119): LEN ← j, POS ← fault address. -/
def State.raiseWrite (s : State) (j : Nat) (e : CmdError) : State :=
  match e with
  | .memoryFault a => ((s.setReg .len (BitVec.ofNat 64 j)).setReg .pos (BitVec.ofNat 64 a)).complete .memoryFault
  | e => s.complete e.cause

/-- FORMAT (45_extract_format.md R105): the text in memory, LEN and POS; the bytes before a fault stay written. -/
def execFormat (f : FloatFormat) (s : State) : Host.Outcome State Fault Refusal :=
  let text := s.outputText f
  match s.portWrites s.mem s.outputBase text with
  | (m, none) =>
    .next ((((s.setMem m).setReg .len (BitVec.ofNat 64 text.length)).setReg .pos (s.textPos text.length)).complete .ok)
  | (m, some (j, e)) => .next ((s.setMem m).raiseWrite j e)

end Sys2Proof.Machine
end

