-- ==== Sys2Proof/Machine/Dispatch.lean ====
section
/-! DEFINITION. Each command to its meaning. -/

namespace Sys2Proof.Machine

def exec (i : Instr) (s : State) : Host.Outcome State Fault Refusal :=
  match i with
  | .nop => Sys2Proof.Machine.execNop s
  | .mul64 => Sys2Proof.Machine.execMul64 s
  | .mul128 => Sys2Proof.Machine.execMul128 s
  | .pow5 t k => Sys2Proof.Machine.execPow5 t k s
  | .scan m => Sys2Proof.Machine.execScan m s
  | .scale => Sys2Proof.Machine.execScale s
  | .assemble f => Sys2Proof.Machine.execAssemble f s
  | .parse f m => Sys2Proof.Machine.execParse f m s
  | .extract f => Sys2Proof.Machine.execExtract f s
  | .format f => Sys2Proof.Machine.execFormat f s

end Sys2Proof.Machine
end

