-- ==== Sys2Proof/Decode.lean ====
section
/-! DEFINITION. From the 64-bit value of a CMD write to a command or a named reason why it is illegal
(30_encoding.md R44 to R52), and the encoder back to the word. -/

namespace Sys2Proof

/-- Why a CMD write is not legal: the list of 60_exceptions.md R118. -/
inductive IllegalWord where
  /-- Bits [63:32] of the CMD write are not zero. -/
  | highBits
  /-- Bit 11 or a bit of [31:16] is not zero. -/
  | reservedBits
  /-- OP is none of the ten values of 30_encoding.md R50. -/
  | unusedOpcode
  /-- A field the opcode does not use is not zero. -/
  | unusedField
  /-- POW5 with K ≥ 9. -/
  | entryIndex
  deriving DecidableEq, Repr

/-- The fields of format F0 (30_encoding.md R45), and the bits around them. -/
structure WordFields where
  op       : Nat
  w        : Bool
  m        : Bool
  t        : Bool
  k        : Nat
  reserved : Bool
  high     : Bool
  deriving DecidableEq, Repr

/-- Field extraction (30_encoding.md R45): OP 7:0, W 8, M 9, T 10, K 15:12, reserved 11 and 31:16. -/
def fieldsOf (v : Word) : WordFields where
  op       := (v.extractLsb' 0 8).toNat
  w        := v.getLsbD 8
  m        := v.getLsbD 9
  t        := v.getLsbD 10
  k        := (v.extractLsb' 12 4).toNat
  reserved := v.getLsbD 11 || v.extractLsb' 16 16 != 0
  high     := v.extractLsb' 32 32 != 0

/-- The value of field W (30_encoding.md R46). -/
def formatOfBit : Bool → FloatFormat
  | false => .binary64
  | true => .binary32

/-- The value of field M (30_encoding.md R47). -/
def modeOfBit : Bool → ScanMode
  | false => .bounded
  | true => .nul

/-- The value of field T (30_encoding.md R48). -/
def tableOfBit : Bool → Pow5Table
  | false => .pos
  | true => .neg

/-- The command `i`, unless a field it does not use is set (30_encoding.md R51 c). -/
def unlessSet (unused : Bool) (i : Instr) : Except IllegalWord Instr :=
  if unused then .error .unusedField else .ok i

/-- The opcode map (30_encoding.md R50) with the legality of the fields (R51 c, d). -/
def decodeFields (x : WordFields) : Except IllegalWord Instr :=
  match x.op with
  | 0x00 => unlessSet (x.w || x.m || x.t || x.k != 0) .nop
  | 0x01 => unlessSet (x.w || x.m || x.t || x.k != 0) .mul64
  | 0x02 => unlessSet (x.w || x.m || x.t || x.k != 0) .mul128
  | 0x03 => if x.k ≥ pow5Entries then .error .entryIndex else unlessSet (x.w || x.m) (.pow5 (tableOfBit x.t) x.k)
  | 0x10 => unlessSet (x.w || x.t || x.k != 0) (.scan (modeOfBit x.m))
  | 0x11 => unlessSet (x.w || x.m || x.t || x.k != 0) .scale
  | 0x12 => unlessSet (x.m || x.t || x.k != 0) (.assemble (formatOfBit x.w))
  | 0x13 => unlessSet (x.t || x.k != 0) (.parse (formatOfBit x.w) (modeOfBit x.m))
  | 0x20 => unlessSet (x.m || x.t || x.k != 0) (.extract (formatOfBit x.w))
  | 0x21 => unlessSet (x.m || x.t || x.k != 0) (.format (formatOfBit x.w))
  | _ => .error .unusedOpcode

/-- Decoding is total on every 64-bit CMD write (30_encoding.md R52). -/
def decode (v : Word) : Except IllegalWord Instr :=
  let x := fieldsOf v
  if x.high then .error .highBits
  else if x.reserved then .error .reservedBits
  else decodeFields x

/-- The bit of a format (30_encoding.md R46). -/
def FloatFormat.bit : FloatFormat → Nat
  | .binary64 => 0
  | .binary32 => 1

/-- The bit of a scan mode (30_encoding.md R47). -/
def ScanMode.bit : ScanMode → Nat
  | .bounded => 0
  | .nul => 1

/-- The bit of a POW5 table (30_encoding.md R48). -/
def Pow5Table.bit : Pow5Table → Nat
  | .pos => 0
  | .neg => 1

/-- The full words of 30_encoding.md R50, as numbers. -/
def encodeNat : Instr → Nat
  | .nop => 0x00000000
  | .mul64 => 0x00000001
  | .mul128 => 0x00000002
  | .pow5 t k => 0x00000003 ||| k <<< 12 ||| t.bit <<< 10
  | .scan m => 0x00000010 ||| m.bit <<< 9
  | .scale => 0x00000011
  | .assemble f => 0x00000012 ||| f.bit <<< 8
  | .parse f m => 0x00000013 ||| m.bit <<< 9 ||| f.bit <<< 8
  | .extract f => 0x00000020 ||| f.bit <<< 8
  | .format f => 0x00000021 ||| f.bit <<< 8

/-- The value a host writes to CMD to issue a command (30_encoding.md R44: bits [63:32] zero). -/
def encode (i : Instr) : Word := BitVec.ofNat 64 (encodeNat i)

/-- The command the decoder reads from a row's word of `nbits` bits with value `w`, the bits above them zero. A CMD
write is one 64-bit value, so no byte order is involved (20_memory.md R31). -/
def decodeTableWord (nbits w : Nat) : Option Instr :=
  if w % 2 ^ nbits < 2 ^ 64 then (decode (BitVec.ofNat 64 (w % 2 ^ nbits))).toOption else none

end Sys2Proof
end

