-- ==== Sys2Proof/Machine/HostPort.lean ====
section
/-! DEFINITION. The host's side: register accesses (10_state.md R13 to R19), the issue of a command
(70_reset_and_hazards.md R131), accesses to memory and their races with a running command (20_memory.md R40), and reset
(70_reset_and_hazards.md R128, R129). -/

namespace Sys2Proof.Machine

/-! ### The register window -/

/-- The data register of index n = 3 .. 17 (10_state.md R13). -/
def dataRegOf : Nat → Option DataReg
  | 3 => some .aHi
  | 4 => some .aLo
  | 5 => some .bHi
  | 6 => some .bLo
  | 7 => some .pHi
  | 8 => some .pLo
  | 9 => some .mant
  | 10 => some .exp10
  | 11 => some .bexp
  | 12 => some .bits
  | 13 => some .addr
  | 14 => some .endAddr
  | 15 => some .pos
  | 16 => some .count
  | 17 => some .len
  | _ => none

/-- The register of index n; indices 18 to 31 are reserved and have none (10_state.md R13, R15). -/
def regOf : Nat → Option Reg
  | 0 => some .cmd
  | 1 => some .status
  | 2 => some .flags
  | n => (dataRegOf n).map .data

/-- The index of a register (10_state.md R13). -/
def Reg.index : Reg → Nat
  | .cmd => 0
  | .status => 1
  | .flags => 2
  | .data .aHi => 3
  | .data .aLo => 4
  | .data .bHi => 5
  | .data .bLo => 6
  | .data .pHi => 7
  | .data .pLo => 8
  | .data .mant => 9
  | .data .exp10 => 10
  | .data .bexp => 11
  | .data .bits => 12
  | .data .addr => 13
  | .data .endAddr => 14
  | .data .pos => 15
  | .data .count => 16
  | .data .len => 17

/-- The byte offset of a register: 8n (10_state.md R13). -/
def Reg.offset (r : Reg) : Nat := 8 * r.index

/-- An access the window accepts: 64 bits, at a multiple of 8 within its 256 bytes (10_state.md R13, R14;
log 21). -/
def windowAccess (size offset : Nat) : Bool := size == 8 && offset % 8 == 0 && decide (offset < 256)

/-- A register as the host reads it (10_state.md R17 to R19, R21). -/
def State.readReg (s : State) : Reg → Word
  | .cmd => s.cmd
  | .status => s.status.word
  | .flags => s.flags.word
  | .data r => s.reg r

/-- The value of a window offset: reserved offsets read 0 (10_state.md R15). -/
def State.readWindow (s : State) (offset : Nat) : Word :=
  match regOf (offset / 8) with
  | none => 0
  | some r => s.readReg r

/-- The state with a value returned to the host. -/
def State.returnToHost (s : State) (v : Word) : State := { s with hostReads := v :: s.hostReads }

/-! ### Issue -/

/-- Issue, phase (1) of 70_reset_and_hazards.md R131: CMD takes the value, BUSY ← 1, DONE ← 0, CAUSE ← 0, OVR ← 0; an
illegal word goes straight to completion with ILLEGAL_COMMAND (60_exceptions.md R118; log 20). -/
def State.issue (s : State) (v : Word) : State :=
  let t := { s with cmd := v, status := ⟨true, false, .ok, false⟩, raced := [] }
  match decode v with
  | .ok _ => t
  | .error _ => t.complete .illegalCommand

/-- The state with STATUS.OVR set: a host write was ignored because BUSY was 1 (70_reset_and_hazards.md R133). -/
def State.overrun (s : State) : State := s.setStatus { s.status with ovr := true }

/-- A host write to a register while the engine is idle (10_state.md R16 to R19): to CMD it issues, to STATUS it is
ignored, to FLAGS it reaches the listed bits. -/
def State.writeIdle (s : State) (r : Reg) (v : Word) : State :=
  match r with
  | .cmd => s.issue v
  | .status => s
  | .flags => s.setFlags (Flags.ofWord v)
  | .data d => s.setReg d v

/-- A host write to a register: ignored while BUSY but for OVR (70_reset_and_hazards.md R133; log 10). -/
def State.writeReg (s : State) (r : Reg) (v : Word) : State :=
  if s.status.busy then s.overrun else s.writeIdle r v

/-- A host write at a window offset: a reserved offset ignores it (10_state.md R15; log 9). -/
def State.writeWindow (s : State) (offset : Nat) (v : Word) : State :=
  match regOf (offset / 8) with
  | none => s
  | some r => s.writeReg r v

/-- A host write: refused unless the window accepts the access (10_state.md R14). -/
def hostWrite (size offset : Nat) (v : Word) (s : State) : Host.Outcome State Fault Refusal :=
  if windowAccess size offset then .next (s.writeWindow offset v) else .refused (.registerAccess size offset)

/-- A host read; while BUSY it returns the value at issue, since no register but STATUS changes before completion
(70_reset_and_hazards.md R132). -/
def hostRead (size offset : Nat) (s : State) : Host.Outcome State Fault Refusal :=
  if windowAccess size offset then .next (s.returnToHost (s.readWindow offset))
  else .refused (.registerAccess size offset)

/-! ### The host's memory accesses -/

/-- The command in progress, if one is (10_state.md R27): STATUS.BUSY says that one is, CMD which. -/
def State.running (s : State) : Option Instr :=
  if s.status.busy then (decode s.cmd).toOption else none

/-- The byte a running FORMAT writes, or has written, at an address: the output byte of its text there, where no
earlier write of its text faults. -/
def State.outputByte (s : State) (a : Nat) : Option Byte :=
  match s.running with
  | some (.format f) =>
    let text := s.outputText f
    let n := match (s.portWrites s.mem s.outputBase text).2 with
      | none => text.length
      | some (j, _) => j
    if s.outputBase ≤ a then (text.take n)[a - s.outputBase]? else none
  | _ => none

/-- The byte a host load returns: while FORMAT is running, an output byte reads as its old or its new value
(20_memory.md R40 c; log 7). The choice binds neither a later load nor a reset (log 7, log 8). -/
def State.hostByte (s : State) (a : Nat) : Byte :=
  match s.outputByte a with
  | none => s.mem.read a
  | some b => if Config.racedReadsNew s.draws then b else s.mem.read a

/-- The state with one more free value drawn. -/
def State.drawn (s : State) : State := { s with draws := s.draws + 1 }

/-- A host load of one byte (20_memory.md R40 b, c). -/
def hostLoad (a : Nat) (s : State) : Host.Outcome State Fault Refusal :=
  match portAccess s.params a with
  | .error _ => .fault (.hostMemoryAccess a)
  | .ok _ => .next ((s.returnToHost ((s.hostByte a).setWidth 64)).drawn)

/-- The state with the host's byte in memory; while a command is running the byte is marked as raced, with a draw of
its own (20_memory.md R40 d, e; log 6). -/
def State.storeByte (s : State) (a : Nat) (b : Byte) : State :=
  let t := s.setMem (s.mem.write a b)
  if s.status.busy then { t with raced := ⟨a, s.draws⟩ :: s.raced, draws := s.draws + 1 } else t

/-- A host store of one byte (20_memory.md R40 a, d, e). -/
def hostStore (a : Nat) (b : Byte) (s : State) : Host.Outcome State Fault Refusal :=
  match portAccess s.params a with
  | .error _ => .fault (.hostMemoryAccess a)
  | .ok _ => .next (s.storeByte a b)

/-! ### Reset -/

/-- The memory a reset leaves: "not touched by reset" (70_reset_and_hazards.md R128), but a FORMAT it abandons has
written some first bytes of its text, a free number of them (R129; log 8). DESIGN CHOICE: that number is independent of
what the host's loads returned while BUSY = 1, so a byte loaded new may read old after the reset (logs 7 and 8). -/
def State.memAtReset (s : State) : Memory :=
  match s.running with
  | some (.format f) =>
    (s.portWrites s.mem s.outputBase ((s.outputText f).take (Config.bytesBeforeReset s.draws))).1
  | _ => s.mem

/-- Reset of the engine: the registers take their reset values and a running command is abandoned
(70_reset_and_hazards.md R128, R129). Memory, the parameters and the host's side are not the engine's (log 15). -/
def State.afterReset (s : State) : State :=
  { State.reset with
    mem := s.memAtReset, params := s.params, inbox := s.inbox, hostReads := s.hostReads, draws := s.draws + 1 }

/-! ### Turns -/

/-- The offset of STATUS. -/
def statusOffset : Nat := 8

/-- Who acts next. -/
inductive Turn where
  /-- The host, with the action at the head of its list. -/
  | host (op : HostOp)
  /-- The engine runs the command in progress to its completion. -/
  | engine
  /-- Nobody: the engine is idle and the host waits or has nothing left to do. -/
  | nobody
  deriving DecidableEq, Repr

/-- Whose turn it is (log 4). The host's next action lands at once, also while a command is running, except that a
`wait` lets the engine finish; with nothing left to land, a running command finishes (70_reset_and_hazards.md R131).
An idle engine does nothing (R141), and a `wait` with no command completed waits on (log 18). -/
def State.turn (s : State) : Turn :=
  match s.inbox with
  | [] => if s.status.busy then .engine else .nobody
  | .wait :: _ =>
    if s.status.busy then .engine
    else if s.status.done then .host .wait
    else .nobody
  | op :: _ => .host op

/-- One action of the host or the platform. A `wait` that ends has read STATUS with DONE = 1 (30_encoding.md R53). -/
def hostAct (op : HostOp) (s : State) : Host.Outcome State Fault Refusal :=
  match op with
  | .write size offset v => hostWrite size offset v s
  | .read size offset => hostRead size offset s
  | .wait => hostRead 8 statusOffset s
  | .memWrite a b => hostStore a b s
  | .memRead a => hostLoad a s
  | .reset => .next s.afterReset

/-- The state with the host's next action taken off its list. -/
def State.popInbox (s : State) : State := { s with inbox := s.inbox.tail }

/-- A CMD write accepted with the host waiting for it: the state in which the very next step runs the command. -/
def State.issueAndWait (s : State) (v : Word) : State := ({ s with inbox := .wait :: s.inbox }).issue v

end Sys2Proof.Machine
end

