-- ==== Sys2Proof/Machine/Run.lean ====
section
/-! DEFINITION. Execution and completion of the command in progress (70_reset_and_hazards.md R131, phases 2 and 3). -/

namespace Sys2Proof.Machine

/-- The command in CMD: its meaning runs and completes (70_reset_and_hazards.md R131; log 5). A word that is not legal
completes with ILLEGAL_COMMAND; issue has done so already, and no run comes here with one (60_exceptions.md R118). -/
def runCommand (s : State) : Host.Outcome State Fault Refusal :=
  match decode s.cmd with
  | .ok i => exec i s
  | .error _ => .next (s.complete .illegalCommand)

end Sys2Proof.Machine
end

