-- ==== Sys2Proof/Machine/Step.lean ====
section
/-! DEFINITION. One step: an action of the host, or the execution and completion of the command in progress
(70_reset_and_hazards.md R131). -/

namespace Sys2Proof.Machine

/-- One step of the machine (log 4, log 5). -/
def step (s : State) : Host.Outcome State Fault Refusal :=
  match s.turn with
  | .host op => hostAct op s.popInbox
  | .engine => runCommand s
  | .nobody => .next s

/-- `s` with the command word `w` issued, so that the very next step runs it: the host's CMD write has been accepted and
the host waits for it (log 4). -/
def State.withFetchWord (s : State) (nbits w : Nat) : State :=
  s.issueAndWait (BitVec.ofNat 64 (w % 2 ^ nbits))

end Sys2Proof.Machine
end

