-- ==== Sys2Proof/Safety.lean ====
section
/-! DEFINITION. The terms the claims are stated in: the state's invariant, what a command leaves alone, the register
table of 10_state.md R24, the opcode table of 30_encoding.md R51, the literals of the grammar of 42_scanner.md R68, and
the values of floating-point patterns. -/

namespace Sys2Proof.Machine

/-! ### The invariant -/

/-- What holds of the machine between steps. -/
structure State.Inv (s : State) : Prop where
  /-- The memory is in canonical form. -/
  memCanonical : Memory.wf s.mem = true
  /-- Every listed byte lies in the address space (20_memory.md R29). -/
  memInSpace : ∀ c ∈ s.mem, c.1 < 2 ^ s.params.addrWidth
  /-- BUSY and DONE are never 1 together (10_state.md R18). -/
  busyNotDone : s.status.busy = true → s.status.done = false
  /-- CAUSE is OK until a command has completed (10_state.md R18). -/
  causeNeedsDone : s.status.done = false → s.status.cause = .ok
  /-- Before the first command has been issued there is no overrun (10_state.md R18). -/
  overrunNeedsCommand : s.status.busy = false → s.status.done = false → s.status.ovr = false
  /-- Only a legal command is in execution (60_exceptions.md R118). -/
  busyLegal : s.status.busy = true → ∃ i, decode s.cmd = .ok i
  /-- Races are with a running command (20_memory.md R40). -/
  racedNeedsBusy : s.status.busy = false → s.raced = []
  /-- Raced bytes lie in the address space, and their draws have been made. -/
  racedInSpace : ∀ r ∈ s.raced, r.addr < 2 ^ s.params.addrWidth ∧ r.draw < s.draws

/-! ### What a command leaves alone -/

/-- From `s` a command completed with code `c` in `t`: STATUS says so with OVR as it was (70_reset_and_hazards.md R131,
R133), the data registers other than `rs` are as they were, and so is everything else but FLAGS and memory. -/
structure Completes (c : Cause) (rs : List DataReg) (s t : State) : Prop where
  status : t.status = ⟨false, true, c, s.status.ovr⟩
  regs : ∀ r, r ∉ rs → t.reg r = s.reg r
  cmd : t.cmd = s.cmd
  params : t.params = s.params
  inbox : t.inbox = s.inbox
  hostReads : t.hostReads = s.hostReads
  draws : t.draws = s.draws

/-- Every byte of memory reads as before. -/
def SameMemory (s t : State) : Prop := ∀ a, t.mem.read a = s.mem.read a

/-- Nothing but `inbox` and the fields the claim names differ: the frame of a host action. -/
structure HostFrame (s t : State) : Prop where
  regs : ∀ r, t.reg r = s.reg r
  params : t.params = s.params
  hostReads : t.hostReads = s.hostReads
  mem : SameMemory s t

/-! ### The register table (10_state.md R24) -/

/-- Column "reads": the data registers a command reads. -/
def readsOf : Instr → List DataReg
  | .nop => []
  | .mul64 => [.aLo, .bLo]
  | .mul128 => [.aHi, .aLo, .bHi, .bLo]
  | .pow5 _ _ => []
  | .scan .bounded => [.addr, .endAddr]
  | .scan .nul => [.addr]
  | .scale => [.mant, .exp10]
  | .assemble _ => [.pHi, .pLo, .bexp]
  | .parse _ .bounded => [.addr, .endAddr]
  | .parse _ .nul => [.addr]
  | .extract _ => [.bits]
  | .format _ => [.bits, .addr]

/-- Column "reads": ASSEMBLE reads FLAGS.N, RB and SB, no other command reads FLAGS. -/
def readsFlags : Instr → Bool
  | .assemble _ => true
  | _ => false

/-- Column "reads": SCAN and PARSE read text bytes, in the mode of their field M. -/
def readsText : Instr → Option ScanMode
  | .scan m => some m
  | .parse _ m => some m
  | _ => none

/-- Columns "writes when CAUSE = OK" and "writes on error": the data registers written. -/
def writesOf : Instr → Cause → List DataReg
  | .mul64, .ok => [.pHi, .pLo]
  | .mul128, .ok => [.pHi, .pLo]
  | .pow5 _ _, .ok => [.bHi, .bLo, .bexp]
  | .scan _, .ok => [.mant, .exp10, .pos]
  | .scan _, .invalidArgument => [.pos]
  | .scan _, .memoryFault => [.pos]
  | .scale, .ok => [.pHi, .pLo, .bexp]
  | .assemble _, .ok => [.bits]
  | .parse _ _, .ok => [.bits, .pos]
  | .parse _ _, .invalidArgument => [.pos]
  | .parse _ _, .memoryFault => [.pos]
  | .extract _, .ok => [.mant, .count, .exp10]
  | .format _, .ok => [.len, .pos]
  | .format _, .memoryFault => [.len, .pos]
  | _, _ => []

/-- FLAGS.N is written by SCAN and EXTRACT (10_state.md R20). -/
def writesSign : Instr → Cause → Bool
  | .scan _, .ok => true
  | .extract _, .ok => true
  | _, _ => false

/-- FLAGS.RB and SB are written by MUL128 and SCALE (10_state.md R20). -/
def writesRounding : Instr → Cause → Bool
  | .mul128, .ok => true
  | .scale, .ok => true
  | _, _ => false

/-- FLAGS.CLASS is written by EXTRACT (10_state.md R20). -/
def writesClass : Instr → Cause → Bool
  | .extract _, .ok => true
  | _, _ => false

/-- The codes a command can complete with (60_exceptions.md R115, column "raised by"). -/
def causesOf : Instr → List Cause
  | .scan _ => [.ok, .invalidArgument, .memoryFault]
  | .parse _ _ => [.ok, .invalidArgument, .memoryFault]
  | .scale => [.ok, .operandRange]
  | .format _ => [.ok, .memoryFault]
  | _ => [.ok]

/-- A byte of the grammar's classes: a digit, a sign, the point or an exponent marker (42_scanner.md R68, R74). -/
def inClasses (c : Byte) : Bool :=
  isDigit (some c) || c == chMinus || c == chPlus || c == chDot || c == chLowerE || c == chUpperE

/-- The address `a` lies in the text at ADDR: in bounded mode it is below END, and each byte of the text before it is one
the memory completes and of the grammar's classes. The first byte that is not ends the text and is the last of it
(20_memory.md R33, 42_scanner.md R74). -/
def State.inText (s : State) (m : ScanMode) (a : Nat) : Prop :=
  s.unsigned .addr ≤ a ∧ (m = .bounded → a < s.unsigned .endAddr) ∧
    ∀ b, s.unsigned .addr ≤ b → b < a → ∃ c, s.portRead b = .ok c ∧ inClasses c = true

/-- Two states agree on all that command `i` reads: its registers and flags, its text, and the parameters
(10_state.md R27, R24). -/
structure AgreeFor (i : Instr) (s s' : State) : Prop where
  regs : ∀ r ∈ readsOf i, s'.reg r = s.reg r
  flags : readsFlags i = true → s'.flags.n = s.flags.n ∧ s'.flags.rb = s.flags.rb ∧ s'.flags.sb = s.flags.sb
  text : ∀ m, readsText i = some m → ∀ a, s.inText m a → s'.seenByte a = s.seenByte a
  params : s'.params = s.params

/-! ### The opcode table (30_encoding.md R51) -/

/-- A row of the match and mask table. -/
structure TableRow where
  name    : String
  pattern : Nat
  mask    : Nat
  deriving DecidableEq, Repr

/-- The rows of 30_encoding.md R51. -/
def opcodeTable : List TableRow :=
  [ ⟨"NOP", 0x00000000, 0xFFFFFFFF⟩, ⟨"MUL64", 0x00000001, 0xFFFFFFFF⟩, ⟨"MUL128", 0x00000002, 0xFFFFFFFF⟩,
    ⟨"POW5", 0x00000003, 0xFFFF0BFF⟩, ⟨"SCAN", 0x00000010, 0xFFFFFDFF⟩, ⟨"SCALE", 0x00000011, 0xFFFFFFFF⟩,
    ⟨"ASSEMBLE", 0x00000012, 0xFFFFFEFF⟩, ⟨"PARSE", 0x00000013, 0xFFFFFCFF⟩, ⟨"EXTRACT", 0x00000020, 0xFFFFFEFF⟩,
    ⟨"FORMAT", 0x00000021, 0xFFFFFEFF⟩ ]

/-- A word is a row's command when `(word & mask) == match` (30_encoding.md R51). -/
def TableRow.hits (r : TableRow) (w : BitVec 32) : Prop := w &&& BitVec.ofNat 32 r.mask = BitVec.ofNat 32 r.pattern

/-- The mnemonic of a command. -/
def mnemonicOf : Instr → String
  | .nop => "NOP"
  | .mul64 => "MUL64"
  | .mul128 => "MUL128"
  | .pow5 _ _ => "POW5"
  | .scan _ => "SCAN"
  | .scale => "SCALE"
  | .assemble _ => "ASSEMBLE"
  | .parse _ _ => "PARSE"
  | .extract _ => "EXTRACT"
  | .format _ => "FORMAT"

/-! ### Literals (42_scanner.md R68) -/

/-- The `exp` part of a literal: the marker's case, the sign where one is written, and the digits. -/
structure ExponentPart where
  upper  : Bool
  sign   : Option Bool
  digits : List Nat
  deriving DecidableEq, Repr

/-- A literal of the grammar `[ '-' ] intpart [ frac ] [ exp ]`. In `ExponentPart.sign`, `true` is '-'. -/
structure Literal where
  neg  : Bool
  int  : List Nat
  frac : Option (List Nat)
  exp  : Option ExponentPart
  deriving DecidableEq, Repr

/-- A nonempty list of decimal digits: `digit+`. -/
def isDigits (ds : List Nat) : Bool := !ds.isEmpty && ds.all (· < 10)

/-- The grammar's conditions: `intpart` is '0' or starts with a nonzero digit; a part that is present has digits. -/
def Literal.wf (l : Literal) : Bool :=
  isDigits l.int && (l.int == [0] || l.int.head? != some 0) && l.frac.all isDigits &&
    l.exp.all fun x => isDigits x.digits

/-- The bytes of a digit string. -/
def digitsText (ds : List Nat) : List Byte := ds.map digitByte

/-- The bytes of an exponent part. -/
def ExponentPart.text (x : ExponentPart) : List Byte :=
  (if x.upper then chUpperE else chLowerE) ::
    ((match x.sign with | none => [] | some true => [chMinus] | some false => [chPlus]) ++ digitsText x.digits)

/-- The bytes of a literal. -/
def Literal.text (l : Literal) : List Byte :=
  (if l.neg then [chMinus] else []) ++ digitsText l.int ++
    (match l.frac with | none => [] | some ds => chDot :: digitsText ds) ++
    (match l.exp with | none => [] | some x => x.text)

/-- The digits after the point. -/
def Literal.fracDigits (l : Literal) : List Nat := l.frac.getD []

/-- The significant digits: those at or after the first nonzero digit of `intpart frac` (42_scanner.md R69). -/
def Literal.significant (l : Literal) : List Nat := (l.int ++ l.fracDigits).dropWhile (· == 0)

/-- The number a digit string writes: its digits by their powers of ten, the last the units. -/
def digitsNumber (ds : List Nat) : Nat := Nat.ofDigits 10 ds.reverse

/-- The signed value of the exponent part, 0 when there is none. -/
def Literal.expValue (l : Literal) : Int :=
  match l.exp with
  | none => 0
  | some x => if x.sign = some true then -(digitsNumber x.digits : Int) else digitsNumber x.digits

/-- The mantissa: the first 17 significant digits (42_scanner.md R69). -/
def Literal.mant (l : Literal) : Nat := digitsNumber (l.significant.take 17)

/-- The exponent before the clamp: each digit after the point lowers it, each significant digit past the 17th raises
it (42_scanner.md R70, R71). -/
def Literal.rawExp10 (l : Literal) : Int :=
  l.expValue - l.fracDigits.length + (l.significant.length - 17 : Nat)

/-- The exponent, clamped once (42_scanner.md R72). -/
def Literal.exp10 (l : Literal) : Int := max (-400) (min 400 l.rawExp10)

/-- The exact value of a literal, without its sign. -/
def Literal.magnitude (l : Literal) : ℚ :=
  (digitsNumber (l.int ++ l.fracDigits) : ℚ) * 10 ^ (l.expValue - l.fracDigits.length : ℤ)

/-- What may follow a literal for the scan to end there: a byte (or EOT) that neither extends it nor makes the grammar
demand more (42_scanner.md R68: greedy, no backtracking). -/
def Literal.endsBefore (l : Literal) (c : Option Byte) : Prop :=
  isDigit c = false ∧ (l.exp = none → c ≠ some chLowerE ∧ c ≠ some chUpperE) ∧
    (l.exp = none → l.frac = none → c ≠ some chDot)

/-- The text at ADDR begins with the literal, and what follows ends it. -/
structure TextIs (s : State) (m : ScanMode) (l : Literal) : Prop where
  bytes : ∀ j, (h : j < l.text.length) → s.peek m j = .ok (some l.text[j])
  ends : ∃ c, s.peek m l.text.length = .ok c ∧ l.endsBefore c

/-! ### Grammar errors (42_scanner.md R68, 60_exceptions.md R117) -/

/-- The text at ADDR begins with these bytes. -/
def State.textBegins (s : State) (m : ScanMode) (bs : List Byte) : Prop :=
  ∀ j, (h : j < bs.length) → s.peek m j = .ok (some bs[j])

/-- The ways a text violates the grammar: each says what has been read of the text, the last of it the byte (or EOT) that
is the violation. Nothing is said of any byte after that one. -/
inductive State.GrammarError (s : State) (m : ScanMode) : Prop
  /-- No digit where `intpart` must begin. -/
  | noInteger (neg : Bool) (c : Option Byte) (begins : s.textBegins m (signText neg))
      (reads : s.peek m neg.toNat = .ok c) (unsigned : neg = false → c ≠ some chMinus) (violation : isDigit c = false)
  /-- A '0' `intpart` followed directly by a digit. -/
  | leadingZero (neg : Bool) (c : Option Byte) (begins : s.textBegins m (signText neg ++ [chZero]))
      (reads : s.peek m (neg.toNat + 1) = .ok c) (violation : isDigit c = true)
  /-- A '.' not followed by a digit. -/
  | noFraction (l : Literal) (c : Option Byte) (wf : l.wf = true) (noFrac : l.frac = none) (noExp : l.exp = none)
      (begins : s.textBegins m (l.text ++ [chDot])) (reads : s.peek m (l.text.length + 1) = .ok c)
      (violation : isDigit c = false)
  /-- An 'e' or 'E' not followed by a digit or a sign. -/
  | noExponent (l : Literal) (upper : Bool) (c : Option Byte) (wf : l.wf = true) (noExp : l.exp = none)
      (begins : s.textBegins m (l.text ++ [if upper then chUpperE else chLowerE]))
      (reads : s.peek m (l.text.length + 1) = .ok c)
      (violation : isDigit c = false ∧ c ≠ some chPlus ∧ c ≠ some chMinus)
  /-- An 'e' or 'E' followed by a sign that no digit follows. -/
  | noSignedExponent (l : Literal) (upper minus : Bool) (c : Option Byte) (wf : l.wf = true) (noExp : l.exp = none)
      (begins : s.textBegins m
        (l.text ++ [if upper then chUpperE else chLowerE, if minus then chMinus else chPlus]))
      (reads : s.peek m (l.text.length + 2) = .ok c) (violation : isDigit c = false)

/-! ### Texts of numbers (45_extract_format.md R102) -/

/-- The decimal digits of a number, most significant first, with no leading zeros. -/
def digitsOf (n : Nat) : List Nat := (Nat.digits 10 n).reverse

/-- The text R102 gives a finite nonzero value with digits `ds` and leading-digit exponent `x`: fixed when
`-4 ≤ x < ds.length`, otherwise exponential with a marker 'e', a sign and the digits of |x|. -/
def numberText (neg : Bool) (ds : List Nat) (x : Int) : List Byte :=
  signText neg ++
    (if -4 ≤ x ∧ x < ds.length then
      (if 0 ≤ x then
        digitsText (ds.take (x.toNat + 1)) ++
          (if x + 1 < ds.length then chDot :: digitsText (ds.drop (x.toNat + 1)) else [])
      else chZero :: chDot :: List.replicate (-x - 1).toNat chZero ++ digitsText ds)
    else
      digitsText (ds.take 1) ++ (if 1 < ds.length then chDot :: digitsText (ds.drop 1) else []) ++
        chLowerE :: (if x < 0 then chMinus else chPlus) :: digitsText (digitsOf x.natAbs))

/-! ### The output of FORMAT (20_memory.md R34, 60_exceptions.md R119) -/

/-- `b` is the byte FORMAT writes at `a` from `s`: the text's byte there, the memory completing each access up to it. -/
def State.writesByte (s : State) (f : FloatFormat) (a : Nat) (b : Byte) : Prop :=
  s.outputBase ≤ a ∧ (s.outputText f)[a - s.outputBase]? = some b ∧
    ∀ a', s.outputBase ≤ a' → a' ≤ a → portAccess s.params a' = .ok ()

/-! ### The properties of 46_api.md R113 -/

/-- PARSE of the text that FORMAT left in `t`, in bounded mode with END = POS. -/
def parseBack (f : FloatFormat) (t : State) : Host.Outcome State Fault Refusal :=
  exec (.parse f .bounded) (t.setReg .endAddr (t.reg .pos))

/-- Round trip: FORMAT of `s`'s pattern, then PARSE of the text, completes with the pattern in BITS and
POS = ADDR + LEN (46_api.md R113). -/
def RoundTrips (f : FloatFormat) (s : State) : Prop :=
  ∃ t w, exec (.format f) s = .next t ∧ t.status.cause = .ok ∧ parseBack f t = .next w ∧ w.status.cause = .ok ∧
    (w.reg .bits).toNat = (s.reg .bits).toNat % 2 ^ f.width ∧ w.reg .pos = s.reg .addr + t.reg .len

/-- Idempotence: FORMAT of what PARSE gives of a text of FORMAT writes that text again (46_api.md R113). -/
def FormatIsIdempotent (f : FloatFormat) (s : State) : Prop :=
  ∃ t w u, exec (.format f) s = .next t ∧ parseBack f t = .next w ∧ exec (.format f) w = .next u ∧
    u.status.cause = .ok ∧ w.outputText f = s.outputText f ∧ u.reg .len = t.reg .len ∧ SameMemory t u

/-! ### Values of patterns (00_scope.md R2) -/

/-- The value of a pattern without its sign bit. The all-ones exponent with fraction 0 is given the value the next
finite pattern would have, 2^(Emax − bias): the point from which a value rounds to infinity lies half way to it. -/
def magnitude (f : FloatFormat) (b : Nat) : ℚ :=
  if b / 2 ^ f.fracBits = 0 then (b % 2 ^ f.fracBits : Nat) * 2 ^ (1 - (f.bias : ℤ) - f.fracBits)
  else (2 ^ f.fracBits + b % 2 ^ f.fracBits : Nat) * 2 ^ ((b / 2 ^ f.fracBits : Nat) - (f.bias : ℤ) - f.fracBits)

/-- The pattern of infinity without its sign bit. -/
def infinityMagnitude (f : FloatFormat) : Nat := f.emax * 2 ^ f.fracBits

/-- `b` is the round-to-nearest-even pattern of `v ≥ 0` (00_scope.md §5, "Round-to-nearest-even"): no pattern is
nearer, and where another is as near, `b` is the even one. -/
def NearestEven (f : FloatFormat) (v : ℚ) (b : Nat) : Prop :=
  b ≤ infinityMagnitude f ∧
    ∀ c ≤ infinityMagnitude f,
      |v - magnitude f b| ≤ |v - magnitude f c| ∧ (|v - magnitude f b| = |v - magnitude f c| → c ≠ b → b % 2 = 0)

/-- A pattern's bits below its sign. -/
def unsignedPattern (f : FloatFormat) (b : Nat) : Nat := b % 2 ^ (f.width - 1)

/-- PARSE of the literal `l` at ADDR is correctly rounded. "Cross-parser equivalence" of 46_api.md R113 is this of every
literal and does not hold in general (90_conflicts.md C3, C4), so nothing assumes it. -/
def ParsesCorrectlyRounded (f : FloatFormat) (m : ScanMode) (s : State) (l : Literal) : Prop :=
  ∃ t, exec (.parse f m) s = .next t ∧ t.status.cause = .ok ∧
    NearestEven f l.magnitude (unsignedPattern f (t.reg .bits).toNat)

/-! ### Words of the host's accesses -/

/-- The number of set bits among the nine lowest of n: the multiplications SCALE makes (41_pow5_rom.md R63). -/
def multiplications (n : Nat) : Nat := ((List.range 9).filter fun k => n.testBit k).length

end Sys2Proof.Machine
end

