-- ==== Sys2Proof/Certificates/Slice0/Obligations.lean ====
section
/-! DEFINITION. The statements for the provers. Each docstring names the rule it formalises. -/

open Sys2Proof Sys2Proof.Machine

/-! ### Encoding -/

/-- 30_encoding.md R53, R51 and 60_exceptions.md §5: words written out from the encoding decode to their commands, and
illegal ones are told apart. -/
def Obligations.WrittenOutWordsDecode : Prop :=
  decode 0x00000000 = .ok .nop ∧ decode 0x00000001 = .ok .mul64 ∧ decode 0x00000002 = .ok .mul128 ∧
  decode 0x00000403 = .ok (.pow5 .neg 0) ∧ decode 0x00008003 = .ok (.pow5 .pos 8) ∧
  decode 0x00000210 = .ok (.scan .nul) ∧ decode 0x00000011 = .ok .scale ∧
  decode 0x00000112 = .ok (.assemble .binary32) ∧ decode 0x00000213 = .ok (.parse .binary64 .nul) ∧
  decode 0x00000120 = .ok (.extract .binary32) ∧ decode 0x00000021 = .ok (.format .binary64) ∧
  decode 0x00000004 = .error .unusedOpcode ∧ decode 0x00009003 = .error .entryIndex ∧
  decode 0x00000101 = .error .unusedField ∧ decode 0x00000803 = .error .reservedBits ∧
  decode 0x0000000100000000 = .error .highBits

/-- 30_encoding.md R50, R51, R52: decoding a well-formed command's word gives the command back, and a word that decodes
to a command is that command's word, so no bit of a legal word is dropped. -/
def Obligations.DecodeAndEncodeAgree : Prop :=
  (∀ i : Instr, i.wf = true → decode (encode i) = .ok i) ∧
  (∀ (v : Word) (i : Instr), decode v = .ok i → i.wf = true ∧ encode i = v)

/-- 30_encoding.md R51: a CMD value is legal when its high half is zero, its low half matches a row of the match and
mask table, and for POW5 K ≤ 8; the command is the row's. -/
def Obligations.LegalWordsAreTheTableRows : Prop :=
  ∀ (v : Word) (name : String),
    (∃ i, decode v = .ok i ∧ mnemonicOf i = name) ↔
      v.extractLsb' 32 32 = 0 ∧ (∃ r ∈ opcodeTable, r.name = name ∧ r.hits (v.extractLsb' 0 32)) ∧
        (name = "POW5" → (v.extractLsb' 12 4).toNat ≤ 8)

/-- 30_encoding.md R52: every 64-bit CMD write decodes to one of the ten commands of the table, with field values in
range, or is illegal; no two rows match the same word. -/
def Obligations.NoTwoRowsMatchOneWord : Prop :=
  (∀ v : Word, (∃ i, decode v = .ok i ∧ i.wf = true ∧ ∃ r ∈ opcodeTable, r.name = mnemonicOf i) ∨
    ∃ e, decode v = .error e) ∧
  ∀ (w : BitVec 32) (r r' : TableRow), r ∈ opcodeTable → r' ∈ opcodeTable → r.hits w → r'.hits w → r = r'

/-! ### Steps, issue and the register window -/

/-- 70_reset_and_hazards.md R131 (2), (3): while BUSY = 1 and the host only waits, a step is the command in CMD; a word
given through `withFetchWord` is the command the very next step runs. -/
def Obligations.StepRunsTheIssuedCommand : Prop :=
  (∀ (s : State) (i : Instr), s.status.busy = true → (s.inbox = [] ∨ ∃ ops, s.inbox = .wait :: ops) →
    decode s.cmd = .ok i → step s = exec i s) ∧
  (∀ (s : State) (w : Nat) (i : Instr), w < 2 ^ 32 → decode (BitVec.ofNat 64 w) = .ok i →
    step (s.withFetchWord 32 w) = exec i (s.withFetchWord 32 w) ∧
    (s.withFetchWord 32 w).regs = s.regs ∧ (s.withFetchWord 32 w).flags = s.flags ∧
    (s.withFetchWord 32 w).mem = s.mem ∧ (s.withFetchWord 32 w).params = s.params)

/-- 70_reset_and_hazards.md R131 (1), 10_state.md R17: a CMD write of a legal word while idle issues it. -/
def Obligations.CmdWriteIssuesALegalWord : Prop :=
  ∀ (s : State) (v : Word) (i : Instr) (ops : List HostOp), s.status.busy = false → decode v = .ok i →
    s.inbox = .write 8 0x00 v :: ops →
    ∃ t, step s = .next t ∧ t.cmd = v ∧ t.status = ⟨true, false, .ok, false⟩ ∧ t.flags = s.flags ∧
      t.inbox = ops ∧ HostFrame s t

/-- 60_exceptions.md R118: a CMD write of a word that is not legal completes at once with ILLEGAL_COMMAND and changes
nothing but CMD and STATUS. -/
def Obligations.IllegalCmdWriteChangesOnlyStatus : Prop :=
  ∀ (s : State) (v : Word) (e : IllegalWord) (ops : List HostOp), s.status.busy = false → decode v = .error e →
    s.inbox = .write 8 0x00 v :: ops →
    ∃ t, step s = .next t ∧ t.cmd = v ∧ t.status = ⟨false, true, .illegalCommand, false⟩ ∧ t.flags = s.flags ∧
      t.inbox = ops ∧ HostFrame s t

/-- 70_reset_and_hazards.md R133: a host write to any register, CMD included, while BUSY = 1 sets OVR and changes
nothing else. -/
def Obligations.WriteWhileBusySetsOnlyOverrun : Prop :=
  ∀ (s : State) (r : Reg) (v : Word) (ops : List HostOp), s.status.busy = true →
    s.inbox = .write 8 r.offset v :: ops →
    step s = .next { s with inbox := ops, status := ⟨true, s.status.done, s.status.cause, true⟩ }

/-- 10_state.md R16, R13: an idle engine's data register takes what the host writes to its offset, and nothing else
changes; the offsets of the eighteen registers are those of R13's table. -/
def Obligations.HostWriteReachesItsDataRegister : Prop :=
  [Reg.cmd, .status, .flags, .data .aHi, .data .aLo, .data .bHi, .data .bLo, .data .pHi, .data .pLo, .data .mant,
    .data .exp10, .data .bexp, .data .bits, .data .addr, .data .endAddr, .data .pos, .data .count, .data .len].map
      Reg.offset =
    [0x00, 0x08, 0x10, 0x18, 0x20, 0x28, 0x30, 0x38, 0x40, 0x48, 0x50, 0x58, 0x60, 0x68, 0x70, 0x78, 0x80, 0x88] ∧
  ∀ (s : State) (r : DataReg) (v : Word) (ops : List HostOp), s.status.busy = false →
    s.inbox = .write 8 (Reg.data r).offset v :: ops →
    ∃ t, step s = .next t ∧ t.reg r = v ∧ (∀ r', r' ≠ r → t.reg r' = s.reg r') ∧ t.inbox = ops ∧
      t.cmd = s.cmd ∧ t.status = s.status ∧ t.flags = s.flags ∧ t.mem = s.mem ∧ t.params = s.params ∧
      t.hostReads = s.hostReads

/-- 10_state.md R19: a host write to FLAGS while idle reaches bits 0, 1, 2, 4 and 5 and no other, and a read gives them
back with every other bit 0. -/
def Obligations.FlagsWriteKeepsTheListedBits : Prop :=
  ∀ (s : State) (v : Word) (ops : List HostOp), s.status.busy = false → s.inbox = .write 8 0x10 v :: ops →
    ∃ t, step s = .next t ∧ t.readWindow 0x10 = v &&& 0x37 ∧ t.inbox = ops ∧ t.cmd = s.cmd ∧ t.status = s.status ∧
      HostFrame s t

/-- 10_state.md R15: a host read of a reserved offset, 0x90 to 0xF8, returns 0, and a host write to it is ignored. That a
write made while BUSY = 1 does not set OVR either is the model's inference (log 9). -/
def Obligations.ReservedOffsetsReadZeroAndIgnoreWrites : Prop :=
  ∀ (s : State) (offset : Nat) (v : Word) (ops : List HostOp), 0x90 ≤ offset → offset ≤ 0xF8 → offset % 8 = 0 →
    (s.inbox = .write 8 offset v :: ops → step s = .next { s with inbox := ops }) ∧
    (s.inbox = .read 8 offset :: ops → step s = .next { s with inbox := ops, hostReads := 0 :: s.hostReads })

/-- 70_reset_and_hazards.md R132, 10_state.md R17, R18, R19, R21: a host read of any register, also while BUSY = 1, returns
the register's value and changes nothing; where the fields of FLAGS stand in the word read, and that its other bits
read 0. (Those of STATUS: `StatusIsReadOnlyAndLaidOut`.) -/
def Obligations.HostReadReturnsTheRegister : Prop :=
  ∀ (s : State) (ops : List HostOp),
    (∀ r : DataReg, s.inbox = .read 8 (Reg.data r).offset :: ops →
      step s = .next { s with inbox := ops, hostReads := s.reg r :: s.hostReads }) ∧
    (s.inbox = .read 8 0x00 :: ops → step s = .next { s with inbox := ops, hostReads := s.cmd :: s.hostReads }) ∧
    (s.inbox = .read 8 0x08 :: ops →
      step s = .next { s with inbox := ops, hostReads := s.readWindow 0x08 :: s.hostReads }) ∧
    (s.inbox = .read 8 0x10 :: ops →
      step s = .next { s with inbox := ops, hostReads := s.readWindow 0x10 :: s.hostReads }) ∧
    (s.readWindow 0x10).getLsbD 0 = s.flags.n ∧ (s.readWindow 0x10).getLsbD 1 = s.flags.rb ∧
    (s.readWindow 0x10).getLsbD 2 = s.flags.sb ∧
    ((s.readWindow 0x10).extractLsb' 4 2).toNat =
      (match s.flags.cls with | .finite => 0 | .zero => 1 | .inf => 2 | .nan => 3) ∧
    s.readWindow 0x10 &&& ~~~0x37#64 = 0

/-- 10_state.md R18: an idle engine ignores a host write to STATUS; where the fields of STATUS stand in the word the host
reads, and that the other bits read 0. -/
def Obligations.StatusIsReadOnlyAndLaidOut : Prop :=
  (∀ (s : State) (v : Word) (ops : List HostOp), s.status.busy = false → s.inbox = .write 8 0x08 v :: ops →
    step s = .next { s with inbox := ops }) ∧
  ∀ s : State,
    (s.readWindow 0x08).getLsbD 0 = s.status.busy ∧ (s.readWindow 0x08).getLsbD 1 = s.status.done ∧
    ((s.readWindow 0x08).extractLsb' 4 4).toNat =
      (match s.status.cause with
        | .ok => 0 | .invalidArgument => 1 | .illegalCommand => 2 | .operandRange => 3 | .memoryFault => 4) ∧
    (s.readWindow 0x08).getLsbD 8 = s.status.ovr ∧ s.readWindow 0x08 &&& ~~~0x1F3#64 = 0

/-- 10_state.md R14: an access of another size, or at an offset that is not a multiple of 8, is refused. -/
def Obligations.MisshapenAccessIsRefused : Prop :=
  ∀ (s : State) (size offset : Nat) (v : Word) (ops : List HostOp), (size ≠ 8 ∨ offset % 8 ≠ 0) →
    (s.inbox = .write size offset v :: ops → step s = .refused (.registerAccess size offset)) ∧
    (s.inbox = .read size offset :: ops → step s = .refused (.registerAccess size offset))

/-- 30_encoding.md R53 `wait`, 70_reset_and_hazards.md R141: a waiting host whose command has completed reads STATUS; an
idle engine with nothing to come does nothing. -/
def Obligations.WaitEndsWithDoneAndIdleDoesNothing : Prop :=
  (∀ (s : State) (ops : List HostOp), s.status.busy = false → s.status.done = true → s.inbox = .wait :: ops →
    step s = .next { s with inbox := ops, hostReads := s.readWindow 0x08 :: s.hostReads }) ∧
  (∀ s : State, s.status.busy = false → s.inbox = [] → step s = .next s)

/-! ### Reset -/

/-- 70_reset_and_hazards.md R128: right after reset CMD, STATUS and FLAGS read 0, and so do the reserved offsets, in
`State.reset` and after a reset action. That a reset action leaves the parameters and the host's remaining actions as they
are is the model's inference (log 15). (The data registers' zero is the model's choice, log 1, and no part of this
statement.) -/
def Obligations.ResetClearsTheControlRegisters : Prop :=
  State.reset.readWindow 0x00 = 0 ∧ State.reset.readWindow 0x08 = 0 ∧ State.reset.readWindow 0x10 = 0 ∧
  (∀ n, 18 ≤ n → n < 32 → State.reset.readWindow (8 * n) = 0) ∧
  ∀ (s : State) (ops : List HostOp), s.inbox = .reset :: ops →
    ∃ t, step s = .next t ∧ t.readWindow 0x00 = 0 ∧ t.readWindow 0x08 = 0 ∧ t.readWindow 0x10 = 0 ∧
      (∀ n, 18 ≤ n → n < 32 → t.readWindow (8 * n) = 0) ∧ t.params = s.params ∧ t.inbox = ops

/-- 70_reset_and_hazards.md R128, R129: reset leaves memory alone, but that a FORMAT it abandons may have written bytes
of its text, each at its place. (How many is a free value, log 8.) -/
def Obligations.ResetKeepsMemoryButForAbandonedText : Prop :=
  ∀ (s : State) (ops : List HostOp), Memory.wf s.mem = true → s.inbox = .reset :: ops →
    ∃ t, step s = .next t ∧
      ∀ a, t.mem.read a = s.mem.read a ∨
        ∃ f, s.status.busy = true ∧ decode s.cmd = .ok (.format f) ∧ s.writesByte f a (t.mem.read a)

/-! ### Memory and its races -/

/-- 20_memory.md R40 (a), R36: a byte the host stored while the engine was idle is what the engine's read of it
returns, and the other bytes read as before. R40 (a) says so of a store that is visible at the port; that a store is
visible once its step is done is the model's choice (log 14). -/
def Obligations.IdleHostStoreIsSeenByTheEngine : Prop :=
  ∀ (s : State) (a : Nat) (b : Byte) (ops : List HostOp), Memory.wf s.mem = true → s.status.busy = false →
    s.raced = [] → portAccess s.params a = .ok () → s.inbox = .memWrite a b :: ops →
    ∃ t, step s = .next t ∧ t.portRead a = .ok b ∧ t.mem.read a = b ∧ (∀ a', a' ≠ a → t.mem.read a' = s.mem.read a') ∧
      t.regs = s.regs ∧ t.flags = s.flags ∧ t.status = s.status

/-- 20_memory.md R40 (b), (c), R36: while FORMAT is running, a host load of an output byte returns its old or its new
value, and of any other byte, one of the text past FORMAT's first fault too, the value in memory; while it is not, a host
load returns the value in memory. (The choice of
old or new is a free value, log 7.) -/
def Obligations.HostLoadWhileFormatRunsIsOldOrNew : Prop :=
  ∀ (s : State) (a : Nat) (ops : List HostOp), portAccess s.params a = .ok () → s.inbox = .memRead a :: ops →
    ∃ t b, step s = .next t ∧ t.hostReads = b.setWidth 64 :: s.hostReads ∧ t.mem = s.mem ∧ t.regs = s.regs ∧
      t.flags = s.flags ∧ t.status = s.status ∧ t.cmd = s.cmd ∧
      (∀ f, s.status.busy = true → decode s.cmd = .ok (.format f) →
        b = s.mem.read a ∨ s.writesByte f a b) ∧
      ((s.status.busy = false ∨ ∀ f, decode s.cmd ≠ .ok (.format f)) → b = s.mem.read a)

/-- 20_memory.md R40 (d), (e): a host store while a command runs lands in memory and marks its byte; the engine's read of
a marked byte is a free value, and a byte FORMAT writes over a marked byte is one of the two values, the host's in memory
or its own. (The free values: log 6, log 7.) -/
def Obligations.RacedBytesAreFree : Prop :=
  (∀ (s : State) (a : Nat) (b : Byte) (ops : List HostOp), Memory.wf s.mem = true → s.status.busy = true →
    portAccess s.params a = .ok () → s.inbox = .memWrite a b :: ops →
    ∃ t, step s = .next t ∧ Memory.wf t.mem = true ∧ t.mem.read a = b ∧
      (∀ a', a' ≠ a → t.mem.read a' = s.mem.read a') ∧
      t.portRead a = .ok (Config.racedByte s.draws) ∧ s.draws < t.draws ∧ t.regs = s.regs ∧
      t.status = s.status ∧ ∀ a', a' ≠ a → t.portRead a' = s.portRead a') ∧
  (∀ (s : State) (f : FloatFormat), Memory.wf s.mem = true →
    ∃ t, exec (.format f) s = .next t ∧
      ∀ a, t.mem.read a = s.mem.read a ∨ s.writesByte f a (t.mem.read a))

/-! ### Every command -/

/-- 60_exceptions.md R115, 70_reset_and_hazards.md R131: from every state every well-formed command completes, with
BUSY = 0, DONE = 1 and a code the table gives it. -/
def Obligations.EveryCommandCompletesWithItsCodes : Prop :=
  ∀ (i : Instr) (s : State), i.wf = true →
    ∃ t, exec i s = .next t ∧ t.status.busy = false ∧ t.status.done = true ∧ t.status.cause ∈ causesOf i ∧
      t.status.ovr = s.status.ovr

/-- 10_state.md R24, R20, R16, 60_exceptions.md R116: a command writes the data registers and the FLAGS fields its rule
names for its outcome, and no other. -/
def Obligations.CommandsWriteOnlyTheirRegisters : Prop :=
  ∀ (i : Instr) (s t : State), i.wf = true → exec i s = .next t →
    Completes t.status.cause (writesOf i t.status.cause) s t ∧
    (writesSign i t.status.cause = false → t.flags.n = s.flags.n) ∧
    (writesRounding i t.status.cause = false → t.flags.rb = s.flags.rb ∧ t.flags.sb = s.flags.sb) ∧
    (writesClass i t.status.cause = false → t.flags.cls = s.flags.cls)

/-- 60_exceptions.md R115, R116, R119: a command that ends with an error has written only the recorded value: POS ← ADDR
for INVALID_ARGUMENT, POS (and LEN for FORMAT) for MEMORY_FAULT, nothing for OPERAND_RANGE; FLAGS are as they were, and
so is memory unless the command is FORMAT. -/
def Obligations.ErrorsWriteOnlyTheRecordedValues : Prop :=
  ∀ (i : Instr) (s t : State), i.wf = true → exec i s = .next t → t.status.cause ≠ .ok →
    t.flags = s.flags ∧ (t.status.cause = .invalidArgument → t.reg .pos = s.reg .addr) ∧
    (t.status.cause = .operandRange → ∀ r, t.reg r = s.reg r) ∧
    (∀ r, r ≠ .pos → r ≠ .len → t.reg r = s.reg r) ∧ ((∀ f, i ≠ .format f) → t.reg .len = s.reg .len ∧ SameMemory s t)

/-- 20_memory.md R29, R30, R34: no command but FORMAT writes memory, and FORMAT writes no byte outside the first 24 of its
buffer. -/
def Obligations.OnlyFormatWritesMemory : Prop :=
  ∀ (i : Instr) (s t : State), i.wf = true → Memory.wf s.mem = true → exec i s = .next t →
    ((∀ f, i ≠ .format f) → SameMemory s t) ∧
    (∀ f, i = .format f → ∀ a, (a < s.outputBase ∨ s.outputBase + 24 ≤ a) → t.mem.read a = s.mem.read a)

/-- 10_state.md R27, R24, 46_api.md R112: a command's outcome and the values it writes, also those it records on an error
and FORMAT's bytes, are a function of the registers it reads, the bytes of its text and the parameters: what other
registers, FLAGS, CMD, STATUS or the rest of memory hold does not reach them. (A byte the host raced for is the draw's,
log 6, log 7.) -/
def Obligations.ResultsDependOnlyOnWhatIsRead : Prop :=
  ∀ (i : Instr) (s s' : State), i.wf = true → AgreeFor i s s' →
    ∃ t t', exec i s = .next t ∧ exec i s' = .next t' ∧ t'.status.cause = t.status.cause ∧
      (∀ r ∈ writesOf i t.status.cause, t'.reg r = t.reg r) ∧
      (writesSign i t.status.cause = true → t'.flags.n = t.flags.n) ∧
      (writesRounding i t.status.cause = true → t'.flags.rb = t.flags.rb ∧ t'.flags.sb = t.flags.sb) ∧
      (writesClass i t.status.cause = true → t'.flags.cls = t.flags.cls) ∧
      (∀ f, i = .format f → Memory.wf s.mem = true → Memory.wf s'.mem = true → s.raced = [] → s'.raced = [] →
        ∀ a, s.outputBase ≤ a → a < s.outputBase + t.unsigned .len → t'.mem.read a = t.mem.read a)

/-- The invariant holds right after reset. -/
def Obligations.ResetMeetsTheInvariant : Prop := State.reset.Inv

/-- 10_state.md R18, 20_memory.md R29, R40, 60_exceptions.md R118: every step keeps the invariant: the memory's canonical
form and address space, the legal combinations of BUSY, DONE, CAUSE and OVR, a legal command whenever BUSY, races only
while BUSY. The canonical form and the bookkeeping of races are the model's own (log 2, log 6); that BUSY never stands
with an illegal command rests on the model's inference that such a word completes in the step that issues it (log 20). -/
def Obligations.StepKeepsTheInvariant : Prop :=
  ∀ s t : State, s.Inv → step s = .next t → t.Inv

/-- 41_pow5_rom.md R64: no step changes the parameters, so the ROM a step reads is the ROM of reset onward. That the
parameters are carried by the state, ADDR_W and MEM_OK fixed with POW5_ROUNDING, and that the ROM is a constant and no
field are the model's choices (log 3, log 17). -/
def Obligations.StepKeepsTheParametersAndTheRom : Prop :=
  ∀ s t : State, step s = .next t →
    t.params = s.params ∧ ∀ tbl k, pow5 t.params.rounding tbl k = pow5 s.params.rounding tbl k

/-! ### NOP, MUL64, MUL128, POW5 -/

/-- 46_api.md R111: a write of 0 to CMD is NOP, and NOP writes no register other than STATUS, no flag and no memory. -/
def Obligations.NopChangesOnlyStatus : Prop :=
  decode 0 = .ok .nop ∧
  ∀ s : State, ∃ t, exec .nop s = .next t ∧ Completes .ok [] s t ∧ t.flags = s.flags ∧ SameMemory s t

/-- 40_wide_arith.md R55: MUL64, word 0x00000001, puts the exact product of A_LO and B_LO into P and writes no flag. -/
def Obligations.Mul64IsTheExactProduct : Prop :=
  decode 0x00000001 = .ok .mul64 ∧
  ∀ s : State, ∃ t, exec .mul64 s = .next t ∧ Completes .ok [.pHi, .pLo] s t ∧ t.flags = s.flags ∧ SameMemory s t ∧
    (t.reg .pHi).toNat * 2 ^ 64 + (t.reg .pLo).toNat = (s.reg .aLo).toNat * (s.reg .bLo).toNat

/-- 40_wide_arith.md R56: MUL128, word 0x00000002, keeps bits [255:128] of A × B, RB is bit 127 and SB whether bits [126:0] hold a one; N and
CLASS are unchanged. -/
def Obligations.Mul128KeepsTheHighHalf : Prop :=
  decode 0x00000002 = .ok .mul128 ∧
  ∀ s : State, ∃ t, exec .mul128 s = .next t ∧ Completes .ok [.pHi, .pLo] s t ∧ SameMemory s t ∧
    (let p := ((s.reg .aHi).toNat * 2 ^ 64 + (s.reg .aLo).toNat) * ((s.reg .bHi).toNat * 2 ^ 64 + (s.reg .bLo).toNat)
     (t.reg .pHi).toNat * 2 ^ 64 + (t.reg .pLo).toNat = p / 2 ^ 128 ∧
     t.flags = { s.flags with rb := p / 2 ^ 127 % 2 = 1, sb := p % 2 ^ 127 ≠ 0 })

/-- 40_wide_arith.md R57: MUL128's result is exact, RB = SB = 0, if and only if A·B mod 2^128 = 0, and swapping the operands
changes neither P nor FLAGS. -/
def Obligations.Mul128IsExactIffNoLowBits : Prop :=
  ∀ s : State, ∃ t, exec .mul128 s = .next t ∧
    ((t.flags.rb = false ∧ t.flags.sb = false) ↔ s.wide .aHi .aLo * s.wide .bHi .bLo % 2 ^ 128 = 0) ∧
    ∀ s' t', s'.reg .aHi = s.reg .bHi → s'.reg .aLo = s.reg .bLo → s'.reg .bHi = s.reg .aHi → s'.reg .bLo = s.reg .aLo →
      s'.flags = s.flags → exec .mul128 s' = .next t' →
      t'.reg .pHi = t.reg .pHi ∧ t'.reg .pLo = t.reg .pLo ∧ t'.flags = t.flags

/-- 41_pow5_rom.md R65: POW5, word 0x3 with K in bits 15:12 and T in bit 10, puts an entry's significand into B and its
exponent into BEXP, where sext_64 reads it back; no flag. -/
def Obligations.Pow5ReadsOneRomEntry : Prop :=
  ∀ (tbl : Pow5Table) (k : Nat) (s : State), k ≤ 8 →
    decode (BitVec.ofNat 64 (0x3 + k * 2 ^ 12 + (match tbl with | .pos => 0 | .neg => 2 ^ 10))) = .ok (.pow5 tbl k) ∧
    ∃ t, exec (.pow5 tbl k) s = .next t ∧ Completes .ok [.bHi, .bLo, .bexp] s t ∧ t.flags = s.flags ∧ SameMemory s t ∧
      (t.reg .bHi).toNat * 2 ^ 64 + (t.reg .bLo).toNat = (pow5 s.params.rounding tbl k).sig ∧
      (t.reg .bexp).toInt = (pow5 s.params.rounding tbl k).exp

/-- 41_pow5_rom.md R60, R61: 5^(±2^k) × 2^−exp lies in [2^127, 2^128), and each entry's significand is that value rounded
down (TRUNC, the default) or to nearest (NEAREST), with its top bit set; no tie arises. (`num / den` is the value.) -/
def Obligations.RomEntriesAreRoundedPowersOfFive : Prop :=
  Params.default.rounding = .trunc ∧
  ∀ k < 9, ∀ r : Pow5Rounding, ∀ tbl : Pow5Table,
    let e := pow5 r tbl k
    let up := 2 ^ (-e.exp).toNat
    let down := 2 ^ e.exp.toNat
    let num := match tbl with | .pos => 5 ^ 2 ^ k * up | .neg => up
    let den := match tbl with | .pos => down | .neg => 5 ^ 2 ^ k * down
    2 ^ 127 * den ≤ num ∧ num < 2 ^ 128 * den ∧ 2 ^ 127 ≤ e.sig ∧ e.sig < 2 ^ 128 ∧ 2 * num % (2 * den) ≠ den ∧
      e.sig = match r with | .trunc => num / den | .nearest => (2 * num + den) / (2 * den)

/-! ### SCAN -/

/-- 42_scanner.md R70, R68, R69, R71, R72: where the text at ADDR begins with a literal of the grammar that what follows
ends, SCAN succeeds: MANT is its first 17 significant digits, EXP10 its clamped exponent, N its sign and POS just past
it. -/
def Obligations.ScanReadsALiteral : Prop :=
  ∀ (s : State) (m : ScanMode) (l : Literal), s.params.wf = true → l.wf = true → TextIs s m l →
    ∃ t, exec (.scan m) s = .next t ∧ Completes .ok [.mant, .exp10, .pos] s t ∧ SameMemory s t ∧
      (t.reg .mant).toNat = l.mant ∧ (t.reg .exp10).toInt = l.exp10 ∧ t.flags = { s.flags with n := l.neg } ∧
      t.reg .pos = s.reg .addr + BitVec.ofNat 64 l.text.length

/-- 42_scanner.md R68: "The scanner accepts exactly the literals of this grammar": a SCAN or a PARSE that completes with
CAUSE = OK has read a literal of the grammar that what follows ends. -/
def Obligations.ScanAcceptsOnlyLiterals : Prop :=
  ∀ (s t : State) (m : ScanMode), exec (.scan m) s = .next t ∨ (∃ f, exec (.parse f m) s = .next t) →
    t.status.cause = .ok → ∃ l : Literal, l.wf = true ∧ TextIs s m l

/-- 42_scanner.md R73: on success MANT < 10^17 and EXP10 ∈ [−400, 400]. -/
def Obligations.ScanResultsAreInRange : Prop :=
  ∀ (s t : State) (m : ScanMode), exec (.scan m) s = .next t → t.status.cause = .ok →
    (t.reg .mant).toNat < 10 ^ 17 ∧ -400 ≤ (t.reg .exp10).toInt ∧ (t.reg .exp10).toInt ≤ 400

/-- 42_scanner.md R73: when no digit was dropped and the clamp did not act, MANT × 10^EXP10 is exactly the literal's
value. -/
def Obligations.ScanIsExactOnShortLiterals : Prop :=
  ∀ (s : State) (m : ScanMode) (l : Literal), s.params.wf = true → l.wf = true → TextIs s m l →
    l.significant.length ≤ 17 → |l.expValue - l.fracDigits.length| ≤ 400 →
    ∃ t, exec (.scan m) s = .next t ∧ t.status.cause = .ok ∧
      ((t.reg .mant).toNat : ℚ) * 10 ^ (t.reg .exp10).toInt = l.magnitude

/-- 42_scanner.md R74, 46_api.md R110: where END lies at or past ADDR and the byte at END is readable and outside the
grammar's classes, the two modes give the same outcome, for SCAN and for PARSE. -/
def Obligations.BoundedAndNulModesAgree : Prop :=
  ∀ (s : State) (c : Byte), s.unsigned .addr ≤ s.unsigned .endAddr → s.portRead (s.unsigned .endAddr) = .ok c →
    isDigit (some c) = false → c ≠ chMinus → c ≠ chPlus → c ≠ chDot → c ≠ chLowerE → c ≠ chUpperE →
    exec (.scan .nul) s = exec (.scan .bounded) s ∧ ∀ f, exec (.parse f .nul) s = exec (.parse f .bounded) s

/-- 20_memory.md R33: a SCAN or PARSE that succeeds has read no byte outside [ADDR, POS], and in bounded mode none at or
past END: with those bytes as they are, whatever else memory holds, its result is the same. -/
def Obligations.ScanReadsNoByteOutsideItsText : Prop :=
  ∀ (s t : State) (i : Instr) (m : ScanMode) (mem' : Memory), (i = .scan m ∨ ∃ f, i = .parse f m) →
    s.params.wf = true → exec i s = .next t → t.status.cause = .ok →
    (∀ a, s.unsigned .addr ≤ a → a ≤ t.unsigned .pos → (m = .bounded → a < s.unsigned .endAddr) →
      mem'.read a = s.mem.read a) →
    exec i { s with mem := mem' } = .next { t with mem := mem' }

/-- 60_exceptions.md R117, R119, R121, 20_memory.md R35: a MEMORY_FAULT of SCAN or PARSE is that of one byte of the text,
every earlier byte of which the memory completed and is of the grammar's classes, and POS holds the fault address; a first
byte that faults gives it; and SCAN and PARSE end with INVALID_ARGUMENT and POS = ADDR exactly where the text violates the
grammar, whatever the memory does past the byte that is the violation. -/
def Obligations.TextFaultIsTheFirstUnreadableByte : Prop :=
  (∀ (s t : State) (i : Instr) (m : ScanMode), (i = .scan m ∨ ∃ f, i = .parse f m) → exec i s = .next t →
    t.status.cause = .memoryFault →
    ∃ j a, portAccess s.params (s.unsigned .addr + j) = .error (.memoryFault a) ∧ t.reg .pos = BitVec.ofNat 64 a ∧
      s.inText m (s.unsigned .addr + j)) ∧
  (∀ (s : State) (i : Instr) (m : ScanMode) (a : Nat), (i = .scan m ∨ ∃ f, i = .parse f m) →
    (m = .bounded → 0 < s.boundedLength) → portAccess s.params (s.unsigned .addr) = .error (.memoryFault a) →
    ∃ t, exec i s = .next t ∧ Completes .memoryFault [.pos] s t ∧ t.reg .pos = BitVec.ofNat 64 a ∧ t.flags = s.flags) ∧
  (∀ (s : State) (i : Instr) (m : ScanMode), (i = .scan m ∨ ∃ f, i = .parse f m) →
    (s.GrammarError m ↔ ∃ t, exec i s = .next t ∧ Completes .invalidArgument [.pos] s t ∧ t.reg .pos = s.reg .addr ∧
      t.flags = s.flags ∧ SameMemory s t))

/-! ### SCALE -/

/-- 43_scaler.md R80, R75: for m ≠ 0 and |q| ≤ 511 under TRUNC, SCALE's P has its top bit set, and P × 2^BEXP lies below
m × 10^q by less than 3 × 2^−127 of it for each multiplication, and is equal to it where there is none; the frame. -/
def Obligations.ScaleApproximatesFromBelow : Prop :=
  ∀ s : State, s.reg .mant ≠ 0 → (s.signed .exp10).natAbs ≤ 511 → s.params.rounding = .trunc →
    ∃ t, exec .scale s = .next t ∧ Completes .ok [.pHi, .pLo, .bexp] s t ∧ SameMemory s t ∧
      t.flags.n = s.flags.n ∧ t.flags.cls = s.flags.cls ∧ 2 ^ 127 ≤ t.wide .pHi .pLo ∧
      (let exact : ℚ := (s.unsigned .mant : ℚ) * 10 ^ s.signed .exp10
       let got : ℚ := (t.wide .pHi .pLo : ℚ) * 2 ^ t.signed .bexp
       let j : ℕ := multiplications (s.signed .exp10).natAbs
       got ≤ exact ∧ exact * (1 - 3 * j / 2 ^ 127) ≤ got ∧ (1 ≤ j → exact * (1 - 3 * j / 2 ^ 127) < got))

/-- 43_scaler.md R82: for m ≠ 0 and |q| ≤ 511, BEXP lies in [−1826, 1635], whichever way the ROM is rounded. -/
def Obligations.ScaleExponentIsBounded : Prop :=
  ∀ s : State, s.reg .mant ≠ 0 → (s.signed .exp10).natAbs ≤ 511 →
    ∃ t, exec .scale s = .next t ∧ t.status.cause = .ok ∧ 2 ^ 127 ≤ t.wide .pHi .pLo ∧
      -1826 ≤ t.signed .bexp ∧ t.signed .bexp ≤ 1635

/-- 43_scaler.md R75 to R77, R81: q = 0 does no multiplication, so the result is exact with RB = SB = 0, for any 64-bit m;
for 0 ≤ q ≤ 63, where every entry used is exact, RB = SB = 0 if and only if the result is m × 10^q exactly; and for every q
in range the highest set bit k of |q| is one MUL128 of what the lower bits gave with entry k: RB the new round bit, SB the
old round, the old sticky and the new sticky together, then one shift where bit 127 is 0. -/
def Obligations.ScaleByOneIsExact : Prop :=
  (∀ s : State, s.reg .mant ≠ 0 → 0 ≤ s.signed .exp10 → s.signed .exp10 ≤ 63 →
    ∃ t, exec .scale s = .next t ∧ t.status.cause = .ok ∧ 2 ^ 127 ≤ t.wide .pHi .pLo ∧
      ((t.flags.rb = false ∧ t.flags.sb = false) ↔
        (t.wide .pHi .pLo : ℚ) * 2 ^ t.signed .bexp = (s.unsigned .mant : ℚ) * 10 ^ s.signed .exp10) ∧
      (s.signed .exp10 = 0 → t.flags.rb = false ∧ t.flags.sb = false)) ∧
  (∀ (s' s : State) (k n : Nat) (tbl : Pow5Table), k ≤ 8 → n < 2 ^ k → s.reg .mant ≠ 0 → s'.reg .mant = s.reg .mant →
    s'.params = s.params →
    (match tbl with
      | .pos => s'.signed .exp10 = n ∧ s.signed .exp10 = n + 2 ^ k
      | .neg => s'.signed .exp10 = -n ∧ s.signed .exp10 = -(n + 2 ^ k)) →
    ∃ t' t, exec .scale s' = .next t' ∧ exec .scale s = .next t ∧
      (let e := pow5 s.params.rounding tbl k
       let p := t'.wide .pHi .pLo * e.sig
       let top : Bool := 2 ^ 255 ≤ p
       t.flags.rb = decide (p / 2 ^ 127 % 2 = 1) ∧
       t.flags.sb = (t'.flags.rb || t'.flags.sb || decide (p % 2 ^ 127 ≠ 0)) ∧
       t.wide .pHi .pLo = (if top then p / 2 ^ 128 else p / 2 ^ 128 * 2) ∧
       t.signed .bexp = t'.signed .bexp + e.exp + 128 - (if top then 0 else 1) +
         (s.signed .exp10 - s'.signed .exp10)))

/-- 43_scaler.md R78: m = 0 gives P = 0, BEXP = 0, RB = 0 and SB = 0, whatever q is in range, which ASSEMBLE makes a zero
of sign N. -/
def Obligations.ScaleOfZeroIsZero : Prop :=
  ∀ s : State, s.reg .mant = 0 → (s.signed .exp10).natAbs ≤ 511 →
    ∃ t, exec .scale s = .next t ∧ Completes .ok [.pHi, .pLo, .bexp] s t ∧ SameMemory s t ∧ t.reg .pHi = 0 ∧
      t.reg .pLo = 0 ∧ t.reg .bexp = 0 ∧ t.flags = { s.flags with rb := false, sb := false } ∧
      ∀ f, ∃ u, exec (.assemble f) t = .next u ∧ (u.reg .bits).toNat = s.flags.n.toNat * 2 ^ (f.width - 1)

/-- 43_scaler.md R79: SCALE accepts |q| ≤ 511; beyond it the command ends with OPERAND_RANGE and writes nothing but
STATUS. PARSE never ends so. -/
def Obligations.ScaleAcceptsExponentsUpTo511 : Prop :=
  (∀ s : State, ∃ t, exec .scale s = .next t ∧
    ((s.signed .exp10).natAbs ≤ 511 → Completes .ok [.pHi, .pLo, .bexp] s t) ∧
    (511 < (s.signed .exp10).natAbs → Completes .operandRange [] s t ∧ t.flags = s.flags ∧ SameMemory s t)) ∧
  ∀ (f : FloatFormat) (m : ScanMode) (s t : State), exec (.parse f m) s = .next t → t.status.cause ≠ .operandRange

/-! ### ASSEMBLE -/

/-- 44_assembler.md R83, R91, 10_state.md R22: ASSEMBLE writes a pattern of its width to BITS, zero-extended, whose sign
bit is N and which is never a NaN; it writes no flag and ends with CAUSE = OK for every operand. -/
def Obligations.AssembleIsTotalAndGivesNoNan : Prop :=
  ∀ (f : FloatFormat) (s : State), ∃ t, exec (.assemble f) s = .next t ∧ Completes .ok [.bits] s t ∧
    t.flags = s.flags ∧ SameMemory s t ∧ (t.reg .bits).toNat < 2 ^ f.width ∧
    (t.reg .bits).getLsbD (f.width - 1) = s.flags.n ∧
    unsignedPattern f (t.reg .bits).toNat ≤ infinityMagnitude f

/-- 44_assembler.md R84, R85, R86, R88: a zero significand gives a signed zero; of any other, normalized or not, a biased
exponent E of the leading bit at or above Emax gives the infinity of sign N, one below 1 − p the signed zero. The leading
bit is bit log2(sig), so E = BEXP + log2(sig) + bias, which is R84's BEXP − clz_128(sig) + 127 + bias. -/
def Obligations.AssembleZeroOverflowUnderflow : Prop :=
  ∀ (f : FloatFormat) (s : State), ∃ t, exec (.assemble f) s = .next t ∧
    (t.reg .bits).toNat / 2 ^ (f.width - 1) = s.flags.n.toNat ∧
    (s.wide .pHi .pLo = 0 → unsignedPattern f (t.reg .bits).toNat = 0) ∧
    (s.wide .pHi .pLo ≠ 0 → (f.emax : Int) ≤ s.signed .bexp + (s.wide .pHi .pLo).log2 + f.bias →
      unsignedPattern f (t.reg .bits).toNat = infinityMagnitude f) ∧
    (s.wide .pHi .pLo ≠ 0 → s.signed .bexp + (s.wide .pHi .pLo).log2 + f.bias < 1 - (f.precision : Int) →
      unsignedPattern f (t.reg .bits).toNat = 0)

/-- 44_assembler.md §2 (R93, with what R and S describe below bit 0 of the significand as ASSEMBLE normalizes it, R84):
BITS is the round-to-nearest-even pattern of (sig × 2^be + δ), where RB and SB are zero exactly when δ = 0, and
0 ≤ δ < 2^(be − clz_128(sig)). The shift clz_128(sig) is 127 − log2(sig), and 0 for a normalized significand, where this is
R93 as it stands. A zero significand has δ = 0 here. (R93's wider δ for an unnormalized one: the next statement; log 22.) -/
def Obligations.AssembleRoundsToNearestEven : Prop :=
  ∀ (f : FloatFormat) (s : State) (d : ℚ), (s.wide .pHi .pLo ≠ 0 ∨ (s.flags.rb = false ∧ s.flags.sb = false)) →
    0 ≤ d → d < 2 ^ (s.signed .bexp - 127 + (s.wide .pHi .pLo).log2) → ((s.flags.rb = false ∧ s.flags.sb = false) ↔ d = 0) →
    ∃ t, exec (.assemble f) s = .next t ∧
      NearestEven f ((s.wide .pHi .pLo : ℚ) * 2 ^ s.signed .bexp + d) (unsignedPattern f (t.reg .bits).toNat)

/-- 44_assembler.md R93 read for every significand, also one that is not normalized. EXPECTED TO FAIL: with sig = 1, RB or SB
set and be = 0 the value may be 1.75, which ASSEMBLE rounds as if it were just above 1. -/
def Obligations.AssembleRoundsToNearestEvenUnnormalized : Prop :=
  ∀ (f : FloatFormat) (s : State) (d : ℚ), 0 ≤ d → d < 2 ^ s.signed .bexp →
    ((s.flags.rb = false ∧ s.flags.sb = false) ↔ d = 0) →
    ∃ t, exec (.assemble f) s = .next t ∧
      NearestEven f ((s.wide .pHi .pLo : ℚ) * 2 ^ s.signed .bexp + d) (unsignedPattern f (t.reg .bits).toNat)

/-! ### PARSE -/

/-- 46_api.md R109: PARSE gives the BITS and POS of the sequence SCAN, SCALE, ASSEMBLE when SCAN succeeds (the other two
then complete with CAUSE = OK), which differs only in MANT, EXP10, P_HI, P_LO, BEXP and FLAGS.N, RB and SB, and the CAUSE and
POS of SCAN when SCAN fails. -/
def Obligations.ParseIsScanScaleAssemble : Prop :=
  ∀ (f : FloatFormat) (m : ScanMode) (s : State), ∃ t t1, exec (.parse f m) s = .next t ∧ exec (.scan m) s = .next t1 ∧
    t.status = t1.status ∧ t.reg .pos = t1.reg .pos ∧
    (t1.status.cause = .ok → ∃ t2 t3, exec .scale t1 = .next t2 ∧ t2.status.cause = .ok ∧
      exec (.assemble f) t2 = .next t3 ∧ t3.status = t.status ∧
      (∀ r, r ∉ [DataReg.mant, .exp10, .pHi, .pLo, .bexp] → t3.reg r = t.reg r) ∧ t3.flags.cls = t.flags.cls ∧
      SameMemory t t3)

/-- 46_api.md R107, R108: where the text at ADDR begins with a literal that what follows ends, PARSE completes, writes a
pattern with the literal's sign to BITS and the end of the literal to POS, and nothing else. -/
def Obligations.ParseOfALiteralCompletes : Prop :=
  ∀ (f : FloatFormat) (s : State) (m : ScanMode) (l : Literal), s.params.wf = true → l.wf = true → TextIs s m l →
    ∃ t, exec (.parse f m) s = .next t ∧ Completes .ok [.bits, .pos] s t ∧ t.flags = s.flags ∧ SameMemory s t ∧
      (t.reg .bits).toNat / 2 ^ (f.width - 1) = l.neg.toNat ∧
      (l.mant = 0 → unsignedPattern f (t.reg .bits).toNat = 0) ∧
      t.reg .pos = s.reg .addr + BitVec.ofNat 64 l.text.length

/-- 44_assembler.md §2, 43_scaler.md §1, 42_scanner.md §2: PARSE of an integer literal of at most 17 digits with no
fraction and no exponent is correctly rounded. (00_scope.md R12: this is not so of every literal.) -/
def Obligations.ParseRoundsShortIntegersCorrectly : Prop :=
  ∀ (f : FloatFormat) (s : State) (m : ScanMode) (l : Literal), s.params.wf = true → l.wf = true → TextIs s m l →
    l.frac = none → l.exp = none → l.int.length ≤ 17 →
    ∃ t, exec (.parse f m) s = .next t ∧ t.status.cause = .ok ∧
      NearestEven f (digitsNumber l.int) (unsignedPattern f (t.reg .bits).toNat)

/-! ### EXTRACT -/

/-- 45_extract_format.md R100, R94: EXTRACT completes with CAUSE = OK for every pattern; N is its sign bit, CLASS what its
fields say, RB and SB are unchanged; for a pattern that is not finite nonzero MANT, COUNT and EXP10 are 0. -/
def Obligations.ExtractClassifiesThePattern : Prop :=
  ∀ (f : FloatFormat) (s : State), ∃ t, exec (.extract f) s = .next t ∧ Completes .ok [.mant, .count, .exp10] s t ∧
    SameMemory s t ∧
    (let u := unsignedPattern f (s.reg .bits).toNat
     t.flags = { s.flags with
       n := (s.reg .bits).getLsbD (f.width - 1)
       cls := if u = 0 then .zero else if u < infinityMagnitude f then .finite
         else if u = infinityMagnitude f then .inf else .nan } ∧
     ((u = 0 ∨ infinityMagnitude f ≤ u) → t.reg .mant = 0 ∧ t.reg .count = 0 ∧ t.reg .exp10 = 0))

/-- 45_extract_format.md R96, R97, R98, R99: of a finite nonzero pattern, EXTRACT's digits are COUNT ≤ 17 digits with the first
and the last nonzero, and MANT × 10^(EXP10 + 1 − COUNT) is the value to 17 significant digits: within half a unit of the
17th digit, and 2^−60 of it for SCALE's error. -/
def Obligations.ExtractedDigitsAreTheValueToSeventeenDigits : Prop :=
  ∀ (f : FloatFormat) (s : State),
    let u := unsignedPattern f (s.reg .bits).toNat
    0 < u → u < infinityMagnitude f →
    ∃ t, exec (.extract f) s = .next t ∧ t.status.cause = .ok ∧
      1 ≤ t.unsigned .count ∧ t.unsigned .count ≤ 17 ∧
      10 ^ (t.unsigned .count - 1) ≤ t.unsigned .mant ∧ t.unsigned .mant < 10 ^ t.unsigned .count ∧
      t.unsigned .mant % 10 ≠ 0 ∧
      |(t.unsigned .mant : ℚ) * 10 ^ (t.signed .exp10 + 1 - t.unsigned .count) - magnitude f u| ≤
        (1 / 2 + 1 / 2 ^ 60) * 10 ^ (t.signed .exp10 - 16)

/-! ### FORMAT -/

/-- 45_extract_format.md R105, R106, 20_memory.md R34: where the memory completes an access to each byte of the text, FORMAT
writes the text from ADDR on, one byte each, no byte outside it, LEN ← its length and POS ← ADDR + LEN, and no flag. That
POS is this sum mod 2^64 where the text ends at the top of the address space, and that all 64 bits of ADDR are used, is the
model's inference (log 11). (A byte the host raced for may keep the host's value, 20_memory.md R40 e, log 7.) -/
def Obligations.FormatWritesItsText : Prop :=
  ∀ (f : FloatFormat) (s : State), Memory.wf s.mem = true →
    (∀ j < (s.outputText f).length, portAccess s.params (s.outputBase + j) = .ok ()) →
    ∃ t, exec (.format f) s = .next t ∧ Completes .ok [.len, .pos] s t ∧ t.flags = s.flags ∧
      t.reg .len = BitVec.ofNat 64 (s.outputText f).length ∧ t.reg .pos = s.reg .addr + t.reg .len ∧
      (∀ j, (h : j < (s.outputText f).length) → raceAt s.raced (s.outputBase + j) = none →
        t.mem.read (s.outputBase + j) = (s.outputText f)[j]) ∧
      (∀ a, (a < s.outputBase ∨ s.outputBase + (s.outputText f).length ≤ a) → t.mem.read a = s.mem.read a)

/-- 60_exceptions.md R119, 45_extract_format.md R105: where the write of byte j is the first the memory does not complete,
FORMAT ends with MEMORY_FAULT: bytes 0 to j − 1 stay written, LEN ← j, POS ← the fault address, and nothing else is
written. -/
def Obligations.FormatFaultKeepsTheBytesBeforeIt : Prop :=
  ∀ (f : FloatFormat) (s : State) (j a : Nat), Memory.wf s.mem = true → j < (s.outputText f).length →
    (∀ i < j, portAccess s.params (s.outputBase + i) = .ok ()) →
    portAccess s.params (s.outputBase + j) = .error (.memoryFault a) →
    ∃ t, exec (.format f) s = .next t ∧ Completes .memoryFault [.len, .pos] s t ∧ t.flags = s.flags ∧
      t.reg .len = BitVec.ofNat 64 j ∧ t.reg .pos = BitVec.ofNat 64 a ∧
      (∀ i, (h : i < j) → raceAt s.raced (s.outputBase + i) = none →
        (s.outputText f)[i]? = some (t.mem.read (s.outputBase + i))) ∧
      (∀ b, (b < s.outputBase ∨ s.outputBase + j ≤ b) → t.mem.read b = s.mem.read b)

/-- 45_extract_format.md R103: the text of every pattern has at least 1 and at most 24 bytes. -/
def Obligations.FormatTextIsAtMost24Bytes : Prop :=
  ∀ (r : Pow5Rounding) (f : FloatFormat) (b : Nat), 1 ≤ (formatText r f b).length ∧ (formatText r f b).length ≤ 24

/-- 45_extract_format.md R102: NaN and infinity of either sign are written as "null", +0 as "0" and −0 as "-0"; a finite
nonzero pattern is written with the sign and the COUNT digits of EXTRACT's MANT, in fixed form when −4 ≤ X < COUNT and in
exponential form otherwise, X being EXTRACT's EXP10. -/
def Obligations.FormatOfSpecialValues : Prop :=
  ∀ (f : FloatFormat) (s : State),
    let u := unsignedPattern f (s.reg .bits).toNat
    (infinityMagnitude f ≤ u → s.outputText f = [0x6E, 0x75, 0x6C, 0x6C]) ∧
    (u = 0 → s.outputText f = if (s.reg .bits).getLsbD (f.width - 1) then [0x2D, 0x30] else [0x30]) ∧
    (0 < u → u < infinityMagnitude f → ∃ t, exec (.extract f) s = .next t ∧
      (digitsOf (t.unsigned .mant)).length = t.unsigned .count ∧
      s.outputText f = numberText t.flags.n (digitsOf (t.unsigned .mant)) (t.signed .exp10) ∧
      (-4 ≤ t.signed .exp10 ∧ t.signed .exp10 < t.unsigned .count ↔
        chLowerE ∉ s.outputText f ∧ chUpperE ∉ s.outputText f))

/-- 45_extract_format.md R102, R105 with 42_scanner.md R70, and the round trip and the idempotence of 46_api.md R113 for
binary32 and binary64: the text FORMAT writes of a finite pattern is a literal. SCAN reads that of a nonzero pattern back
to the digits EXTRACT gives: the same MANT and sign, EXP10 the exponent of the last digit, and POS the end of the text.
PARSE of the text gives the pattern back, zeros and subnormals included, with POS = ADDR + LEN, and FORMAT of what PARSE
gave has the same text. -/
def Obligations.FormattedTextScansBackToItsDigits : Prop :=
  ∀ (f : FloatFormat) (s : State), Memory.wf s.mem = true → s.raced = [] → s.params.wf = true →
    unsignedPattern f (s.reg .bits).toNat < infinityMagnitude f →
    (∀ j ≤ 24, portAccess s.params (s.outputBase + j) = .ok ()) →
    ∃ t, exec (.format f) s = .next t ∧
      (0 < unsignedPattern f (s.reg .bits).toNat → ∃ u v, exec (.extract f) s = .next u ∧
        exec (.scan .bounded) (t.setReg .endAddr (t.reg .pos)) = .next v ∧ v.status.cause = .ok ∧
        v.reg .mant = u.reg .mant ∧ v.flags.n = u.flags.n ∧ v.reg .pos = t.reg .pos ∧
        v.signed .exp10 = u.signed .exp10 + 1 - u.unsigned .count) ∧
      RoundTrips f s ∧ FormatIsIdempotent f s
end

