-- ==== Sys2Proof/Laws/State.lean ====
section
/-! SUPPORT. What each update of the state does to each field, and what a data register reads after it: later proofs
unfold no record update. (The parentheses around `rfl` keep simp from closing a goal by a conversion in which the
kernel would compare the written values.) -/

namespace Sys2Proof.Machine

variable (s : State)

/-! ### `setReg` -/

@[simp] theorem State.cmd_setReg (r : DataReg) (v : Word) : (s.setReg r v).cmd = s.cmd := (rfl)
@[simp] theorem State.status_setReg (r : DataReg) (v : Word) : (s.setReg r v).status = s.status := (rfl)
@[simp] theorem State.flags_setReg (r : DataReg) (v : Word) : (s.setReg r v).flags = s.flags := (rfl)
@[simp] theorem State.regs_setReg (r : DataReg) (v : Word) : (s.setReg r v).regs = s.regs.set r v := (rfl)
@[simp] theorem State.mem_setReg (r : DataReg) (v : Word) : (s.setReg r v).mem = s.mem := (rfl)
@[simp] theorem State.params_setReg (r : DataReg) (v : Word) : (s.setReg r v).params = s.params := (rfl)
@[simp] theorem State.inbox_setReg (r : DataReg) (v : Word) : (s.setReg r v).inbox = s.inbox := (rfl)
@[simp] theorem State.hostReads_setReg (r : DataReg) (v : Word) : (s.setReg r v).hostReads = s.hostReads := (rfl)
@[simp] theorem State.raced_setReg (r : DataReg) (v : Word) : (s.setReg r v).raced = s.raced := (rfl)
@[simp] theorem State.draws_setReg (r : DataReg) (v : Word) : (s.setReg r v).draws = s.draws := (rfl)

/-! ### `setFlags` -/

@[simp] theorem State.cmd_setFlags (f : Flags) : (s.setFlags f).cmd = s.cmd := (rfl)
@[simp] theorem State.status_setFlags (f : Flags) : (s.setFlags f).status = s.status := (rfl)
@[simp] theorem State.flags_setFlags (f : Flags) : (s.setFlags f).flags = f := (rfl)
@[simp] theorem State.regs_setFlags (f : Flags) : (s.setFlags f).regs = s.regs := (rfl)
@[simp] theorem State.mem_setFlags (f : Flags) : (s.setFlags f).mem = s.mem := (rfl)
@[simp] theorem State.params_setFlags (f : Flags) : (s.setFlags f).params = s.params := (rfl)
@[simp] theorem State.inbox_setFlags (f : Flags) : (s.setFlags f).inbox = s.inbox := (rfl)
@[simp] theorem State.hostReads_setFlags (f : Flags) : (s.setFlags f).hostReads = s.hostReads := (rfl)
@[simp] theorem State.raced_setFlags (f : Flags) : (s.setFlags f).raced = s.raced := (rfl)
@[simp] theorem State.draws_setFlags (f : Flags) : (s.setFlags f).draws = s.draws := (rfl)

/-! ### `setStatus` -/

@[simp] theorem State.cmd_setStatus (t : Status) : (s.setStatus t).cmd = s.cmd := (rfl)
@[simp] theorem State.status_setStatus (t : Status) : (s.setStatus t).status = t := (rfl)
@[simp] theorem State.flags_setStatus (t : Status) : (s.setStatus t).flags = s.flags := (rfl)
@[simp] theorem State.regs_setStatus (t : Status) : (s.setStatus t).regs = s.regs := (rfl)
@[simp] theorem State.mem_setStatus (t : Status) : (s.setStatus t).mem = s.mem := (rfl)
@[simp] theorem State.params_setStatus (t : Status) : (s.setStatus t).params = s.params := (rfl)
@[simp] theorem State.inbox_setStatus (t : Status) : (s.setStatus t).inbox = s.inbox := (rfl)
@[simp] theorem State.hostReads_setStatus (t : Status) : (s.setStatus t).hostReads = s.hostReads := (rfl)
@[simp] theorem State.raced_setStatus (t : Status) : (s.setStatus t).raced = s.raced := (rfl)
@[simp] theorem State.draws_setStatus (t : Status) : (s.setStatus t).draws = s.draws := (rfl)

/-! ### `setMem` -/

@[simp] theorem State.cmd_setMem (m : Memory) : (s.setMem m).cmd = s.cmd := (rfl)
@[simp] theorem State.status_setMem (m : Memory) : (s.setMem m).status = s.status := (rfl)
@[simp] theorem State.flags_setMem (m : Memory) : (s.setMem m).flags = s.flags := (rfl)
@[simp] theorem State.regs_setMem (m : Memory) : (s.setMem m).regs = s.regs := (rfl)
@[simp] theorem State.mem_setMem (m : Memory) : (s.setMem m).mem = m := (rfl)
@[simp] theorem State.params_setMem (m : Memory) : (s.setMem m).params = s.params := (rfl)
@[simp] theorem State.inbox_setMem (m : Memory) : (s.setMem m).inbox = s.inbox := (rfl)
@[simp] theorem State.hostReads_setMem (m : Memory) : (s.setMem m).hostReads = s.hostReads := (rfl)
@[simp] theorem State.raced_setMem (m : Memory) : (s.setMem m).raced = s.raced := (rfl)
@[simp] theorem State.draws_setMem (m : Memory) : (s.setMem m).draws = s.draws := (rfl)

/-! ### `setWide` -/

@[simp] theorem State.cmd_setWide (hi lo : DataReg) (v : Nat) : (s.setWide hi lo v).cmd = s.cmd := (rfl)
@[simp] theorem State.status_setWide (hi lo : DataReg) (v : Nat) : (s.setWide hi lo v).status = s.status := (rfl)
@[simp] theorem State.flags_setWide (hi lo : DataReg) (v : Nat) : (s.setWide hi lo v).flags = s.flags := (rfl)
@[simp] theorem State.mem_setWide (hi lo : DataReg) (v : Nat) : (s.setWide hi lo v).mem = s.mem := (rfl)
@[simp] theorem State.params_setWide (hi lo : DataReg) (v : Nat) : (s.setWide hi lo v).params = s.params := (rfl)
@[simp] theorem State.inbox_setWide (hi lo : DataReg) (v : Nat) : (s.setWide hi lo v).inbox = s.inbox := (rfl)
@[simp] theorem State.hostReads_setWide (hi lo : DataReg) (v : Nat) : (s.setWide hi lo v).hostReads = s.hostReads := (rfl)
@[simp] theorem State.raced_setWide (hi lo : DataReg) (v : Nat) : (s.setWide hi lo v).raced = s.raced := (rfl)
@[simp] theorem State.draws_setWide (hi lo : DataReg) (v : Nat) : (s.setWide hi lo v).draws = s.draws := (rfl)

/-! ### `setPattern` -/

@[simp] theorem State.cmd_setPattern (b : Nat) : (s.setPattern b).cmd = s.cmd := (rfl)
@[simp] theorem State.status_setPattern (b : Nat) : (s.setPattern b).status = s.status := (rfl)
@[simp] theorem State.flags_setPattern (b : Nat) : (s.setPattern b).flags = s.flags := (rfl)
@[simp] theorem State.regs_setPattern (b : Nat) : (s.setPattern b).regs = s.regs.set .bits (BitVec.ofNat 64 b) := (rfl)
@[simp] theorem State.mem_setPattern (b : Nat) : (s.setPattern b).mem = s.mem := (rfl)
@[simp] theorem State.params_setPattern (b : Nat) : (s.setPattern b).params = s.params := (rfl)
@[simp] theorem State.inbox_setPattern (b : Nat) : (s.setPattern b).inbox = s.inbox := (rfl)
@[simp] theorem State.hostReads_setPattern (b : Nat) : (s.setPattern b).hostReads = s.hostReads := (rfl)
@[simp] theorem State.raced_setPattern (b : Nat) : (s.setPattern b).raced = s.raced := (rfl)
@[simp] theorem State.draws_setPattern (b : Nat) : (s.setPattern b).draws = s.draws := (rfl)

/-! ### `setRounding` -/

@[simp] theorem State.cmd_setRounding (rb sb : Bool) : (s.setRounding rb sb).cmd = s.cmd := (rfl)
@[simp] theorem State.status_setRounding (rb sb : Bool) : (s.setRounding rb sb).status = s.status := (rfl)
@[simp] theorem State.flags_setRounding (rb sb : Bool) : (s.setRounding rb sb).flags = { s.flags with rb := rb, sb := sb } := (rfl)
@[simp] theorem State.regs_setRounding (rb sb : Bool) : (s.setRounding rb sb).regs = s.regs := (rfl)
@[simp] theorem State.mem_setRounding (rb sb : Bool) : (s.setRounding rb sb).mem = s.mem := (rfl)
@[simp] theorem State.params_setRounding (rb sb : Bool) : (s.setRounding rb sb).params = s.params := (rfl)
@[simp] theorem State.inbox_setRounding (rb sb : Bool) : (s.setRounding rb sb).inbox = s.inbox := (rfl)
@[simp] theorem State.hostReads_setRounding (rb sb : Bool) : (s.setRounding rb sb).hostReads = s.hostReads := (rfl)
@[simp] theorem State.raced_setRounding (rb sb : Bool) : (s.setRounding rb sb).raced = s.raced := (rfl)
@[simp] theorem State.draws_setRounding (rb sb : Bool) : (s.setRounding rb sb).draws = s.draws := (rfl)

/-! ### `setSign` -/

@[simp] theorem State.cmd_setSign (n : Bool) : (s.setSign n).cmd = s.cmd := (rfl)
@[simp] theorem State.status_setSign (n : Bool) : (s.setSign n).status = s.status := (rfl)
@[simp] theorem State.flags_setSign (n : Bool) : (s.setSign n).flags = { s.flags with n := n } := (rfl)
@[simp] theorem State.regs_setSign (n : Bool) : (s.setSign n).regs = s.regs := (rfl)
@[simp] theorem State.mem_setSign (n : Bool) : (s.setSign n).mem = s.mem := (rfl)
@[simp] theorem State.params_setSign (n : Bool) : (s.setSign n).params = s.params := (rfl)
@[simp] theorem State.inbox_setSign (n : Bool) : (s.setSign n).inbox = s.inbox := (rfl)
@[simp] theorem State.hostReads_setSign (n : Bool) : (s.setSign n).hostReads = s.hostReads := (rfl)
@[simp] theorem State.raced_setSign (n : Bool) : (s.setSign n).raced = s.raced := (rfl)
@[simp] theorem State.draws_setSign (n : Bool) : (s.setSign n).draws = s.draws := (rfl)

/-! ### `setClass` -/

@[simp] theorem State.cmd_setClass (n : Bool) (c : FloatClass) : (s.setClass n c).cmd = s.cmd := (rfl)
@[simp] theorem State.status_setClass (n : Bool) (c : FloatClass) : (s.setClass n c).status = s.status := (rfl)
@[simp] theorem State.flags_setClass (n : Bool) (c : FloatClass) : (s.setClass n c).flags = { s.flags with n := n, cls := c } := (rfl)
@[simp] theorem State.regs_setClass (n : Bool) (c : FloatClass) : (s.setClass n c).regs = s.regs := (rfl)
@[simp] theorem State.mem_setClass (n : Bool) (c : FloatClass) : (s.setClass n c).mem = s.mem := (rfl)
@[simp] theorem State.params_setClass (n : Bool) (c : FloatClass) : (s.setClass n c).params = s.params := (rfl)
@[simp] theorem State.inbox_setClass (n : Bool) (c : FloatClass) : (s.setClass n c).inbox = s.inbox := (rfl)
@[simp] theorem State.hostReads_setClass (n : Bool) (c : FloatClass) : (s.setClass n c).hostReads = s.hostReads := (rfl)
@[simp] theorem State.raced_setClass (n : Bool) (c : FloatClass) : (s.setClass n c).raced = s.raced := (rfl)
@[simp] theorem State.draws_setClass (n : Bool) (c : FloatClass) : (s.setClass n c).draws = s.draws := (rfl)

/-! ### `complete` -/

@[simp] theorem State.cmd_complete (c : Cause) : (s.complete c).cmd = s.cmd := (rfl)
@[simp] theorem State.status_complete (c : Cause) : (s.complete c).status = { s.status with busy := false, done := true, cause := c } := (rfl)
@[simp] theorem State.flags_complete (c : Cause) : (s.complete c).flags = s.flags := (rfl)
@[simp] theorem State.regs_complete (c : Cause) : (s.complete c).regs = s.regs := (rfl)
@[simp] theorem State.mem_complete (c : Cause) : (s.complete c).mem = s.mem := (rfl)
@[simp] theorem State.params_complete (c : Cause) : (s.complete c).params = s.params := (rfl)
@[simp] theorem State.inbox_complete (c : Cause) : (s.complete c).inbox = s.inbox := (rfl)
@[simp] theorem State.hostReads_complete (c : Cause) : (s.complete c).hostReads = s.hostReads := (rfl)
@[simp] theorem State.raced_complete (c : Cause) : (s.complete c).raced = [] := (rfl)
@[simp] theorem State.draws_complete (c : Cause) : (s.complete c).draws = s.draws := (rfl)

/-! ### `returnToHost` -/

@[simp] theorem State.cmd_returnToHost (v : Word) : (s.returnToHost v).cmd = s.cmd := (rfl)
@[simp] theorem State.status_returnToHost (v : Word) : (s.returnToHost v).status = s.status := (rfl)
@[simp] theorem State.flags_returnToHost (v : Word) : (s.returnToHost v).flags = s.flags := (rfl)
@[simp] theorem State.regs_returnToHost (v : Word) : (s.returnToHost v).regs = s.regs := (rfl)
@[simp] theorem State.mem_returnToHost (v : Word) : (s.returnToHost v).mem = s.mem := (rfl)
@[simp] theorem State.params_returnToHost (v : Word) : (s.returnToHost v).params = s.params := (rfl)
@[simp] theorem State.inbox_returnToHost (v : Word) : (s.returnToHost v).inbox = s.inbox := (rfl)
@[simp] theorem State.hostReads_returnToHost (v : Word) : (s.returnToHost v).hostReads = v :: s.hostReads := (rfl)
@[simp] theorem State.raced_returnToHost (v : Word) : (s.returnToHost v).raced = s.raced := (rfl)
@[simp] theorem State.draws_returnToHost (v : Word) : (s.returnToHost v).draws = s.draws := (rfl)

/-! ### `overrun` -/

@[simp] theorem State.cmd_overrun : (s.overrun).cmd = s.cmd := (rfl)
@[simp] theorem State.status_overrun : (s.overrun).status = { s.status with ovr := true } := (rfl)
@[simp] theorem State.flags_overrun : (s.overrun).flags = s.flags := (rfl)
@[simp] theorem State.regs_overrun : (s.overrun).regs = s.regs := (rfl)
@[simp] theorem State.mem_overrun : (s.overrun).mem = s.mem := (rfl)
@[simp] theorem State.params_overrun : (s.overrun).params = s.params := (rfl)
@[simp] theorem State.inbox_overrun : (s.overrun).inbox = s.inbox := (rfl)
@[simp] theorem State.hostReads_overrun : (s.overrun).hostReads = s.hostReads := (rfl)
@[simp] theorem State.raced_overrun : (s.overrun).raced = s.raced := (rfl)
@[simp] theorem State.draws_overrun : (s.overrun).draws = s.draws := (rfl)

/-! ### `drawn` -/

@[simp] theorem State.cmd_drawn : (s.drawn).cmd = s.cmd := (rfl)
@[simp] theorem State.status_drawn : (s.drawn).status = s.status := (rfl)
@[simp] theorem State.flags_drawn : (s.drawn).flags = s.flags := (rfl)
@[simp] theorem State.regs_drawn : (s.drawn).regs = s.regs := (rfl)
@[simp] theorem State.mem_drawn : (s.drawn).mem = s.mem := (rfl)
@[simp] theorem State.params_drawn : (s.drawn).params = s.params := (rfl)
@[simp] theorem State.inbox_drawn : (s.drawn).inbox = s.inbox := (rfl)
@[simp] theorem State.hostReads_drawn : (s.drawn).hostReads = s.hostReads := (rfl)
@[simp] theorem State.raced_drawn : (s.drawn).raced = s.raced := (rfl)
@[simp] theorem State.draws_drawn : (s.drawn).draws = s.draws + 1 := (rfl)

/-! ### `popInbox` -/

@[simp] theorem State.cmd_popInbox : (s.popInbox).cmd = s.cmd := (rfl)
@[simp] theorem State.status_popInbox : (s.popInbox).status = s.status := (rfl)
@[simp] theorem State.flags_popInbox : (s.popInbox).flags = s.flags := (rfl)
@[simp] theorem State.regs_popInbox : (s.popInbox).regs = s.regs := (rfl)
@[simp] theorem State.mem_popInbox : (s.popInbox).mem = s.mem := (rfl)
@[simp] theorem State.params_popInbox : (s.popInbox).params = s.params := (rfl)
@[simp] theorem State.inbox_popInbox : (s.popInbox).inbox = s.inbox.tail := (rfl)
@[simp] theorem State.hostReads_popInbox : (s.popInbox).hostReads = s.hostReads := (rfl)
@[simp] theorem State.raced_popInbox : (s.popInbox).raced = s.raced := (rfl)
@[simp] theorem State.draws_popInbox : (s.popInbox).draws = s.draws := (rfl)

/-! ### Data registers -/

/-- A register write reaches that register and no other (10_state.md R16: no register is aliased). -/
theorem Regs.get_set (x : Regs) (r r' : DataReg) (v : Word) : (x.set r v).get r' = if r' = r then v else x.get r' := by
  cases r <;> cases r' <;> rfl

theorem State.reg_eq_of_regs {s t : State} (h : t.regs = s.regs) (r : DataReg) : t.reg r = s.reg r := by
  simp [State.reg, h]

@[simp] theorem State.reg_setReg (r r' : DataReg) (v : Word) :
    (s.setReg r v).reg r' = if r' = r then v else s.reg r' := Regs.get_set _ _ _ _

@[simp] theorem State.reg_setWide (hi lo r : DataReg) (v : Nat) :
    (s.setWide hi lo v).reg r =
      if r = lo then BitVec.ofNat 64 v else if r = hi then BitVec.ofNat 64 (v / 2 ^ 64) else s.reg r := by
  simp [State.setWide]

@[simp] theorem State.reg_setPattern (b : Nat) (r : DataReg) :
    (s.setPattern b).reg r = if r = .bits then BitVec.ofNat 64 b else s.reg r := by
  simp [State.setPattern]

@[simp] theorem State.reg_setFlags (f : Flags) (r : DataReg) : (s.setFlags f).reg r = s.reg r := (rfl)
@[simp] theorem State.reg_setStatus (t : Status) (r : DataReg) : (s.setStatus t).reg r = s.reg r := (rfl)
@[simp] theorem State.reg_setMem (m : Memory) (r : DataReg) : (s.setMem m).reg r = s.reg r := (rfl)
@[simp] theorem State.reg_setRounding (rb sb : Bool) (r : DataReg) : (s.setRounding rb sb).reg r = s.reg r := (rfl)
@[simp] theorem State.reg_setSign (n : Bool) (r : DataReg) : (s.setSign n).reg r = s.reg r := (rfl)
@[simp] theorem State.reg_setClass (n : Bool) (c : FloatClass) (r : DataReg) : (s.setClass n c).reg r = s.reg r := (rfl)
@[simp] theorem State.reg_complete (c : Cause) (r : DataReg) : (s.complete c).reg r = s.reg r := (rfl)
@[simp] theorem State.reg_returnToHost (v : Word) (r : DataReg) : (s.returnToHost v).reg r = s.reg r := (rfl)
@[simp] theorem State.reg_overrun (r : DataReg) : (s.overrun).reg r = s.reg r := (rfl)
@[simp] theorem State.reg_drawn (r : DataReg) : (s.drawn).reg r = s.reg r := (rfl)
@[simp] theorem State.reg_popInbox (r : DataReg) : (s.popInbox).reg r = s.reg r := (rfl)

/-! ### Register pairs -/

/-- The pair a wide value was written to reads as that value (20_memory.md R31). -/
theorem State.wide_setWide {hi lo : DataReg} (h : hi ≠ lo) {v : Nat} (hv : v < 2 ^ 128) :
    (s.setWide hi lo v).wide hi lo = v := by
  simp only [State.wide, State.unsigned, State.reg_setWide, h, if_true, if_false, BitVec.toNat_ofNat]
  omega

/-- A 128-bit operand is below 2^128 (00_scope.md R4). -/
theorem State.wide_lt (hi lo : DataReg) : s.wide hi lo < 2 ^ 128 := by
  have h1 := (s.reg hi).isLt
  have h2 := (s.reg lo).isLt
  simp only [State.wide, State.unsigned]
  omega

end Sys2Proof.Machine
end

