-- ==== Sys2Proof/Laws/Memory.lean ====
section
/-! SUPPORT. The laws of memory (20_memory.md R36, R37): a read after a write, the canonical form, and the memory port. -/

namespace Sys2Proof.Machine

namespace Memory

/-- Every entry of `m` lies at or above `lo`. -/
def above (lo : Nat) (m : Memory) : Prop := ∀ c ∈ m, lo ≤ c.1

theorem wf_cons {c : Host.Cell} {m : Memory} :
    wf (c :: m) = true ↔ c.2 ≠ unlisted ∧ above (c.1 + 1) m ∧ wf m = true := by
  induction m generalizing c with
  | nil => simp [wf, above]
  | cons d m ih =>
    simp only [wf, Bool.and_eq_true, bne_iff_ne, decide_eq_true_eq]
    constructor
    · rintro ⟨⟨h1, h2⟩, h3⟩
      refine ⟨h1, ?_, h3⟩
      intro e he
      rcases List.mem_cons.1 he with rfl | he
      · omega
      · have := (ih.1 h3).2.1 e he
        omega
    · rintro ⟨h1, h2, h3⟩
      have := h2 d (by simp)
      exact ⟨⟨h1, by omega⟩, h3⟩

theorem read_of_above {m : Memory} {a : Nat} (h : above (a + 1) m) : m.read a = unlisted := by
  induction m with
  | nil => rfl
  | cons c m ih =>
    have hc := h c (by simp)
    have : c.1 ≠ a := by omega
    simp only [read, this, if_false]
    exact ih fun e he => h e (by simp [he])

theorem above_write {m : Memory} {lo a : Nat} {b : Byte} (h : above lo m) (ha : lo ≤ a) : above lo (m.write a b) := by
  induction m with
  | nil => unfold write; split <;> simp [above, ha]
  | cons c m ih =>
    have hc := h c (by simp)
    have hm : above lo m := fun e he => h e (by simp [he])
    have cons : ∀ {d : Host.Cell} {x : Memory}, lo ≤ d.1 → above lo x → above lo (d :: x) := fun hd hx e he =>
      (List.mem_cons.1 he).elim (fun h => h ▸ hd) (hx e)
    unfold write
    split
    · split
      · exact h
      · exact cons ha h
    · split
      · split
        · exact hm
        · exact cons ha hm
      · exact cons hc (ih hm)

/-- A write keeps the canonical form. -/
theorem wf_write {m : Memory} (a : Nat) (b : Byte) (h : wf m = true) : wf (m.write a b) = true := by
  induction m with
  | nil => unfold write; split <;> simp_all [wf]
  | cons c m ih =>
    obtain ⟨h1, h2, h3⟩ := wf_cons.1 h
    unfold write
    split
    · split
      · exact h
      · refine wf_cons.2 ⟨by assumption, ?_, h⟩
        intro e he
        rcases List.mem_cons.1 he with rfl | he
        · omega
        · have := h2 e he; omega
    · split
      · subst a
        split
        · exact h3
        · exact wf_cons.2 ⟨by assumption, h2, h3⟩
      · exact wf_cons.2 ⟨h1, above_write h2 (by omega), ih h3⟩

/-- A read after a write to the same address gives the byte written, in a canonical memory. -/
theorem read_write_same {m : Memory} (h : wf m = true) (a : Nat) (b : Byte) : (m.write a b).read a = b := by
  induction m with
  | nil => unfold write; split <;> simp_all [read]
  | cons c m ih =>
    obtain ⟨h1, h2, h3⟩ := wf_cons.1 h
    unfold write
    split
    · split
      · subst b
        refine read_of_above ?_
        intro e he
        rcases List.mem_cons.1 he with rfl | he
        · omega
        · have := h2 e he; omega
      · simp [read]
    · split
      · subst a
        split
        · subst b
          exact read_of_above h2
        · simp [read]
      · have : ¬ c.1 = a := by omega
        simp [read, this, ih h3]

/-- A write leaves every other address as it was. -/
theorem read_write_other {m : Memory} {a a' : Nat} (b : Byte) (h : a' ≠ a) : (m.write a b).read a' = m.read a' := by
  induction m with
  | nil => unfold write; split <;> simp [read, Ne.symm h]
  | cons c m ih =>
    unfold write
    split
    · split
      · rfl
      · simp [read, Ne.symm h]
    · split
      · subst a
        split
        · simp [read, Ne.symm h]
        · simp [read, Ne.symm h]
      · simp only [read, ih]

/-- A read after a write in a canonical memory. -/
theorem read_write {m : Memory} (h : wf m = true) (a a' : Nat) (b : Byte) :
    (m.write a b).read a' = if a' = a then b else m.read a' := by
  split
  · subst a'; exact read_write_same h a b
  · exact read_write_other b ‹_›

/-- Two canonical memories that read alike are the same list. -/
theorem ext_of_read {m m' : Memory} (h : wf m = true) (h' : wf m' = true) (e : ∀ a, m.read a = m'.read a) : m = m' := by
  induction m generalizing m' with
  | nil =>
    cases m' with
    | nil => rfl
    | cons c m' =>
      have := e c.1
      simp only [read, if_true] at this
      exact absurd this.symm (wf_cons.1 h').1
  | cons c m ih =>
    obtain ⟨h1, h2, h3⟩ := wf_cons.1 h
    cases m' with
    | nil =>
      have := e c.1
      simp only [read, if_true] at this
      exact absurd this h1
    | cons d m' =>
      obtain ⟨g1, g2, g3⟩ := wf_cons.1 h'
      have hcd : c.1 = d.1 := by
        rcases Nat.lt_trichotomy c.1 d.1 with hl | he | hl
        · have := e c.1
          have hd : read (d :: m') c.1 = unlisted := read_of_above (by
            intro x hx
            rcases List.mem_cons.1 hx with rfl | hx
            · omega
            · have := g2 x hx; omega)
          rw [hd] at this
          simp only [read, if_true] at this
          exact absurd this h1
        · exact he
        · have := e d.1
          have hd : read (c :: m) d.1 = unlisted := read_of_above (by
            intro x hx
            rcases List.mem_cons.1 hx with rfl | hx
            · omega
            · have := h2 x hx; omega)
          rw [hd] at this
          simp only [read, if_true] at this
          exact absurd this.symm g1
      have hb : c.2 = d.2 := by
        have := e c.1
        simpa [read, hcd] using this
      have hc : c = d := Prod.ext hcd hb
      subst hc
      congr 1
      refine ih h3 g3 fun a => ?_
      by_cases ha : c.1 = a
      · subst ha
        rw [read_of_above h2, read_of_above g2]
      · simpa [read, ha] using e a

end Memory

/-! ### The memory port -/

/-- Everything a port access can answer (20_memory.md R35, 60_exceptions.md R119). -/
theorem portAccess_cases (p : Params) (a : Nat) :
    (2 ^ p.addrWidth ≤ a ∧ portAccess p a = .error (.memoryFault (a % 2 ^ p.addrWidth))) ∨
    (a < 2 ^ p.addrWidth ∧ memOk p a = false ∧ portAccess p a = .error (.memoryFault a)) ∨
    (a < 2 ^ p.addrWidth ∧ memOk p a = true ∧ portAccess p a = .ok ()) := by
  unfold portAccess
  by_cases h : a ≥ 2 ^ p.addrWidth
  · exact .inl ⟨h, by simp [h]⟩
  · rw [if_neg h]
    cases hm : memOk p a
    · exact .inr (.inl ⟨by omega, rfl, by simp⟩)
    · exact .inr (.inr ⟨by omega, rfl, by simp⟩)

theorem portAccess_ok_lt {p : Params} {a : Nat} (h : portAccess p a = .ok ()) : a < 2 ^ p.addrWidth := by
  rcases portAccess_cases p a with ⟨_, e⟩ | ⟨_, _, e⟩ | ⟨hl, _, _⟩
  · simp [e] at h
  · simp [e] at h
  · exact hl

/-- The port raises no error but a memory fault. -/
theorem portAccess_error {p : Params} {a : Nat} {e : CmdError} (h : portAccess p a = .error e) :
    ∃ f, e = .memoryFault f := by
  rcases portAccess_cases p a with ⟨_, g⟩ | ⟨_, _, g⟩ | ⟨_, _, g⟩ <;> simp [g] at h <;> exact ⟨_, h.symm⟩

/-- The number of writes FORMAT makes before it ends or faults. -/
def writesDone (n : Nat) : Option (Nat × CmdError) → Nat
  | none => n
  | some (j, _) => j

/-- Everything a run of engine writes does to one byte: those before the fault are written, each in its place, and
nothing else changes (45_extract_format.md R105). -/
theorem State.portWrites_spec (s : State) (bs : List Byte) :
    ∀ (m : Memory) (base : Nat), Memory.wf m = true →
      Memory.wf (s.portWrites m base bs).1 = true ∧
      writesDone bs.length (s.portWrites m base bs).2 ≤ bs.length ∧
      (∀ j < writesDone bs.length (s.portWrites m base bs).2, portAccess s.params (base + j) = .ok ()) ∧
      (∀ j e, (s.portWrites m base bs).2 = some (j, e) → j < bs.length ∧ portAccess s.params (base + j) = .error e) ∧
      (∀ a, (s.portWrites m base bs).1.read a =
        if base ≤ a ∧ a < base + writesDone bs.length (s.portWrites m base bs).2 then
          s.leftByte m a (bs.getD (a - base) 0) else m.read a) := by
  induction bs with
  | nil =>
    intro m base hm
    refine ⟨hm, by simp [State.portWrites, writesDone], by simp [State.portWrites, writesDone],
      by simp [State.portWrites], ?_⟩
    intro a
    have : ¬ (base ≤ a ∧ a < base + 0) := by omega
    simp only [State.portWrites, writesDone, List.length_nil, this, if_false]
  | cons b bs ih =>
    intro m base hm
    rcases hacc : portAccess s.params base with e | u
    · have hp : s.portWrites m base (b :: bs) = (m, some (0, e)) := by simp [State.portWrites, hacc]
      rw [hp]
      refine ⟨hm, by simp [writesDone], by simp [writesDone], ?_, ?_⟩
      · rintro j e' h
        simp only [Option.some.injEq, Prod.mk.injEq] at h
        obtain ⟨rfl, rfl⟩ := h
        exact ⟨by simp, by simpa using hacc⟩
      · intro a
        have : ¬ (base ≤ a ∧ a < base + 0) := by omega
        simp only [writesDone, this, if_false]
    · cases u
      obtain ⟨i1, i2, i3, i4, i5⟩ := ih (m.write base (s.leftByte m base b)) (base + 1) (Memory.wf_write _ _ hm)
      have hleft : ∀ a c, base + 1 ≤ a →
          s.leftByte (m.write base (s.leftByte m base b)) a c = s.leftByte m a c := by
        intro a c ha
        unfold State.leftByte
        split
        · rfl
        · rw [Memory.read_write_other _ (by omega)]
      rcases hrec : s.portWrites (m.write base (s.leftByte m base b)) (base + 1) bs with ⟨m', r⟩
      rw [hrec] at i1 i2 i3 i4 i5
      dsimp only at i1 i2 i3 i4 i5
      have hp : s.portWrites m base (b :: bs) = (m', r.map fun x => (x.1 + 1, x.2)) := by
        simp only [State.portWrites, hacc, hrec]
        cases r with
        | none => rfl
        | some x => rfl
      have hdone : writesDone (b :: bs).length (r.map fun x => (x.1 + 1, x.2)) = writesDone bs.length r + 1 := by
        cases r with
        | none => rfl
        | some x => rfl
      rw [hp]
      simp only [hdone]
      refine ⟨i1, by simpa using i2, ?_, ?_, ?_⟩
      · intro j hj
        cases j with
        | zero => simpa using hacc
        | succ j =>
          have := i3 j (by omega)
          rwa [show base + 1 + j = base + (j + 1) by omega] at this
      · intro j e h
        cases r with
        | none => simp at h
        | some x =>
          simp only [Option.map_some, Option.some.injEq, Prod.mk.injEq] at h
          obtain ⟨rfl, rfl⟩ := h
          obtain ⟨g1, g2⟩ := i4 x.1 x.2 rfl
          exact ⟨by simpa using g1, by rwa [show base + (x.1 + 1) = base + 1 + x.1 by omega]⟩
      · intro a
        rw [i5 a]
        by_cases ha : a = base
        · subst a
          have h1 : ¬ (base + 1 ≤ base ∧ base < base + 1 + writesDone bs.length r) := by omega
          have h2 : base ≤ base ∧ base < base + (writesDone bs.length r + 1) := by omega
          simp only [h1, h2, if_false, and_self, if_true, Nat.sub_self, List.getD_cons_zero]
          exact Memory.read_write_same hm _ _
        · by_cases hb : base + 1 ≤ a ∧ a < base + 1 + writesDone bs.length r
          · have h2 : base ≤ a ∧ a < base + (writesDone bs.length r + 1) := by omega
            rw [if_pos hb, if_pos h2, hleft _ _ hb.1]
            obtain ⟨k, rfl⟩ : ∃ k, a = base + 1 + k := ⟨a - (base + 1), by omega⟩
            rw [show base + 1 + k - (base + 1) = k by omega, show base + 1 + k - base = k + 1 by omega]
            simp
          · have h2 : ¬ (base ≤ a ∧ a < base + (writesDone bs.length r + 1)) := by omega
            rw [if_neg hb, if_neg h2]
            exact Memory.read_write_other _ ha

end Sys2Proof.Machine
end

