-- ==== Sys2Proof/Laws/PerInstr.lean ====
section
/-! SUPPORT. Facts about every command as syntax, one lemma per constructor. -/

namespace Sys2Proof.Laws.WordIs32Bits

/-- A well-formed command's word has 32 bits (30_encoding.md R44), with bit 11 and bits [31:16] zero (R45). -/
def Statement (i : Instr) : Prop :=
  i.wf = true → encodeNat i < 2 ^ 16 ∧ (encodeNat i).testBit 11 = false

theorem nop : Statement .nop := by intro _; decide

theorem mul64 : Statement .mul64 := by intro _; decide

theorem mul128 : Statement .mul128 := by intro _; decide

theorem pow5 (t : Pow5Table) (k : Nat) : Statement (.pow5 t k) := by
  intro h
  have hk : k < 9 := of_decide_eq_true h
  cases t <;> interval_cases k <;> decide

theorem scan (m : ScanMode) : Statement (.scan m) := by cases m <;> intro _ <;> decide

theorem scale : Statement .scale := by intro _; decide

theorem assemble (f : FloatFormat) : Statement (.assemble f) := by cases f <;> intro _ <;> decide

theorem parse (f : FloatFormat) (m : ScanMode) : Statement (.parse f m) := by
  cases f <;> cases m <;> intro _ <;> decide

theorem extract (f : FloatFormat) : Statement (.extract f) := by cases f <;> intro _ <;> decide

theorem format (f : FloatFormat) : Statement (.format f) := by cases f <;> intro _ <;> decide

end Sys2Proof.Laws.WordIs32Bits
end

