-- ==== Sys2Proof/Laws/Scaler.lean ====
section
/-! SUPPORT. The multiplier, the normalizations and the scaler's range (40_wide_arith.md, 43_scaler.md R77). -/

namespace Sys2Proof.Machine

/-- `bitlen(v)` is the least n with v < 2^n (00_scope.md R5). -/
theorem bitlen_spec {v : Nat} (h : v ≠ 0) : 2 ^ (bitlen v - 1) ≤ v ∧ v < 2 ^ bitlen v := by
  simp only [bitlen, h, if_false, Nat.add_sub_cancel]
  exact ⟨Nat.log2_self_le h, Nat.lt_log2_self⟩

theorem bitlen_pos {v : Nat} (h : v ≠ 0) : 1 ≤ bitlen v := by simp [bitlen, h]

theorem bitlen_le {n v : Nat} (h : v < 2 ^ n) : bitlen v ≤ n := by
  by_cases hv : v = 0
  · simp [bitlen, hv]
  · by_contra hn
    have h1 := (bitlen_spec hv).1
    have h2 : 2 ^ n ≤ 2 ^ (bitlen v - 1) := Nat.pow_le_pow_right (by norm_num) (by omega)
    omega

/-- Left-normalization by `clz` puts the leading bit at the top of the width. -/
theorem normalize_bounds {n v : Nat} (h : v ≠ 0) (hv : v < 2 ^ n) :
    2 ^ (n - 1) ≤ v <<< clz n v ∧ v <<< clz n v < 2 ^ n := by
  obtain ⟨h1, h2⟩ := bitlen_spec h
  have hb := bitlen_le hv
  have hp := bitlen_pos h
  rw [Nat.shiftLeft_eq, clz]
  constructor
  · calc 2 ^ (n - 1) = 2 ^ (bitlen v - 1) * 2 ^ (n - bitlen v) := by rw [← pow_add]; congr 1; omega
      _ ≤ _ := Nat.mul_le_mul_right _ h1
  · calc v * 2 ^ (n - bitlen v) < 2 ^ bitlen v * 2 ^ (n - bitlen v) := by
          exact Nat.mul_lt_mul_of_pos_right h2 (by positivity)
      _ = 2 ^ n := by rw [← pow_add]; congr 1; omega

/-- The kept half and what was cut: everything `mul128` says of a product (40_wide_arith.md R57). -/
theorem mul128_spec (a b : Nat) :
    (mul128 a b).kept * 2 ^ 128 ≤ a * b ∧ a * b < ((mul128 a b).kept + 1) * 2 ^ 128 ∧
      (((mul128 a b).rb = false ∧ (mul128 a b).sb = false) → a * b = (mul128 a b).kept * 2 ^ 128) := by
  have hk : (mul128 a b).kept = a * b / 2 ^ 128 := (rfl)
  have hr : (mul128 a b).rb = (a * b).testBit 127 := (rfl)
  have hs : (mul128 a b).sb = (a * b % 2 ^ 127 != 0) := (rfl)
  rw [hk, hr, hs]
  generalize a * b = p
  refine ⟨by omega, by omega, ?_⟩
  rintro ⟨h1, h2⟩
  have h3 : p / 2 ^ 127 % 2 = 0 := by
    rw [Nat.testBit_eq_decide_div_mod_eq] at h1
    have := of_decide_eq_false h1
    omega
  have h4 : p % 2 ^ 127 = 0 := by simpa using h2
  omega

/-- A product of two normalized factors keeps at least 126 and at most 128 bits (43_scaler.md R77). -/
theorem mul128_kept_bounds {a b : Nat} (ha : 2 ^ 127 ≤ a) (ha' : a < 2 ^ 128) (hb : 2 ^ 127 ≤ b) (hb' : b < 2 ^ 128) :
    2 ^ 126 ≤ (mul128 a b).kept ∧ (mul128 a b).kept < 2 ^ 128 := by
  have h1 : 2 ^ 254 ≤ a * b := by
    calc 2 ^ 254 = 2 ^ 127 * 2 ^ 127 := by norm_num
      _ ≤ a * b := Nat.mul_le_mul ha hb
  have h2 : a * b < 2 ^ 256 := by
    calc a * b < 2 ^ 128 * 2 ^ 128 := Nat.mul_lt_mul'' ha' hb'
      _ = 2 ^ 256 := by norm_num
  have hk : (mul128 a b).kept = a * b / 2 ^ 128 := (rfl)
  rw [hk]
  generalize a * b = p at *
  omega

/-- One left shift at most renormalizes a kept value, and the value represented stays (43_scaler.md R77). -/
theorem renormalize_spec {x : Scaled} (h : 2 ^ 126 ≤ x.sig) (h' : x.sig < 2 ^ 128) :
    2 ^ 127 ≤ (renormalize x).sig ∧ (renormalize x).sig < 2 ^ 128 ∧ (renormalize x).rb = x.rb ∧
      (renormalize x).sb = x.sb ∧
      (((renormalize x).sig = x.sig ∧ (renormalize x).exp = x.exp) ∨
        ((renormalize x).sig = 2 * x.sig ∧ (renormalize x).exp = x.exp - 1)) := by
  have hb : x.sig.testBit 127 = decide (2 ^ 127 ≤ x.sig) := by
    rw [Nat.testBit_eq_decide_div_mod_eq]
    congr 1
    simp only [eq_iff_iff]
    omega
  by_cases hc : 2 ^ 127 ≤ x.sig
  · have : renormalize x = x := by rw [renormalize, if_pos (by rw [hb]; exact decide_eq_true hc)]
    rw [this]
    exact ⟨hc, h', rfl, rfl, .inl ⟨rfl, rfl⟩⟩
  · have : renormalize x = { x with sig := x.sig * 2, exp := x.exp - 1 } := by
      rw [renormalize, if_neg (by rw [hb, decide_eq_false hc]; simp), Nat.shiftLeft_eq, Nat.mod_eq_of_lt (by omega)]
    rw [this]
    refine ⟨?_, ?_, rfl, rfl, .inr ⟨?_, rfl⟩⟩ <;> dsimp only <;> omega

end Sys2Proof.Machine
end

