-- ==== Sys2Proof/Laws/Scanner.lean ====
section
/-! SUPPORT. What the scanner's shared loop does: a digit run that succeeds and one that is there to be read. -/

namespace Sys2Proof.Machine

theorem isDigit_iff {c : Byte} : isDigit (some c) = true ↔ 0x30 ≤ c.toNat ∧ c.toNat ≤ 0x39 := by simp [isDigit]

theorem digitVal_lt {c : Option Byte} (h : isDigit c = true) : digitVal c < 10 := by
  cases c with
  | none => cases h
  | some c => have := isDigit_iff.1 h; simp only [digitVal]; omega

/-- Everything a successful digit run says: its values are those of the digits it stands on, and unless the bound was
met what follows is no digit. -/
theorem digitRun_ok {peek : Peek} {fuel i : Nat} {ds : List Nat} (h : digitRun peek fuel i = .ok ds) :
    (∀ j, (hj : j < ds.length) → ∃ c, peek (i + j) = .ok c ∧ isDigit c = true ∧ ds[j] = digitVal c) ∧
      ds.length ≤ fuel ∧ (ds.length < fuel → ∃ c, peek (i + ds.length) = .ok c ∧ isDigit c = false) := by
  induction fuel generalizing i ds with
  | zero => cases h; exact ⟨by simp, by simp, by simp⟩
  | succ n ih =>
    unfold digitRun at h
    split at h
    · cases h
    · next c hc =>
      split at h
      · next hd =>
        split at h
        · cases h
        · next es hes =>
          cases h
          obtain ⟨h1, h2, h3⟩ := ih hes
          refine ⟨?_, by simpa using h2, ?_⟩
          · intro j hj
            cases j with
            | zero => exact ⟨c, hc, hd, rfl⟩
            | succ j =>
              obtain ⟨x, hx⟩ := h1 j (by simpa using hj)
              exact ⟨x, by rw [show i + (j + 1) = i + 1 + j by omega]; exact hx⟩
          · intro hl
            rw [List.length_cons, show i + (es.length + 1) = i + 1 + es.length by omega]
            exact h3 (by simpa using hl)
      · next hd =>
        cases h
        exact ⟨by simp, by simp, fun _ => ⟨c, by simpa using hc, by simpa using hd⟩⟩

/-- A digit run reads the digits that stand there and stops at what is no digit. -/
theorem digitRun_eq {peek : Peek} {fuel i : Nat} (cs : List (Option Byte)) (hl : cs.length < fuel)
    (h : ∀ j, (hj : j < cs.length) → peek (i + j) = .ok cs[j] ∧ isDigit cs[j] = true)
    {c : Option Byte} (hc : peek (i + cs.length) = .ok c) (hd : isDigit c = false) :
    digitRun peek fuel i = .ok (cs.map digitVal) := by
  induction cs generalizing i fuel with
  | nil =>
    obtain ⟨n, rfl⟩ : ∃ n, fuel = n + 1 := ⟨fuel - 1, by simp at hl; omega⟩
    simp only [List.length_nil, Nat.add_zero] at hc
    simp [digitRun, hc, hd]
  | cons x xs ih =>
    obtain ⟨n, rfl⟩ : ∃ n, fuel = n + 1 := ⟨fuel - 1, by simp at hl; omega⟩
    have h0 := h 0 (by simp)
    simp only [Nat.add_zero, List.getElem_cons_zero] at h0
    have hrec : digitRun peek n (i + 1) = .ok (xs.map digitVal) := by
      refine ih (by simpa using hl) ?_ ?_
      · intro j hj
        have := h (j + 1) (by simpa using hj)
        rwa [show i + 1 + j = i + (j + 1) by omega]
      · rwa [show i + 1 + xs.length = i + (x :: xs).length by simp; omega]
    simp [digitRun, h0.1, h0.2, hrec]

end Sys2Proof.Machine
end

