-- ==== Sys2Proof/Laws/Step.lean ====
section
/-! SUPPORT. What a command, an action of the host and a step can do, said once. -/

namespace Sys2Proof.Machine

/-! ### Errors -/

/-- The errors `peek` raises are memory faults. -/
theorem State.peek_error {s : State} {m : ScanMode} {j : Nat} {e : CmdError} (h : s.peek m j = .error e) :
    ∃ a, e = .memoryFault a := by
  unfold State.peek State.portRead at h
  split at h
  · cases h
  · rcases hp : portAccess s.params (s.unsigned .addr + j) with x | x
    · simp only [hp] at h
      cases h
      exact portAccess_error hp
    · simp [hp] at h

/-- A digit run raises no error of its own. -/
theorem digitRun_error {peek : Peek} {fuel i : Nat} {e : CmdError} (h : digitRun peek fuel i = .error e) :
    ∃ j, peek j = .error e := by
  induction fuel generalizing i with
  | zero => cases h
  | succ n ih =>
    unfold digitRun at h
    split at h
    · next hp => cases h; exact ⟨_, hp⟩
    · split at h
      · split at h
        · next hr => cases h; exact ih hr
        · cases h
      · cases h

/-- What an error of the scanner is: INVALID_ARGUMENT, or the error of a read. -/
def FromPeek (peek : Peek) (e : CmdError) : Prop := e = .invalidArgument ∨ ∃ j, peek j = .error e

theorem digitRun1_error {peek : Peek} {fuel i : Nat} {e : CmdError} (h : digitRun1 peek fuel i = .error e) :
    FromPeek peek e := by
  unfold digitRun1 at h
  split at h
  · next hr => cases h; exact .inr (digitRun_error hr)
  · cases h; exact .inl rfl
  · cases h

theorem scanSign_error {peek : Peek} {e : CmdError} (h : scanSign peek = .error e) : FromPeek peek e := by
  unfold scanSign at h
  split at h
  · next hp => cases h; exact .inr ⟨_, hp⟩
  · cases h

theorem scanInt_error {peek : Peek} {fuel i : Nat} {e : CmdError} (h : scanInt peek fuel i = .error e) :
    FromPeek peek e := by
  unfold scanInt at h
  split at h
  · next hp => cases h; exact .inr ⟨_, hp⟩
  · split at h
    · cases h; exact .inl rfl
    · split at h
      · split at h
        · next hp => cases h; exact .inr ⟨_, hp⟩
        · split at h
          · cases h; exact .inl rfl
          · cases h
      · split at h
        · next hr => cases h; exact .inr (digitRun_error hr)
        · cases h

theorem scanFrac_error {peek : Peek} {fuel i : Nat} {x : Accum} {e : CmdError}
    (h : scanFrac peek fuel x i = .error e) : FromPeek peek e := by
  unfold scanFrac at h
  split at h
  · next hp => cases h; exact .inr ⟨_, hp⟩
  · split at h
    · split at h
      · next hr => cases h; exact digitRun1_error hr
      · cases h
    · cases h

theorem scanExp_error {peek : Peek} {fuel i : Nat} {e : CmdError} (h : scanExp peek fuel i = .error e) :
    FromPeek peek e := by
  unfold scanExp at h
  split at h
  · next hp => cases h; exact .inr ⟨_, hp⟩
  · split at h
    · split at h
      · next hp => cases h; exact .inr ⟨_, hp⟩
      · dsimp only at h
        split at h
        · next hr => cases h; exact digitRun1_error hr
        · cases h
    · cases h

/-- SCAN and PARSE raise INVALID_ARGUMENT or the memory fault of a read, nothing else (60_exceptions.md R115). -/
theorem scanText_error {peek : Peek} {fuel : Nat} {e : CmdError} (h : scanText peek fuel = .error e) :
    FromPeek peek e := by
  unfold scanText at h
  split at h
  · next hs => cases h; exact scanSign_error hs
  · split at h
    · next hs => cases h; exact scanInt_error hs
    · split at h
      · next hs => cases h; exact scanFrac_error hs
      · split at h
        · next hs => cases h; exact scanExp_error hs
        · cases h

theorem State.scan_error {s : State} {m : ScanMode} {e : CmdError} (h : s.scan m = .error e) :
    e = .invalidArgument ∨ ∃ a, e = .memoryFault a := by
  rcases scanText_error h with h | ⟨j, h⟩
  · exact .inl h
  · exact .inr (State.peek_error h)

/-! ### Commands -/

/-- From `s` to `t` only data registers, FLAGS and memory may differ: what a command has done before it completes. -/
structure Computed (s t : State) : Prop where
  cmd : t.cmd = s.cmd
  status : t.status = s.status
  params : t.params = s.params
  inbox : t.inbox = s.inbox
  hostReads : t.hostReads = s.hostReads
  raced : t.raced = s.raced
  draws : t.draws = s.draws

theorem Computed.refl (s : State) : Computed s s := ⟨rfl, rfl, rfl, rfl, rfl, rfl, rfl⟩

/-- How SCAN and PARSE end with an error. -/
theorem State.raiseText_cases (s : State) (e : CmdError) :
    ∃ u, s.raiseText e = u.complete e.cause ∧ Computed s u ∧ u.mem = s.mem ∧ u.flags = s.flags := by
  cases e
  · exact ⟨s.setReg .pos (s.reg .addr), rfl, ⟨rfl, rfl, rfl, rfl, rfl, rfl, rfl⟩, rfl, rfl⟩
  · exact ⟨s, rfl, Computed.refl s, rfl, rfl⟩
  · rename_i a
    exact ⟨s.setReg .pos (BitVec.ofNat 64 a), rfl, ⟨rfl, rfl, rfl, rfl, rfl, rfl, rfl⟩, rfl, rfl⟩

/-- How FORMAT ends with an error. -/
theorem State.raiseWrite_cases (s : State) (j : Nat) (e : CmdError) :
    ∃ u, s.raiseWrite j e = u.complete e.cause ∧ Computed s u ∧ u.mem = s.mem ∧ u.flags = s.flags := by
  cases e
  · exact ⟨s, rfl, Computed.refl s, rfl, rfl⟩
  · exact ⟨s, rfl, Computed.refl s, rfl, rfl⟩
  · rename_i a
    exact ⟨(s.setReg .len (BitVec.ofNat 64 j)).setReg .pos (BitVec.ofNat 64 a), rfl,
      ⟨rfl, rfl, rfl, rfl, rfl, rfl, rfl⟩, rfl, rfl⟩

/-- The memory a command leaves: as it was, but that FORMAT has made its writes. -/
def memAfter (i : Instr) (s : State) : Memory :=
  match i with
  | .format f => (s.portWrites s.mem s.outputBase (s.outputText f)).1
  | _ => s.mem

/-- Everything a command can do: it answers a next state, the completion with some code of a state in which only data
registers, FLAGS and, for FORMAT, memory differ. -/
theorem exec_cases (i : Instr) (s : State) :
    ∃ u c, exec i s = .next (u.complete c) ∧ Computed s u ∧ u.mem = memAfter i s := by
  cases i with
  | nop => exact ⟨s, .ok, rfl, Computed.refl s, rfl⟩
  | mul64 =>
    simp only [exec, execMul64, memAfter]
    exact ⟨_, _, rfl, by constructor <;> simp, by simp⟩
  | mul128 =>
    simp only [exec, execMul128, memAfter]
    exact ⟨_, _, rfl, by constructor <;> simp, by simp⟩
  | pow5 t k =>
    simp only [exec, execPow5, memAfter]
    split
    · exact ⟨_, _, rfl, by constructor <;> simp, by simp⟩
    · exact ⟨s, _, rfl, Computed.refl s, rfl⟩
  | scan m =>
    simp only [exec, execScan, memAfter]
    split
    · obtain ⟨u, hu, h1, h2, _⟩ := s.raiseText_cases ‹_›
      exact ⟨u, _, by rw [hu], h1, h2⟩
    · exact ⟨_, _, rfl, by constructor <;> simp, by simp⟩
  | scale =>
    simp only [exec, execScale, memAfter]
    split
    · exact ⟨s, _, rfl, Computed.refl s, rfl⟩
    · exact ⟨_, _, rfl, by constructor <;> simp, by simp⟩
  | assemble f =>
    simp only [exec, execAssemble, memAfter]
    exact ⟨_, _, rfl, by constructor <;> simp, by simp⟩
  | parse f m =>
    simp only [exec, execParse, memAfter]
    split
    · obtain ⟨u, hu, h1, h2, _⟩ := s.raiseText_cases ‹_›
      exact ⟨u, _, by rw [hu], h1, h2⟩
    · exact ⟨_, _, rfl, by constructor <;> simp, by simp⟩
  | extract f =>
    simp only [exec, execExtract, memAfter]
    exact ⟨_, _, rfl, by constructor <;> simp, by simp⟩
  | format f =>
    simp only [exec, execFormat, memAfter]
    rcases h : s.portWrites s.mem s.outputBase (s.outputText f) with ⟨m, r⟩
    cases r with
    | none => exact ⟨_, _, rfl, by constructor <;> simp, by simp⟩
    | some x =>
      obtain ⟨j, e⟩ := x
      obtain ⟨u, hu, h1, h2, _⟩ := (s.setMem m).raiseWrite_cases j e
      exact ⟨u, e.cause, by simp only [hu],
        ⟨h1.cmd, h1.status, h1.params, h1.inbox, h1.hostReads, h1.raced, h1.draws⟩, h2⟩

/-- The memory a command leaves is in canonical form. -/
theorem memAfter_wf {s : State} (i : Instr) (h : Memory.wf s.mem = true) : Memory.wf (memAfter i s) = true := by
  cases i
  case format f => exact (s.portWrites_spec _ _ _ h).1
  all_goals exact h

/-! ### Steps -/

/-- Everything a step can do: the engine runs the command in progress, nobody moves, or one host action lands. -/
theorem step_cases (s : State) :
    (s.turn = .engine ∧ s.status.busy = true ∧ step s = runCommand s) ∨
    (s.turn = .nobody ∧ s.status.busy = false ∧ step s = .next s) ∨
    (∃ op ops, s.turn = .host op ∧ s.inbox = op :: ops ∧ step s = hostAct op s.popInbox) := by
  unfold step
  rcases hi : s.inbox with _ | ⟨op, ops⟩
  · cases hb : s.status.busy <;> simp [State.turn, hi, hb]
  · cases op <;> cases hb : s.status.busy <;> cases hd : s.status.done <;> simp [State.turn, hi, hb, hd]

/-- Everything `runCommand` can do: the meaning of a legal command, or completion with ILLEGAL_COMMAND. -/
theorem runCommand_cases (s : State) :
    ∃ u c, runCommand s = .next (u.complete c) ∧ Computed s u ∧
      ((u.mem = s.mem) ∨ ∃ i, decode s.cmd = .ok i ∧ u.mem = memAfter i s) := by
  unfold runCommand
  split
  · next i hi =>
    obtain ⟨u, c, h1, h2, h3⟩ := exec_cases i s
    exact ⟨u, c, h1, h2, .inr ⟨i, hi, h3⟩⟩
  · exact ⟨s, _, rfl, Computed.refl s, .inl rfl⟩

/-- What a host action that answers a next state has done. -/
theorem hostAct_cases {op : HostOp} {s t : State} (h : hostAct op s = .next t) :
    (∃ size off v, op = .write size off v ∧ windowAccess size off = true ∧ t = s.writeWindow off v) ∨
    (∃ v, t = s.returnToHost v) ∨
    (∃ a b, op = .memWrite a b ∧ portAccess s.params a = .ok () ∧ t = s.storeByte a b) ∨
    (∃ a v, op = .memRead a ∧ portAccess s.params a = .ok () ∧ t = (s.returnToHost v).drawn) ∨
    (op = .reset ∧ t = s.afterReset) := by
  cases op with
  | write size off v =>
    simp only [hostAct, hostWrite] at h
    split at h
    · cases h; exact .inl ⟨_, _, _, rfl, ‹_›, rfl⟩
    · cases h
  | read size off =>
    simp only [hostAct, hostRead] at h
    split at h
    · cases h; exact .inr (.inl ⟨_, rfl⟩)
    · cases h
  | wait =>
    simp only [hostAct, hostRead] at h
    split at h
    · cases h; exact .inr (.inl ⟨_, rfl⟩)
    · cases h
  | memWrite a b =>
    simp only [hostAct, hostStore] at h
    split at h
    · cases h
    · next hp => cases h; exact .inr (.inr (.inl ⟨_, _, rfl, hp, rfl⟩))
  | memRead a =>
    simp only [hostAct, hostLoad] at h
    split at h
    · cases h
    · next hp => cases h; exact .inr (.inr (.inr (.inl ⟨_, _, rfl, hp, rfl⟩)))
  | reset => cases h; exact .inr (.inr (.inr (.inr ⟨rfl, rfl⟩)))

end Sys2Proof.Machine
end

