-- ==== Sys2Proof/Laws/Text.lean ====
section
/-! SUPPORT. The scanner reads nothing but its text (20_memory.md R33): texts that agree scan alike, whatever the
outcome. -/

namespace Sys2Proof.Machine

/-- Every byte before offset `j` is there and of the grammar's classes: the scanner's cursor can come to `j`. -/
def Reached (peek : Peek) (j : Nat) : Prop := ∀ i < j, ∃ c, peek i = .ok (some c) ∧ inClasses c = true

theorem Reached.zero (peek : Peek) : Reached peek 0 := fun _ h => absurd h (Nat.not_lt_zero _)

theorem Reached.succ {peek : Peek} {j : Nat} {c : Byte} (h : Reached peek j) (hc : peek j = .ok (some c))
    (hk : inClasses c = true) : Reached peek (j + 1) := fun i hi =>
  (Nat.lt_succ_iff_lt_or_eq.1 hi).elim (h i) fun e => e ▸ ⟨c, hc, hk⟩

theorem Reached.digit {peek : Peek} {j : Nat} {c : Option Byte} (h : Reached peek j) (hc : peek j = .ok c)
    (hd : isDigit c = true) : Reached peek (j + 1) := by
  cases c with
  | none => cases hd
  | some c => exact h.succ hc (by simp [inClasses, hd])

/-- The cursor after a digit run. -/
theorem Reached.run {peek : Peek} {fuel i : Nat} {ds : List Nat} (h : Reached peek i)
    (hr : digitRun peek fuel i = .ok ds) : Reached peek (i + ds.length) := by
  obtain ⟨hd, -, -⟩ := digitRun_ok hr
  suffices ∀ n ≤ ds.length, Reached peek (i + n) from this _ le_rfl
  intro n hn
  induction n with
  | zero => exact h
  | succ n ih =>
    obtain ⟨c, hc, hk, -⟩ := hd n (by omega)
    exact (ih (by omega)).digit hc hk

variable {peek peek' : Peek}

theorem digitRun_congr (h : ∀ j, Reached peek j → peek' j = peek j) (fuel : Nat) {i : Nat} (hi : Reached peek i) :
    digitRun peek' fuel i = digitRun peek fuel i := by
  induction fuel generalizing i with
  | zero => rfl
  | succ n ih =>
    unfold digitRun
    rw [h i hi]
    rcases hc : peek i with e | c
    · rfl
    · by_cases hd : isDigit c = true
      · simp only [hd, if_true, ih (hi.digit hc hd)]
      · simp [hd]

theorem digitRun1_congr (h : ∀ j, Reached peek j → peek' j = peek j) (fuel : Nat) {i : Nat} (hi : Reached peek i) :
    digitRun1 peek' fuel i = digitRun1 peek fuel i := by
  unfold digitRun1
  rw [digitRun_congr h fuel hi]

/-- A digit run that must not be empty is a digit run. -/
theorem digitRun1_ok {fuel i : Nat} {ds : List Nat} (h : digitRun1 peek fuel i = .ok ds) :
    digitRun peek fuel i = .ok ds := by
  unfold digitRun1 at h
  split at h <;> simp_all

theorem scanInt_congr (h : ∀ j, Reached peek j → peek' j = peek j) (fuel : Nat) {i : Nat} (hi : Reached peek i) :
    scanInt peek' fuel i = scanInt peek fuel i := by
  unfold scanInt
  rw [h i hi]
  rcases hc : peek i with e | c
  · rfl
  · by_cases hd : isDigit c = true
    · simp only [h _ (hi.digit hc hd), digitRun_congr h fuel hi]
    · simp only [Bool.not_eq_true] at hd
      simp only [hd, if_true]

theorem scanInt_reached {fuel i n : Nat} {x : Accum} (hi : Reached peek i) (h : scanInt peek fuel i = .ok (x, n)) :
    Reached peek n := by
  unfold scanInt at h
  split at h
  · cases h
  · next c hc =>
    split at h
    · cases h
    · next hd =>
      split at h
      · split at h
        · cases h
        · split at h
          · cases h
          · cases h; exact hi.digit hc (by simpa using hd)
      · split at h
        · cases h
        · next hr => cases h; exact hi.run hr

theorem scanFrac_congr (h : ∀ j, Reached peek j → peek' j = peek j) (fuel : Nat) (x : Accum) {i : Nat}
    (hi : Reached peek i) : scanFrac peek' fuel x i = scanFrac peek fuel x i := by
  unfold scanFrac
  rw [h i hi]
  rcases hc : peek i with e | c
  · rfl
  · by_cases hd : c = some chDot
    · subst hd
      simp only [if_true, digitRun1_congr h fuel (hi.succ hc (by decide))]
    · simp only [hd, if_false]

theorem scanFrac_reached {fuel i n : Nat} {x y : Accum} (hi : Reached peek i)
    (h : scanFrac peek fuel x i = .ok (y, n)) : Reached peek n := by
  unfold scanFrac at h
  split at h
  · cases h
  · next c hc =>
    split at h
    · next hd =>
      subst hd
      split at h
      · cases h
      · next hr => cases h; exact (hi.succ hc (by decide)).run (digitRun1_ok hr)
    · cases h; exact hi

theorem scanExp_congr (h : ∀ j, Reached peek j → peek' j = peek j) (fuel : Nat) {i : Nat} (hi : Reached peek i) :
    scanExp peek' fuel i = scanExp peek fuel i := by
  unfold scanExp
  rw [h i hi]
  rcases hc : peek i with e | c
  · rfl
  · by_cases hd : c = some chLowerE ∨ c = some chUpperE
    · have h1 : Reached peek (i + 1) := by
        rcases hd with rfl | rfl <;> exact hi.succ hc (by decide)
      simp only [hd, if_true, h _ h1]
      rcases hg : peek (i + 1) with e | g
      · rfl
      · by_cases hs : g = some chPlus ∨ g = some chMinus
        · have h2 : Reached peek (i + 2) := by
            rcases hs with rfl | rfl <;> exact h1.succ hg (by decide)
          simp only [hs, if_true, digitRun1_congr h fuel h2]
        · simp only [hs, if_false, digitRun1_congr h fuel h1]
    · simp only [hd, if_false]

/-- Two texts that agree on every byte the cursor can come to scan alike, with success or with an error. -/
theorem scanText_congr (h : ∀ j, Reached peek j → peek' j = peek j) (fuel : Nat) :
    scanText peek' fuel = scanText peek fuel := by
  have h0 := Reached.zero peek
  have hsign : scanSign peek' = scanSign peek := by unfold scanSign; rw [h 0 h0]
  unfold scanText
  rw [hsign]
  rcases hn : scanSign peek with e | neg
  · rfl
  · have hi : Reached peek neg.toNat := by
      cases neg with
      | false => exact h0
      | true =>
        unfold scanSign at hn
        split at hn
        · cases hn
        · next c hc =>
          have : c = some chMinus := by simpa using hn
          subst this
          exact h0.succ hc (by decide)
    simp only [scanInt_congr h fuel hi]
    rcases hx : scanInt peek fuel neg.toNat with e | ⟨x, i⟩
    · rfl
    · have hi := scanInt_reached hi hx
      simp only [scanFrac_congr h fuel x hi]
      rcases hy : scanFrac peek fuel x i with e | ⟨y, j⟩
      · rfl
      · simp only [scanExp_congr h fuel (scanFrac_reached hi hy)]

/-! ### The text of a state -/

/-- An offset the cursor can come to, and in bounded mode is not the end, is an address of the text. -/
theorem State.inText_of_reached {s : State} {m : ScanMode} {j : Nat} (h : Reached (s.peek m) j)
    (hb : ¬(m = .bounded ∧ s.boundedLength ≤ j)) : s.inText m (s.unsigned .addr + j) := by
  refine ⟨by omega, fun hm => ?_, fun b h1 h2 => ?_⟩
  · have : ¬ s.boundedLength ≤ j := fun hl => hb ⟨hm, hl⟩
    unfold State.boundedLength at this
    omega
  · obtain ⟨c, hc, hk⟩ := h (b - s.unsigned .addr) (by omega)
    refine ⟨c, ?_, hk⟩
    unfold State.peek at hc
    split at hc
    · cases hc
    · rw [show s.unsigned .addr + (b - s.unsigned .addr) = b by omega] at hc
      split at hc <;> simp_all

/-- States that agree on ADDR, on END in bounded mode, on the text and on the parameters scan alike. -/
theorem State.scan_congr {s s' : State} {m : ScanMode} (ha : s'.unsigned .addr = s.unsigned .addr)
    (he : m = .bounded → s'.unsigned .endAddr = s.unsigned .endAddr) (hp : s'.params = s.params)
    (ht : ∀ a, s.inText m a → s'.seenByte a = s.seenByte a) : s'.scan m = s.scan m := by
  unfold State.scan State.scanFuel
  rw [hp]
  refine scanText_congr (fun j hj => ?_) _
  have hl : m = .bounded → s'.boundedLength = s.boundedLength := fun hm => by
    unfold State.boundedLength; rw [ha, he hm]
  unfold State.peek
  by_cases hb : m = .bounded ∧ s.boundedLength ≤ j
  · rw [if_pos hb, if_pos ⟨hb.1, (hl hb.1).symm ▸ hb.2⟩]
  · rw [if_neg hb, if_neg fun h : m = .bounded ∧ s'.boundedLength ≤ j => hb ⟨h.1, hl h.1 ▸ h.2⟩]
    unfold State.portRead
    rw [ha, hp, ht _ (State.inText_of_reached hj hb)]

end Sys2Proof.Machine
end

