-- ==== Sys2Proof/Tests/Slice0.lean ====
section
/-! SUPPORT. The model's own tests: well-formedness, decoding, one or two steps of each command on values of the spec's
own vectors, and a witness for the hypotheses of each statement. -/

namespace Sys2Proof.Tests

set_option Elab.async false

open Sys2Proof Sys2Proof.Machine

/-! ### Well-formedness and decoding -/

/-- 30_encoding.md R51 d: the one check of `Instr.wf`, at its boundary. -/
theorem test_wf_pow5_index : (Instr.pow5 .neg 9).wf = false ∧ (Instr.pow5 .neg 8).wf = true := by decide

/-- 30_encoding.md R45: `0000000000000000 KKKK 0 T M W OOOOOOOO` written out for each opcode. -/
theorem test_decode_written_words :
    decode 0b00000000000000000000000000000000 = .ok .nop ∧
    decode 0b00000000000000000000000000000001 = .ok .mul64 ∧
    decode 0b00000000000000000000000000000010 = .ok .mul128 ∧
    decode 0b00000000000000000111010000000011 = .ok (.pow5 .neg 7) ∧
    decode 0b00000000000000000000001000010000 = .ok (.scan .nul) ∧
    decode 0b00000000000000000000000000010001 = .ok .scale ∧
    decode 0b00000000000000000000000100010010 = .ok (.assemble .binary32) ∧
    decode 0b00000000000000000000001000010011 = .ok (.parse .binary64 .nul) ∧
    decode 0b00000000000000000000000100010011 = .ok (.parse .binary32 .bounded) ∧
    decode 0b00000000000000000000000000100000 = .ok (.extract .binary64) ∧
    decode 0b00000000000000000000000100100001 = .ok (.format .binary32) := by decide +kernel

/-- 60_exceptions.md §5 and 95_test_vectors.md §2: illegal words by their reasons. -/
theorem test_decode_illegal_words :
    decode 0x00000004 = .error .unusedOpcode ∧ decode 0x00009003 = .error .entryIndex ∧
    decode 0x00000101 = .error .unusedField ∧ decode 0x00000803 = .error .reservedBits ∧
    decode 0x00010000 = .error .reservedBits ∧ decode 0x0000000100000000 = .error .highBits := by decide +kernel

/-- 30_encoding.md R50 (full words): the encoder. -/
theorem test_encode_words :
    encode (.pow5 .neg 8) = 0x8403 ∧ encode (.parse .binary32 .nul) = 0x313 ∧ encode (.scan .bounded) = 0x10 ∧
    decodeTableWord 32 0x313 = some (.parse .binary32 .nul) ∧ decodeTableWord 8 0x03 = some (.pow5 .pos 0) := by
  decide +kernel

/-! ### Helpers -/

/-- The next state of an outcome. -/
def nextOf : Host.Outcome State Fault Refusal → Option State
  | .next t => some t
  | _ => none

/-- The refusal of an outcome. -/
def refusalOf : Host.Outcome State Fault Refusal → Option Refusal
  | .refused r => some r
  | _ => none

/-- What a word does as the first command after reset, from a state prepared by the host. -/
def ran (w : Nat) (s : State) : Option State := nextOf (step (s.withFetchWord 32 w))

/-- Reset with some data registers written. -/
def withRegs (l : List (DataReg × Word)) : State := l.foldl (fun s x => s.setReg x.1 x.2) State.reset

/-- A state with text at an address, ADDR and END around it. -/
def withText (a : Nat) (t : List Byte) : State :=
  { withRegs [(.addr, BitVec.ofNat 64 a), (.endAddr, BitVec.ofNat 64 (a + t.length))] with
    mem := (t.zip (List.range' a t.length)).map fun x => (x.2, x.1) }

/-- "123.456e2". -/
def sampleText : List Byte := [0x31, 0x32, 0x33, 0x2E, 0x34, 0x35, 0x36, 0x65, 0x32]

/-- The bytes of an ASCII text (00_scope.md R10). -/
def ascii (cs : List Char) : List Byte := cs.map fun c => BitVec.ofNat 8 c.toNat

/-- BITS, POS and STATUS after PARSE.F64 of a text at 0x1000, from BITS = 0x1234. -/
def parsed (cs : List Char) : Option (Word × Word × Word) :=
  (ran 0x13 ((withText 0x1000 (ascii cs)).setReg .bits 0x1234)).map fun t => (t.reg .bits, t.reg .pos, t.status.word)

/-- The memory, LEN and POS after FORMAT.F64 of a pattern to 0x100. -/
def formatted (b : Word) : Option (List Byte × Word × Word) :=
  (ran 0x21 (withRegs [(.bits, b), (.addr, 0x100)])).map fun t => (t.mem.map (·.2), t.reg .len, t.reg .pos)

/-- A state in which a command is running. -/
def running (w : Word) (ops : List HostOp) (s : State) : State :=
  { s with cmd := w, status := ⟨true, false, .ok, false⟩, inbox := ops }

/-! ### Commands, on the spec's vectors -/

/-- 46_api.md R111: STATUS = 0x2. -/
theorem test_nop_status : (ran 0x0 State.reset).map (fun t => (t.status.word, t.cmd)) = some (0x2, 0x0) := by
  decide +kernel

/-- 95_test_vectors.md §2: 0x123456789ABCDEF0 × 0x0FEDCBA987654321. -/
theorem test_mul64_product :
    (ran 0x1 (withRegs [(.aLo, 0x123456789ABCDEF0), (.bLo, 0x0FEDCBA987654321), (.aHi, 7)])).map
      (fun t => (t.reg .pHi, t.reg .pLo, t.flags.word)) = some (0x0121FA00AD77D742, 0x2236D88FE5618CF0, 0) := by
  decide +kernel

/-- 95_test_vectors.md §2: 2^127 × (2^128 − 1), RB without SB. -/
theorem test_mul128_round_without_sticky :
    (ran 0x2 (withRegs [(.aHi, 0x8000000000000000), (.bHi, 0xFFFFFFFFFFFFFFFF), (.bLo, 0xFFFFFFFFFFFFFFFF)])).map
      (fun t => (t.reg .pHi, t.reg .pLo, t.flags.word)) = some (0x7FFFFFFFFFFFFFFF, 0xFFFFFFFFFFFFFFFF, 0x2) := by
  decide +kernel

/-- 95_test_vectors.md §2: (2^127 + 1)², the cross terms reach bit 128 and SB is set. -/
theorem test_mul128_cross_terms :
    (ran 0x2 (withRegs [(.aHi, 0x8000000000000000), (.aLo, 1), (.bHi, 0x8000000000000000), (.bLo, 1)])).map
      (fun t => (t.reg .pHi, t.reg .pLo, t.flags.word)) = some (0x4000000000000000, 1, 0x4) := by
  decide +kernel

/-- 95_test_vectors.md §2: `POW5 NEG, 8`. -/
theorem test_pow5_neg8 :
    (ran 0x8403 State.reset).map (fun t => (t.reg .bHi, t.reg .bLo, t.reg .bexp)) =
      some (0xC0314325637A1939, 0xFA911155FEFB5308, 0xFFFFFFFFFFFFFD2E) := by
  decide +kernel

/-- 41_pow5_rom.md R62: a row marked † holds `lo + 1` under NEAREST. -/
theorem test_pow5_nearest :
    (ran 0x8003 { State.reset with params := ⟨64, .nearest, []⟩ }).map (fun t => (t.reg .bHi, t.reg .bLo, t.reg .bexp)) =
      some (0xAA7EEBFB9DF9DE8D, 0xDDBB901B98FEEAB8, 467) := by
  decide +kernel

/-- 42_scanner.md R70: "123.456e2" → MANT = 123456, EXP10 = −1, N = 0, POS = ADDR + 9. -/
theorem test_scan_example :
    (ran 0x10 (withText 0x1000 sampleText)).map
      (fun t => (t.reg .mant, t.reg .exp10, t.flags.n, t.reg .pos, t.status.word)) =
      some (123456, 0xFFFFFFFFFFFFFFFF, false, 0x1009, 0x2) := by
  decide +kernel

/-- 60_exceptions.md §5: `SCAN.NUL` at 2^64 − 1 with '1' there reads on to 2^64 and faults with POS = 0. -/
theorem test_scan_faults_past_the_top :
    (ran 0x210 { withRegs [(.addr, 0xFFFFFFFFFFFFFFFF), (.pos, 9)] with mem := [(2 ^ 64 - 1, 0x31)] }).map
      (fun t => (t.status.word, t.reg .pos, t.reg .mant)) = some (0x42, 0, 0) := by
  decide +kernel

/-- 43_scaler.md §4: 123456 × 10^−1. -/
theorem test_scale_truncated :
    (ran 0x11 (withRegs [(.mant, 123456), (.exp10, 0xFFFFFFFFFFFFFFFF)])).map
      (fun t => (t.reg .pHi, t.reg .pLo, t.signed .bexp, t.flags.word)) =
      some (0xC0E6666666666666, 0x6666666666666665, -114, 0x6) := by
  decide +kernel

/-- 43_scaler.md §4: 12345678901234567 × 10^−400, with several multiplications. -/
theorem test_scale_many_entries :
    (ran 0x11 (withRegs [(.mant, 12345678901234567), (.exp10, BitVec.ofInt 64 (-400))])).map
      (fun t => (t.reg .pHi, t.reg .pLo, t.signed .bexp, t.flags.word)) =
      some (0xCD96BA6ED928077A, 0x986E132430893686, -1403, 0x4) := by
  decide +kernel

/-- 44_assembler.md §3: a tie at the largest normal, odd, carries to +inf. -/
theorem test_assemble_tie_to_infinity :
    (ran 0x12 (withRegs [(.pHi, 0xFFFFFFFFFFFFFC00), (.bexp, 896)])).map (fun t => t.reg .bits) =
      some 0x7FF0000000000000 := by
  decide +kernel

/-- 90_conflicts.md C1: 2^−1074 under the corrected subnormal shift. -/
theorem test_assemble_smallest_subnormal :
    (ran 0x12 (withRegs [(.pHi, 0x8000000000000000), (.bexp, BitVec.ofInt 64 (-1201))])).map (fun t => t.reg .bits) =
      some 1 := by
  decide +kernel

/-- 95_test_vectors.md §4: "4503599627370497.5" under TRUNC. -/
theorem test_parse_conflict_vector :
    (ran 0x13 (withText 0x1000 [0x34, 0x35, 0x30, 0x33, 0x35, 0x39, 0x39, 0x36, 0x32, 0x37, 0x33, 0x37, 0x30, 0x34,
      0x39, 0x37, 0x2E, 0x35])).map (fun t => (t.reg .bits, t.reg .pos)) = some (0x4330000000000001, 0x1012) := by
  decide +kernel

/-- 95_test_vectors.md §7, P4: "01" is an error that leaves BITS. -/
theorem test_parse_error_keeps_bits :
    (ran 0x13 ((withText 0x6000 [0x30, 0x31]).setReg .bits 0x1234)).map
      (fun t => (t.reg .bits, t.reg .pos, t.status.word)) = some (0x1234, 0x6000, 0x12) := by
  decide +kernel

/-- 45_extract_format.md R101: 0.1. -/
theorem test_extract_example :
    (ran 0x20 (withRegs [(.bits, 0x3FB999999999999A)])).map
      (fun t => (t.reg .mant, t.reg .count, t.signed .exp10, t.flags.word)) = some (10000000000000001, 17, -1, 0) := by
  decide +kernel

/-- 45_extract_format.md §5: −inf, with CLASS = 2 and N = 1. -/
theorem test_extract_infinity :
    (ran 0x120 (withRegs [(.bits, 0xDEADBEEFFF800000), (.mant, 5)])).map
      (fun t => (t.reg .mant, t.reg .count, t.flags.word)) = some (0, 0, 0x21) := by
  decide +kernel

/-- 45_extract_format.md §5: −0.0001 → "-0.0001". -/
theorem test_format_fixed_text :
    (ran 0x21 (withRegs [(.bits, 0xBF1A36E2EB1C432D), (.addr, 0x100)])).map
      (fun t => (t.mem.map (·.2), t.reg .len, t.reg .pos)) =
      some ([0x2D, 0x30, 0x2E, 0x30, 0x30, 0x30, 0x31], 7, 0x107) := by
  decide +kernel

/-- 60_exceptions.md §5: "1.5" with MEM_OK false from ADDR + 1. -/
theorem test_format_faults_in_a_hole :
    (ran 0x21 { withRegs [(.bits, 0x3FF8000000000000), (.addr, 0x100)] with
      params := ⟨64, .trunc, [⟨0x101, 0x1FF⟩]⟩ }).map
      (fun t => (t.mem, t.reg .len, t.reg .pos, t.status.word)) = some ([(0x100, 0x31)], 1, 0x101, 0x42) := by
  decide +kernel

/-! ### The scenarios of 46_api.md R113 (95_test_vectors.md §1) -/

/-- "0", "-0" and "0.1". -/
theorem test_parse_source_values :
    parsed ['0'] = some (0x0000000000000000, 0x1001, 0x2) ∧ parsed ['-', '0'] = some (0x8000000000000000, 0x1002, 0x2) ∧
    parsed ['0', '.', '1'] = some (0x3FB999999999999A, 0x1003, 0x2) := by
  decide +kernel

/-- The leading fractional zeros: "0.00000000000000001" and "0.0023051120089116243". -/
theorem test_parse_leading_zeros :
    parsed (['0', '.'] ++ List.replicate 16 '0' ++ ['1']) = some (0x3C670EF54646D497, 0x1013, 0x2) ∧
    parsed ['0', '.', '0', '0', '2', '3', '0', '5', '1', '1', '2', '0', '0', '8', '9', '1', '1', '6', '2', '4', '3'] =
      some (0x3F62E22B9623FB4B, 0x1015, 0x2) := by
  decide +kernel

/-- "01", "1.", ".5" and "1e" are errors that leave BITS. -/
theorem test_parse_source_errors :
    ∀ cs ∈ [['0', '1'], ['1', '.'], ['.', '5'], ['1', 'e']], parsed cs = some (0x1234, 0x1000, 0x12) := by
  decide +kernel

/-- 1.0, 0.5, 1e308, NaN and +infinity. -/
theorem test_format_source_texts :
    formatted 0x3FF0000000000000 = some (ascii ['1'], 1, 0x101) ∧
    formatted 0x3FE0000000000000 = some (ascii ['0', '.', '5'], 3, 0x103) ∧
    formatted 0x7FE1CCF385EBC8A0 = some (ascii ['1', 'e', '+', '3', '0', '8'], 6, 0x106) ∧
    formatted 0x7FF8000000000000 = some (ascii ['n', 'u', 'l', 'l'], 4, 0x104) ∧
    formatted 0x7FF0000000000000 = some (ascii ['n', 'u', 'l', 'l'], 4, 0x104) := by
  decide +kernel

/-- The smallest subnormal, BITS = 1: its text, and PARSE of it. -/
theorem test_round_trip_smallest_subnormal :
    let text := ['4', '.', '9', '4', '0', '6', '5', '6', '4', '5', '8', '4', '1', '2', '4', '6', '5', '4', 'e', '-', '3',
      '2', '4']
    formatted 1 = some (ascii text, 23, 0x117) ∧ parsed text = some (1, 0x1017, 0x2) := by
  decide +kernel

/-- 90_conflicts.md C3: under TRUNC the tie "4503599627370497.5" goes to the odd pattern, so "cross-parser equivalence" and
the "round-to-even boundary" do not hold of every literal. -/
theorem test_tie_is_not_correctly_rounded :
    let l : Literal := ⟨false, [4, 5, 0, 3, 5, 9, 9, 6, 2, 7, 3, 7, 0, 4, 9, 7], some [5], none⟩
    ¬ ParsesCorrectlyRounded .binary64 .bounded (withText 0x1000 l.text) l := by
  intro l
  rintro ⟨t, ht, -, -, h⟩
  have hb : unsignedPattern .binary64 (t.reg .bits).toNat = 0x4330000000000001 := by
    have : (nextOf (exec (.parse .binary64 .bounded) (withText 0x1000 l.text))).map
        (fun t => unsignedPattern .binary64 (t.reg .bits).toNat) = some 0x4330000000000001 := by decide +kernel
    rw [ht] at this
    exact Option.some.inj this
  have h2 := (h 0x4330000000000002 (by decide +kernel)).2
  have hd : ∀ b d : ℕ, 0x4330000000000000 + d = b → d < 2 ^ 52 → magnitude .binary64 b = 2 ^ 52 + d := by
    rintro b d rfl hd
    have h1 : (0x4330000000000000 + d) / 2 ^ 52 = 1075 := by omega
    have h2 : (0x4330000000000000 + d) % 2 ^ 52 = d := by omega
    simp only [magnitude, FloatFormat.fracBits, FloatFormat.bias, h1, h2]
    norm_num
  have hm : l.magnitude = 4503599627370497 + 1 / 2 := by
    simp [l, Literal.magnitude, Literal.fracDigits, Literal.expValue, digitsNumber, Nat.ofDigits_cons]
    norm_num
  rw [hb, hm, hd _ 1 rfl (by norm_num), hd _ 2 rfl (by norm_num)] at h2
  have := h2 (by norm_num) (by norm_num)
  omega

/-! ### The host's side -/

/-- 95_test_vectors.md §8: `wr FLAGS, 0xFFFFFFFFFFFFFFFF`, then `rd FLAGS`. -/
theorem test_flags_write :
    (nextOf (step { State.reset with inbox := [.write 8 0x10 0xFFFFFFFFFFFFFFFF] })).map (·.readWindow 0x10) =
      some 0x37 := by
  decide +kernel

/-- 95_test_vectors.md §7, P7: a write while BUSY sets OVR and nothing else. -/
theorem test_write_while_busy :
    (nextOf (step (running 0x11 [.write 8 0x48 7] (withRegs [(.mant, 5)])))).map
      (fun t => (t.reg .mant, t.status.word)) = some (5, 0x101) := by
  decide +kernel

/-- 60_exceptions.md §5: `wr CMD, 0x9003` is ILLEGAL_COMMAND; CMD reads what was written. -/
theorem test_illegal_issue :
    (nextOf (step { State.reset with inbox := [.write 8 0 0x9003] })).map (fun t => (t.cmd, t.status.word)) =
      some (0x9003, 0x22) := by
  decide +kernel

/-- 10_state.md R14: a four-byte access is refused. -/
theorem test_misshapen_access :
    refusalOf (step { State.reset with inbox := [.read 4 0x08] }) = some (.registerAccess 4 0x08) := by
  decide +kernel

/-! ### Witnesses: states and operands that meet the hypotheses of each statement -/

theorem witness_DecodeAndEncodeAgree :
    (Instr.pow5 .neg 8).wf = true ∧ decode 0x8403 = .ok (.pow5 .neg 8) := by decide +kernel

theorem witness_NoTwoRowsMatchOneWord :
    (⟨"POW5", 0x00000003, 0xFFFF0BFF⟩ : TableRow) ∈ opcodeTable ∧
      TableRow.hits ⟨"POW5", 0x00000003, 0xFFFF0BFF⟩ 0x8403 :=
  ⟨by decide, by unfold TableRow.hits; decide⟩

theorem witness_StepRunsTheIssuedCommand :
    (let s := running 0x11 [] State.reset
     s.status.busy = true ∧ s.inbox = [] ∧ decode s.cmd = .ok .scale) ∧
    (let s := running 0x11 [.wait] State.reset
     s.status.busy = true ∧ s.inbox = .wait :: [] ∧ decode s.cmd = .ok .scale) ∧
    0x121 < 2 ^ 32 ∧ decode (BitVec.ofNat 64 0x121) = .ok (.format .binary32) := by
  decide +kernel

theorem witness_CmdWriteIssuesALegalWord :
    let s : State := { State.reset with inbox := [.write 8 0x00 0x213, .wait] }
    s.status.busy = false ∧ decode 0x213 = .ok (.parse .binary64 .nul) ∧ s.inbox = .write 8 0x00 0x213 :: [.wait] := by
  decide +kernel

theorem witness_IllegalCmdWriteChangesOnlyStatus :
    let s : State := { State.reset with inbox := [.write 8 0x00 0x9003] }
    s.status.busy = false ∧ decode 0x9003 = .error .entryIndex ∧ s.inbox = .write 8 0x00 0x9003 :: [] := by
  decide +kernel

theorem witness_WriteWhileBusySetsOnlyOverrun :
    (running 0x11 [.write 8 0 0, .wait] State.reset).status.busy = true ∧
      (running 0x11 [.write 8 0 0, .wait] State.reset).inbox = .write 8 Reg.cmd.offset 0 :: [.wait] := by decide +kernel

theorem witness_HostWriteReachesItsDataRegister :
    let s : State := { State.reset with inbox := [.write 8 0x88 5] }
    s.status.busy = false ∧ s.inbox = .write 8 (Reg.data .len).offset 5 :: [] := by decide +kernel

theorem witness_FlagsWriteKeepsTheListedBits :
    let s : State := { State.reset with inbox := [.write 8 0x10 0x48] }
    s.status.busy = false ∧ s.inbox = .write 8 0x10 0x48 :: [] := by decide +kernel

/-- The first and the last reserved offset, both clauses. -/
theorem witness_ReservedOffsetsReadZeroAndIgnoreWrites :
    ∀ offset ∈ [0x90, 0xF8], 0x90 ≤ offset ∧ offset ≤ 0xF8 ∧ offset % 8 = 0 ∧
      ({ State.reset with inbox := [.write 8 offset 1] } : State).inbox = .write 8 offset 1 :: [] ∧
      ({ State.reset with inbox := [.read 8 offset] } : State).inbox = .read 8 offset :: [] := by decide +kernel

theorem witness_StatusIsReadOnlyAndLaidOut :
    let s : State := { State.reset with inbox := [.write 8 0x08 0xFF] }
    s.status.busy = false ∧ s.inbox = .write 8 0x08 0xFF :: [] := by decide +kernel

theorem witness_HostReadReturnsTheRegister :
    (running 0x11 [.read 8 0x88] State.reset).inbox = .read 8 (Reg.data .len).offset :: [] ∧
      ∀ offset ∈ [0x00, 0x08, 0x10], (running 0x11 [.read 8 offset] State.reset).inbox = .read 8 offset :: [] := by
  decide +kernel

/-- Each way an access can be misshapen: a size below and above 8, and an offset next to a register's. -/
theorem witness_MisshapenAccessIsRefused :
    ∀ x ∈ [(4, 0x08), (16, 0x08), (8, 0x0C), (8, 0x07)], (x.1 ≠ 8 ∨ x.2 % 8 ≠ 0) ∧
      ({ State.reset with inbox := [.write x.1 x.2 1] } : State).inbox = .write x.1 x.2 1 :: [] ∧
      ({ State.reset with inbox := [.read x.1 x.2] } : State).inbox = .read x.1 x.2 :: [] := by decide +kernel

theorem witness_WaitEndsWithDoneAndIdleDoesNothing :
    (({ State.reset with inbox := [.wait], status := ⟨false, true, .ok, false⟩ } : State).status.done = true ∧
      ({ State.reset with inbox := [.wait], status := ⟨false, true, .ok, false⟩ } : State).inbox = .wait :: []) ∧
    State.reset.status.busy = false ∧ State.reset.inbox = [] := by decide +kernel

theorem witness_ResetClearsTheControlRegisters :
    (running 0x21 [.reset] (withRegs [(.bits, 1)])).inbox = .reset :: [] ∧ 18 ≤ 31 ∧ 31 < 32 := by decide +kernel

theorem witness_ResetKeepsMemoryButForAbandonedText :
    Memory.wf (running 0x21 [.reset] State.reset).mem = true ∧
      (running 0x21 [.reset] State.reset).inbox = .reset :: [] := by decide +kernel

theorem witness_IdleHostStoreIsSeenByTheEngine :
    let s : State := { withText 0x10 sampleText with inbox := [.memWrite (2 ^ 64 - 1) 0] }
    Memory.wf s.mem = true ∧ s.status.busy = false ∧ s.raced = [] ∧ portAccess s.params (2 ^ 64 - 1) = .ok () ∧
      s.inbox = .memWrite (2 ^ 64 - 1) 0 :: [] := by decide +kernel

/-- Each clause: FORMAT running, an idle engine, and another command running. -/
theorem witness_HostLoadWhileFormatRunsIsOldOrNew :
    (let s := running 0x21 [.memRead 0] State.reset
     portAccess s.params 0 = .ok () ∧ s.inbox = .memRead 0 :: [] ∧ s.status.busy = true ∧
       decode s.cmd = .ok (.format .binary64)) ∧
    (let s : State := { State.reset with inbox := [.memRead 0] }
     portAccess s.params 0 = .ok () ∧ s.inbox = .memRead 0 :: [] ∧ s.status.busy = false) ∧
    (let s := running 0x10 [.memRead 0] State.reset
     s.inbox = .memRead 0 :: [] ∧ s.status.busy = true ∧ ∀ f, decode s.cmd ≠ .ok (.format f)) := by
  refine ⟨by decide +kernel, by decide +kernel, rfl, rfl, fun f => ?_⟩
  cases f <;> decide +kernel

/-- A host store while SCAN runs, and FORMAT over a byte that the host stored while it runs. -/
theorem witness_RacedBytesAreFree :
    (let s := running 0x10 [.memWrite 0x10 1] State.reset
     Memory.wf s.mem = true ∧ s.status.busy = true ∧ portAccess s.params 0x10 = .ok () ∧
       s.inbox = .memWrite 0x10 1 :: []) ∧
    ∃ s t, step (running 0x21 [.memWrite 0 1] State.reset) = .next s ∧ Memory.wf s.mem = true ∧
      raceAt s.raced s.outputBase = some 0 ∧ s.mem.read s.outputBase = 1 ∧ 0 < (s.outputText .binary64).length ∧
      exec (.format .binary64) s = .next t := by
  refine ⟨by decide +kernel, (running 0x21 [] State.reset).storeByte 0 1, ?_⟩
  obtain ⟨u, c, h, _⟩ := exec_cases (.format .binary64) ((running 0x21 [] State.reset).storeByte 0 1)
  exact ⟨_, rfl, by decide +kernel, by decide +kernel, by decide +kernel, by decide +kernel, h⟩

theorem witness_EveryCommandCompletesWithItsCodes : ∀ k < 9, (Instr.pow5 .pos k).wf = true := by decide

theorem witness_CommandsWriteOnlyTheirRegisters :
    (Instr.scan .nul).wf = true ∧ ∃ t, exec (.scan .nul) (withText 0x10 sampleText) = .next t := by
  obtain ⟨u, c, h, _⟩ := exec_cases (.scan .nul) (withText 0x10 sampleText)
  exact ⟨by decide, _, h⟩

/-- An error of each code a command of the statement can end with, and a command without memory effect. -/
theorem witness_ErrorsWriteOnlyTheRecordedValues :
    (nextOf (exec (.scan .bounded) State.reset)).map (·.status.cause) = some .invalidArgument ∧
    (nextOf (exec .scale (withRegs [(.exp10, 512)]))).map (·.status.cause) = some .operandRange ∧
    (nextOf (exec (.format .binary64) { State.reset with params := ⟨64, .trunc, [⟨0, 0⟩]⟩ })).map (·.status.cause) =
      some .memoryFault ∧ ∀ f, Instr.scan .bounded ≠ .format f := by
  refine ⟨by decide +kernel, by decide +kernel, by decide +kernel, fun f => by simp⟩

theorem witness_OnlyFormatWritesMemory :
    Memory.wf (withText 0x10 sampleText).mem = true ∧
      (∃ t, exec (.format .binary64) (withText 0x10 sampleText) = .next t) ∧
      (0x0F < (withText 0x10 sampleText).outputBase ∧ (withText 0x10 sampleText).outputBase + 24 ≤ 0x28) := by
  obtain ⟨u, c, h, _⟩ := exec_cases (.format .binary64) (withText 0x10 sampleText)
  exact ⟨by decide +kernel, ⟨_, h⟩, by decide +kernel⟩

/-- Two states that differ in a register and past their text, and agree for a SCAN that ends with an error; and two that
agree for FORMAT, with a byte of its text. -/
theorem witness_ResultsDependOnlyOnWhatIsRead :
    (let s := withText 0x10 [0x30, 0x31]
     let s' := (s.setReg .bits 5).setMem (s.mem.write 0x12 7)
     AgreeFor (.scan .bounded) s s' ∧ s.mem ≠ s'.mem ∧
       (nextOf (exec (.scan .bounded) s)).map (·.status.cause) = some .invalidArgument) ∧
    (let s := withRegs [(.addr, 0x10)]
     let s' := withText 0x10 sampleText
     AgreeFor (.format .binary64) s s' ∧ s.mem ≠ s'.mem ∧ Memory.wf s.mem = true ∧ Memory.wf s'.mem = true ∧
       s.raced = [] ∧ s'.raced = [] ∧ s.outputBase ≤ 0x10 ∧
       (nextOf (exec (.format .binary64) s)).map (fun t => decide (0x10 < s.outputBase + t.unsigned .len)) = some true) := by
  refine ⟨⟨⟨by decide +kernel, by simp [readsFlags], ?_, rfl⟩, by decide +kernel, by decide +kernel⟩,
    ⟨by decide +kernel, by simp [readsFlags], by simp [readsText], rfl⟩, by decide +kernel⟩
  intro m hm a ha
  cases hm
  have hlt : a < 0x12 := ha.2.1 rfl
  exact Memory.read_write_other _ (by omega)

theorem witness_StepKeepsTheInvariant : State.reset.Inv ∧ step State.reset = .next State.reset :=
  ⟨by constructor <;> simp [State.reset, Status.reset, Memory.wf], rfl⟩

theorem witness_StepKeepsTheParametersAndTheRom :
    (nextOf (step (running 0x11 [] (withRegs [(.mant, 1), (.exp10, 5)])))).map (·.status.cause) = some .ok := by
  decide +kernel

theorem witness_Pow5ReadsOneRomEntry : (0 ≤ 8 ∧ 8 ≤ 8) ∧ (pow5 .trunc .pos 8).exp = 467 := by decide

/-- The literal "123.456e2". -/
def sampleLiteral : Literal := ⟨false, [1, 2, 3], some [4, 5, 6], some ⟨false, none, [2]⟩⟩

/-- The literal "123". -/
def sampleInteger : Literal := ⟨false, [1, 2, 3], none, none⟩

theorem textIs_sample : TextIs (withText 0x10 sampleText) .nul sampleLiteral :=
  ⟨by decide +kernel, some 0, by decide +kernel, by unfold Literal.endsBefore; decide⟩

theorem textIs_integer : TextIs (withText 0x10 [0x31, 0x32, 0x33]) .bounded sampleInteger :=
  ⟨by decide +kernel, none, by decide +kernel, by unfold Literal.endsBefore; decide⟩

theorem witness_ScanReadsALiteral :
    (withText 0x10 sampleText).params.wf = true ∧ sampleLiteral.wf = true ∧
      TextIs (withText 0x10 sampleText) .nul sampleLiteral :=
  ⟨by decide, by decide, textIs_sample⟩

theorem witness_ScanAcceptsOnlyLiterals :
    (nextOf (exec (.scan .nul) (withText 0x10 sampleText))).map (·.status.cause) = some .ok ∧
      (nextOf (exec (.parse .binary32 .nul) (withText 0x10 sampleText))).map (·.status.cause) = some .ok := by
  decide +kernel

theorem witness_ScanResultsAreInRange :
    (nextOf (exec (.scan .bounded) (withText 0x10 sampleText))).map (·.status.cause) = some .ok := by decide +kernel

theorem witness_ScanIsExactOnShortLiterals :
    (withText 0x10 sampleText).params.wf = true ∧ sampleLiteral.wf = true ∧
      TextIs (withText 0x10 sampleText) .nul sampleLiteral ∧ sampleLiteral.significant.length ≤ 17 ∧
      |sampleLiteral.expValue - sampleLiteral.fracDigits.length| ≤ 400 :=
  ⟨by decide, by decide, textIs_sample, by decide, by decide⟩

theorem witness_BoundedAndNulModesAgree :
    (withText 0x10 sampleText).unsigned .addr ≤ (withText 0x10 sampleText).unsigned .endAddr ∧
      (withText 0x10 sampleText).portRead ((withText 0x10 sampleText).unsigned .endAddr) = .ok 0 ∧
      isDigit (some 0) = false ∧ (0 : Byte) ≠ chMinus ∧ (0 : Byte) ≠ chPlus ∧ (0 : Byte) ≠ chDot ∧
      (0 : Byte) ≠ chLowerE ∧ (0 : Byte) ≠ chUpperE := by decide +kernel

/-- A memory that differs from the state's only outside the text and the byte after it. -/
theorem witness_ScanReadsNoByteOutsideItsText :
    (withText 0x10 sampleText).params.wf = true ∧
      (nextOf (exec (.scan .nul) (withText 0x10 sampleText))).map (fun t => (t.status.cause, t.unsigned .pos)) =
        some (.ok, 0x19) ∧
      ∀ a, 0x10 ≤ a → a ≤ 0x19 →
        Memory.read ((withText 0x10 sampleText).mem.write 0x1A 1) a = (withText 0x10 sampleText).mem.read a := by
  refine ⟨by decide, by decide +kernel, fun a _ h => Memory.read_write_other _ (by omega)⟩

/-- A text of each grammar error, the last four with a hole right after the violation: "x", "01", "1.x", "1ex", "1e+x". -/
theorem witness_TextFaultIsTheFirstUnreadableByte_errors :
    (withText 0x10 [0x78]).GrammarError .nul ∧
    (let at' (t : List Byte) : State := { withText 0x10 t with params := ⟨64, .trunc, [⟨0x10 + t.length, 0x100⟩]⟩ }
     (at' [0x30, 0x31]).GrammarError .nul ∧ (at' [0x31, 0x2E, 0x78]).GrammarError .nul ∧
     (at' [0x31, 0x65, 0x78]).GrammarError .nul ∧ (at' [0x31, 0x65, 0x2B, 0x78]).GrammarError .nul ∧
     ∀ t ∈ [[0x30, 0x31], [0x31, 0x2E, 0x78], [0x31, 0x65, 0x78], [0x31, 0x65, 0x2B, 0x78]],
       (nextOf (exec (.parse .binary64 .nul) (at' t))).map (·.status.cause) = some .invalidArgument) :=
  ⟨.noInteger false (some 0x78) (by unfold State.textBegins; decide +kernel) (by decide +kernel) (by decide) (by decide),
   .leadingZero false (some 0x31) (by unfold State.textBegins; decide +kernel) (by decide +kernel) (by decide),
   .noFraction ⟨false, [1], none, none⟩ (some 0x78) rfl rfl rfl (by unfold State.textBegins; decide +kernel)
     (by decide +kernel) (by decide),
   .noExponent ⟨false, [1], none, none⟩ false (some 0x78) rfl rfl (by unfold State.textBegins; decide +kernel)
     (by decide +kernel) (by decide),
   .noSignedExponent ⟨false, [1], none, none⟩ false false (some 0x78) rfl rfl
     (by unfold State.textBegins; decide +kernel) (by decide +kernel) (by decide),
   by decide +kernel⟩

/-- The first two clauses: a fault after two readable bytes, and one of the first byte. -/
theorem witness_TextFaultIsTheFirstUnreadableByte :
    (nextOf (exec (.scan .nul) { withText 0x10 sampleText with params := ⟨64, .trunc, [⟨0x12, 0x12⟩]⟩ })).map
      (·.status.cause) = some .memoryFault ∧
    portAccess ⟨4, .trunc, []⟩ ((withText 0x10 sampleText).unsigned .addr) = .error (.memoryFault 0) ∧
    0 < (withText 0x10 sampleText).boundedLength := by decide +kernel

/-- The most multiplications, and none. -/
theorem witness_ScaleApproximatesFromBelow :
    1 ≤ multiplications 511 ∧
    ((withRegs [(.mant, 1)]).reg .mant ≠ 0 ∧ multiplications ((withRegs [(.mant, 1)]).signed .exp10).natAbs = 0) ∧
    (withRegs [(.mant, 1), (.exp10, BitVec.ofInt 64 (-511))]).reg .mant ≠ 0 ∧
      ((withRegs [(.mant, 1), (.exp10, BitVec.ofInt 64 (-511))]).signed .exp10).natAbs ≤ 511 ∧
      (withRegs [(.mant, 1), (.exp10, BitVec.ofInt 64 (-511))]).params.rounding = .trunc := by decide +kernel

theorem witness_ScaleExponentIsBounded :
    (withRegs [(.mant, 1), (.exp10, 511)]).reg .mant ≠ 0 ∧
      ((withRegs [(.mant, 1), (.exp10, 511)]).signed .exp10).natAbs ≤ 511 := by decide +kernel

/-- Both clauses at their bounds: q = 0 and 63, and the steps from 0 to −1 and from 255 to 511. -/
theorem witness_ScaleByOneIsExact :
    ((withRegs [(.mant, 7)]).reg .mant ≠ 0 ∧ (withRegs [(.mant, 7)]).signed .exp10 = 0) ∧
    (withRegs [(.mant, 7), (.exp10, 63)]).signed .exp10 = 63 ∧
    (0 < 2 ^ 0 ∧ (withRegs [(.mant, 7), (.exp10, BitVec.ofInt 64 (-1))]).signed .exp10 = -1) ∧
    255 < 2 ^ 8 ∧ (withRegs [(.mant, 7), (.exp10, 255)]).signed .exp10 = 255 ∧
      (withRegs [(.mant, 7), (.exp10, 511)]).signed .exp10 = 255 + 256 := by decide +kernel

theorem witness_ScaleOfZeroIsZero :
    (withRegs [(.exp10, 511)]).reg .mant = 0 ∧ ((withRegs [(.exp10, 511)]).signed .exp10).natAbs ≤ 511 := by
  decide +kernel

/-- Both clauses at their bounds: ±511 and ±512. -/
theorem witness_ScaleAcceptsExponentsUpTo511 :
    ((withRegs [(.exp10, 511)]).signed .exp10).natAbs ≤ 511 ∧
      ((withRegs [(.exp10, BitVec.ofInt 64 (-511))]).signed .exp10).natAbs ≤ 511 ∧
      511 < ((withRegs [(.exp10, 512)]).signed .exp10).natAbs ∧
      511 < ((withRegs [(.exp10, BitVec.ofInt 64 (-512))]).signed .exp10).natAbs := by decide +kernel

/-- Each clause at its bound, for binary64: zero, E = Emax and E = −p, of a normalized significand and of the
significand 1. -/
theorem witness_AssembleZeroOverflowUnderflow :
    State.reset.wide .pHi .pLo = 0 ∧
    (∀ s ∈ [withRegs [(.pHi, 0x8000000000000000), (.bexp, 897)], withRegs [(.pLo, 1), (.bexp, 1024)]],
      s.wide .pHi .pLo ≠ 0 ∧
        s.signed .bexp + (s.wide .pHi .pLo).log2 + FloatFormat.binary64.bias = FloatFormat.binary64.emax) ∧
    (∀ s ∈ [withRegs [(.pHi, 0x8000000000000000), (.bexp, BitVec.ofInt 64 (-1203))],
        withRegs [(.pLo, 1), (.bexp, BitVec.ofInt 64 (-1076))]],
      s.wide .pHi .pLo ≠ 0 ∧ s.signed .bexp + (s.wide .pHi .pLo).log2 + FloatFormat.binary64.bias =
        -(FloatFormat.binary64.precision : Int)) := by decide +kernel

/-- A normalized and an unnormalized significand with a sticky bit, each just below the bound on δ, and an exact zero. -/
theorem witness_AssembleRoundsToNearestEven :
    (let s := (withRegs [(.pHi, 0x8000000000000000)]).setRounding false true
     s.wide .pHi .pLo ≠ 0 ∧ (0 : ℚ) ≤ 1 / 2 ∧ (1 / 2 : ℚ) < 2 ^ (s.signed .bexp - 127 + (s.wide .pHi .pLo).log2) ∧
       ((s.flags.rb = false ∧ s.flags.sb = false) ↔ (1 / 2 : ℚ) = 0)) ∧
    (let s := (withRegs [(.pLo, 3), (.bexp, 126)]).setRounding true false
     s.wide .pHi .pLo ≠ 0 ∧ (0 : ℚ) ≤ 1 / 2 ∧ (1 / 2 : ℚ) < 2 ^ (s.signed .bexp - 127 + (s.wide .pHi .pLo).log2) ∧
       ((s.flags.rb = false ∧ s.flags.sb = false) ↔ (1 / 2 : ℚ) = 0)) ∧
    (let s := State.reset
     (s.flags.rb = false ∧ s.flags.sb = false) ∧
       (0 : ℚ) < 2 ^ (s.signed .bexp - 127 + (s.wide .pHi .pLo).log2)) := by
  refine ⟨by decide +kernel, by decide +kernel, by decide, by positivity⟩

/-- The value 1 + 3/4 with SB set, where the statement fails. -/
theorem witness_AssembleRoundsToNearestEvenUnnormalized :
    let s := (withRegs [(.pLo, 1)]).setRounding false true
    (0 : ℚ) ≤ 3 / 4 ∧ (3 / 4 : ℚ) < 2 ^ s.signed .bexp ∧
      ((s.flags.rb = false ∧ s.flags.sb = false) ↔ (3 / 4 : ℚ) = 0) ∧
      (nextOf (exec (.assemble .binary64) s)).map (·.reg .bits) = some 0x3FF0000000000000 := by decide +kernel

theorem witness_ParseIsScanScaleAssemble :
    (nextOf (exec (.scan .bounded) (withText 0x10 sampleText))).map (·.status.cause) = some .ok := by decide +kernel

theorem witness_ParseOfALiteralCompletes :
    (withText 0x10 sampleText).params.wf = true ∧ sampleLiteral.wf = true ∧
      TextIs (withText 0x10 sampleText) .nul sampleLiteral :=
  ⟨by decide, by decide, textIs_sample⟩

theorem witness_ParseRoundsShortIntegersCorrectly :
    (withText 0x10 [0x31, 0x32, 0x33]).params.wf = true ∧ sampleInteger.wf = true ∧
      TextIs (withText 0x10 [0x31, 0x32, 0x33]) .bounded sampleInteger ∧ sampleInteger.frac = none ∧
      sampleInteger.exp = none ∧ sampleInteger.int.length ≤ 17 :=
  ⟨by decide, by decide, textIs_integer, rfl, rfl, by decide⟩

/-- Each class at its bound, for binary32. -/
theorem witness_ExtractClassifiesThePattern :
    unsignedPattern .binary32 0x80000000 = 0 ∧ unsignedPattern .binary32 0x7F7FFFFF < infinityMagnitude .binary32 ∧
      unsignedPattern .binary32 0xFF800000 = infinityMagnitude .binary32 ∧
      infinityMagnitude .binary32 < unsignedPattern .binary32 0x7F800001 := by decide +kernel

/-- The smallest and the largest finite nonzero pattern. -/
theorem witness_ExtractedDigitsAreTheValueToSeventeenDigits :
    0 < unsignedPattern .binary64 ((withRegs [(.bits, 1)]).reg .bits).toNat ∧
      unsignedPattern .binary64 ((withRegs [(.bits, 0x7FEFFFFFFFFFFFFF)]).reg .bits).toNat <
        infinityMagnitude .binary64 := by decide +kernel

theorem witness_FormatWritesItsText :
    Memory.wf State.reset.mem = true ∧
      (∀ j < (State.reset.outputText .binary64).length, portAccess State.reset.params (State.reset.outputBase + j) = .ok ()) ∧
      0 < (State.reset.outputText .binary64).length ∧ raceAt State.reset.raced (State.reset.outputBase + 0) = none := by
  decide +kernel

/-- "1.5" with the second byte in a hole: j = 1. -/
theorem witness_FormatFaultKeepsTheBytesBeforeIt :
    let s : State := { withRegs [(.bits, 0x3FF8000000000000), (.addr, 0x100)] with params := ⟨64, .trunc, [⟨0x101, 0x1FF⟩]⟩ }
    Memory.wf s.mem = true ∧ 1 < (s.outputText .binary64).length ∧
      (∀ i < 1, portAccess s.params (s.outputBase + i) = .ok ()) ∧
      portAccess s.params (s.outputBase + 1) = .error (.memoryFault 0x101) ∧ raceAt s.raced (s.outputBase + 0) = none := by
  decide +kernel

/-- EXTRACT's X and COUNT of a pattern. -/
def extracted (b : Word) : Option (Int × Nat) :=
  (nextOf (exec (.extract .binary64) (withRegs [(.bits, b)]))).map fun t => (t.signed .exp10, t.unsigned .count)

/-- The third clause where the form changes: 0.0001 with X = −4, 0.00001 with X = −5, 12 with X = COUNT − 1 and 120 with
X = COUNT, and their texts. -/
theorem witness_FormatOfSpecialValues_forms :
    (extracted 0x3F1A36E2EB1C432D = some (-4, 1) ∧
      formatted 0x3F1A36E2EB1C432D = some (ascii ['0', '.', '0', '0', '0', '1'], 6, 0x106)) ∧
    (extracted 0x3EE4F8B588E368F1 = some (-5, 17) ∧
      (formatted 0x3EE4F8B588E368F1).map (fun x => x.1.drop 18) = some (ascii ['e', '-', '5'])) ∧
    (extracted 0x4028000000000000 = some (1, 2) ∧ formatted 0x4028000000000000 = some (ascii ['1', '2'], 2, 0x102)) ∧
    (extracted 0x405E000000000000 = some (2, 2) ∧
      formatted 0x405E000000000000 = some (ascii ['1', '.', '2', 'e', '+', '2'], 6, 0x106)) := by decide +kernel

/-- The first two clauses: a NaN and a zero. -/
theorem witness_FormatOfSpecialValues :
    infinityMagnitude .binary64 ≤ unsignedPattern .binary64 ((withRegs [(.bits, 0x7FF8000000000000)]).reg .bits).toNat ∧
      unsignedPattern .binary64 ((withRegs [(.bits, 0x8000000000000000)]).reg .bits).toNat = 0 := by decide +kernel

/-- The largest finite pattern and a zero. -/
theorem witness_FormattedTextScansBackToItsDigits :
    (let s := withRegs [(.bits, 0x7FEFFFFFFFFFFFFF), (.addr, 0x100)]
     Memory.wf s.mem = true ∧ s.raced = [] ∧ s.params.wf = true ∧
       0 < unsignedPattern .binary64 (s.reg .bits).toNat ∧
       unsignedPattern .binary64 (s.reg .bits).toNat < infinityMagnitude .binary64 ∧
       (∀ j ≤ 24, portAccess s.params (s.outputBase + j) = .ok ())) ∧
    (let s := withRegs [(.bits, 0x8000000000000000), (.addr, 0x100)]
     unsignedPattern .binary64 (s.reg .bits).toNat < infinityMagnitude .binary64) := by decide +kernel

end Sys2Proof.Tests
end

section
/-! The register window's layout: which register an offset reaches, and where the fields of STATUS and FLAGS stand in
the words a host reads (10_state.md R13 to R19). -/

namespace Sys2Proof.Machine

/-! ### Offsets -/

/-- The window gives every index below 18 its register. -/
@[simp] theorem regOf_index (r : Reg) : regOf r.index = some r := by
  rcases r with _ | _ | _ | d
  case data => cases d <;> rfl
  all_goals rfl

/-- The indices from 18 on have no register (10_state.md R15). -/
theorem regOf_reserved {n : Nat} (h : 18 ≤ n) : regOf n = none := by
  obtain ⟨k, rfl⟩ := Nat.exists_eq_add_of_le' h
  rfl

theorem Reg.index_lt (r : Reg) : r.index < 18 := by
  rcases r with _ | _ | _ | d
  case data => cases d <;> decide
  all_goals decide

@[simp] theorem Reg.offset_div (r : Reg) : r.offset / 8 = r.index := by
  simp [Reg.offset]

/-- The window accepts an access of 8 bytes at a register's offset (10_state.md R14). -/
@[simp] theorem windowAccess_offset (r : Reg) : windowAccess 8 r.offset = true := by
  have := r.index_lt
  have h : r.offset % 8 = 0 ∧ r.offset < 256 := by unfold Reg.offset; omega
  simp [windowAccess, h]

/-- The window refuses another size, or an offset that is no multiple of 8 (10_state.md R14). -/
theorem windowAccess_misshapen {size offset : Nat} (h : size ≠ 8 ∨ offset % 8 ≠ 0) :
    windowAccess size offset = false := by
  rcases h with h | h <;> simp [windowAccess, h]

/-! ### Fields of the words read -/

/-- Where the fields of STATUS stand, evaluated at each of its values (10_state.md R18). -/
theorem Status.word_layout (t : Status) :
    t.word.getLsbD 0 = t.busy ∧ t.word.getLsbD 1 = t.done ∧ (t.word.extractLsb' 4 4).toNat = t.cause.code ∧
      t.word.getLsbD 8 = t.ovr ∧ t.word &&& ~~~0x1F3#64 = 0 := by
  rcases t with ⟨_ | _, _ | _, _ | _ | _ | _ | _, _ | _⟩ <;> decide

/-- A word below 2^k has no bit from k on. -/
theorem getLsbD_of_toNat_lt {v : Word} {k i : Nat} (hv : v.toNat < 2 ^ k) (hi : k ≤ i) : v.getLsbD i = false :=
  Nat.testBit_lt_two_pow (hv.trans_le (Nat.pow_le_pow_right (by decide) hi))

/-- The bits of FLAGS above CLASS read 0 (10_state.md R19). -/
theorem Flags.getLsbD_word_of_le (f : Flags) {i : Nat} (h : 6 ≤ i) : f.word.getLsbD i = false := by
  have hw : f.word.toNat < 2 ^ 6 := by
    rcases f with ⟨_ | _, _ | _, _ | _, _ | _ | _ | _⟩ <;> decide
  exact getLsbD_of_toNat_lt hw h

/-- Where the fields of FLAGS stand below bit 6 (10_state.md R19). -/
theorem Flags.word_layout (f : Flags) :
    f.word.getLsbD 0 = f.n ∧ f.word.getLsbD 1 = f.rb ∧ f.word.getLsbD 2 = f.sb ∧ f.word.getLsbD 3 = false ∧
      f.cls = FloatClass.ofBits (f.word.getLsbD 5) (f.word.getLsbD 4) := by
  rcases f with ⟨_ | _, _ | _, _ | _, _ | _ | _ | _⟩ <;> decide

theorem FloatClass.ofBits_inj {a b c d : Bool} : FloatClass.ofBits a b = FloatClass.ofBits c d ↔ a = c ∧ b = d := by
  revert a b c d
  decide

/-- A FLAGS write read back: the bits of the mask, and no other (10_state.md R19). -/
theorem Flags.word_ofWord (v : Word) : (Flags.ofWord v).word = v &&& 0x37 := by
  obtain ⟨h0, h1, h2, h3, h45⟩ := (Flags.ofWord v).word_layout
  obtain ⟨h5, h4⟩ := FloatClass.ofBits_inj.1 h45
  refine BitVec.eq_of_getLsbD_eq fun i _ => ?_
  rw [BitVec.getLsbD_and]
  by_cases hi : i < 6
  · interval_cases i
    · exact h0.trans (Bool.and_true _).symm
    · exact h1.trans (Bool.and_true _).symm
    · exact h2.trans (Bool.and_true _).symm
    · exact h3.trans (Bool.and_false _).symm
    · exact h4.symm.trans (Bool.and_true _).symm
    · exact h5.symm.trans (Bool.and_true _).symm
  · have hmask : BitVec.getLsbD (0x37 : Word) i = false := getLsbD_of_toNat_lt (k := 6) (by decide) (by omega)
    rw [getLsbD_word_of_le _ (by omega), hmask, Bool.and_false]

end Sys2Proof.Machine
end

section
/-! What a step does when the host's next action is a register access (10_state.md R13 to R19), and the obligations
about these accesses. -/

namespace Sys2Proof.Machine

section

variable {s : State} {ops : List HostOp}

theorem State.popInbox_of_cons {op : HostOp} (h : s.inbox = op :: ops) : s.popInbox = { s with inbox := ops } := by
  simp [State.popInbox, h]

/-- An action of the host other than a wait lands in the next step, busy or not. -/
theorem step_of_hostOp {op : HostOp} (hw : op ≠ .wait) (h : s.inbox = op :: ops) : step s = hostAct op s.popInbox := by
  have ht : s.turn = .host op := by
    cases op
    case wait => exact absurd rfl hw
    all_goals simp [State.turn, h]
  simp [step, ht]

theorem step_write {size offset : Nat} {v : Word} (h : s.inbox = .write size offset v :: ops) :
    step s = hostWrite size offset v s.popInbox :=
  step_of_hostOp (op := .write size offset v) nofun h

theorem step_read {size offset : Nat} (h : s.inbox = .read size offset :: ops) :
    step s = hostRead size offset s.popInbox :=
  step_of_hostOp (op := .read size offset) nofun h

theorem hostWrite_offset (r : Reg) (v : Word) (s : State) : hostWrite 8 r.offset v s = .next (s.writeReg r v) := by
  simp [hostWrite, State.writeWindow]

theorem State.writeReg_of_idle (hb : s.status.busy = false) (r : Reg) (v : Word) :
    s.writeReg r v = s.writeIdle r v := by
  simp [State.writeReg, hb]

/-- A host write to a register of an idle engine. -/
theorem step_writeIdle {r : Reg} {v : Word} (hb : s.status.busy = false) (h : s.inbox = .write 8 r.offset v :: ops) :
    step s = .next (s.popInbox.writeIdle r v) := by
  rw [step_write h, hostWrite_offset, State.writeReg_of_idle (by simpa using hb)]

end

/-- Settles O9: the write is `setReg` of that register. -/
theorem hostWriteReachesItsDataRegister : Obligations.HostWriteReachesItsDataRegister := by
  refine ⟨rfl, fun s r v ops hb h => ⟨s.popInbox.setReg r v, step_writeIdle hb h, ?_⟩⟩
  have hother : ∀ r', r' ≠ r → (s.popInbox.setReg r v).reg r' = s.reg r' := fun r' hr => by simp [hr]
  exact ⟨by simp, hother, by simp [h], rfl, rfl, rfl, rfl, rfl, rfl⟩

/-- Settles O10: the write is `setFlags`, and FLAGS read back is the value under the mask. -/
theorem flagsWriteKeepsTheListedBits : Obligations.FlagsWriteKeepsTheListedBits := by
  intro s v ops hb h
  refine ⟨s.popInbox.setFlags (Flags.ofWord v), step_writeIdle (r := .flags) hb h, Flags.word_ofWord v, by simp [h],
    rfl, rfl, ?_⟩
  exact ⟨fun _ => rfl, rfl, rfl, fun _ => rfl⟩

/-- Settles O11: a reserved offset has no register, which decides the read and the write alike. -/
theorem reservedOffsetsReadZeroAndIgnoreWrites : Obligations.ReservedOffsetsReadZeroAndIgnoreWrites := by
  intro s offset v ops hlo hhi hmod
  have hacc : windowAccess 8 offset = true := by simp [windowAccess, hmod]; omega
  have hreg : regOf (offset / 8) = none := regOf_reserved (by omega)
  constructor <;> intro h
  · rw [step_write h, State.popInbox_of_cons h]
    simp [hostWrite, hacc, State.writeWindow, hreg]
  · rw [step_read h, State.popInbox_of_cons h]
    simp [hostRead, hacc, State.readWindow, hreg, State.returnToHost]

/-- Settles O13: a write of an idle engine's STATUS leaves the state, and the word read is laid out. -/
theorem statusIsReadOnlyAndLaidOut : Obligations.StatusIsReadOnlyAndLaidOut := by
  refine ⟨fun s v ops hb h => ?_, fun s => ?_⟩
  · rw [step_writeIdle (r := .status) hb h, ← State.popInbox_of_cons h]
    rfl
  · obtain ⟨hbusy, hdone, hcause, hovr, hrest⟩ := s.status.word_layout
    refine ⟨hbusy, hdone, hcause.trans ?_, hovr, hrest⟩
    cases s.status.cause <;> rfl

/-- Settles O14: the window's test fails, and both accesses are refused on it. -/
theorem misshapenAccessIsRefused : Obligations.MisshapenAccessIsRefused := by
  intro s size offset v ops hbad
  have hacc := windowAccess_misshapen hbad
  constructor <;> intro h
  · simp [step_write h, hostWrite, hacc]
  · simp [step_read h, hostRead, hacc]

end Sys2Proof.Machine
end

section
/-! The invariant `State.Inv` is kept: first the address space of the memory, then each thing a step can do, as
`step_cases`, `runCommand_cases` and `hostAct_cases` list them. -/

namespace Sys2Proof.Machine

/-! ### The address space (20_memory.md R29) -/

namespace Memory

/-- Every listed byte of `m` lies below `n`. -/
def below (n : Nat) (m : Memory) : Prop := ∀ c ∈ m, c.1 < n

/-- A write lists no address but its own that was not listed before. -/
theorem mem_write {m : Memory} {a : Nat} {b : Byte} {c : Host.Cell} (h : c ∈ m.write a b) : c.1 = a ∨ c ∈ m := by
  induction m with
  | nil =>
    unfold write at h
    split at h <;> simp_all
  | cons d m ih =>
    unfold write at h
    split at h
    · split at h
      · exact .inr h
      · rcases List.mem_cons.1 h with rfl | h
        · exact .inl rfl
        · exact .inr h
    · split at h
      · split at h
        · exact .inr (.tail _ h)
        · rcases List.mem_cons.1 h with rfl | h
          · exact .inl rfl
          · exact .inr (.tail _ h)
      · rcases List.mem_cons.1 h with rfl | h
        · exact .inr (.head _)
        · exact (ih h).imp_right (.tail _)

theorem below_write {n : Nat} {m : Memory} {a : Nat} (b : Byte) (h : below n m) (ha : a < n) :
    below n (m.write a b) := fun c hc => (mem_write hc).elim (fun e => e ▸ ha) (h c)

end Memory

/-- The port writes no address outside the address space. -/
theorem State.below_portWrites (s : State) (bs : List Byte) {m : Memory} (base : Nat)
    (h : Memory.below (2 ^ s.params.addrWidth) m) :
    Memory.below (2 ^ s.params.addrWidth) (s.portWrites m base bs).1 := by
  induction bs generalizing m base with
  | nil => exact h
  | cons b bs ih =>
    unfold State.portWrites
    split
    · exact h
    · next hacc =>
      have hrest := ih (base + 1) (Memory.below_write (s.leftByte m base b) h (portAccess_ok_lt hacc))
      split <;> next hrec => rwa [hrec] at hrest

/-- A command leaves the memory in the address space. -/
theorem below_memAfter {s : State} (i : Instr) (h : Memory.below (2 ^ s.params.addrWidth) s.mem) :
    Memory.below (2 ^ s.params.addrWidth) (memAfter i s) := by
  cases i
  case format f => exact s.below_portWrites _ _ h
  all_goals exact h

/-! ### Each thing a step can do -/

namespace State.Inv

variable {s t : State}

/-- The invariant speaks of no field but these. -/
theorem of_eq (h : s.Inv) (hcmd : t.cmd = s.cmd) (hstatus : t.status = s.status) (hmem : t.mem = s.mem)
    (hparams : t.params = s.params) (hraced : t.raced = s.raced) (hdraws : s.draws ≤ t.draws) : t.Inv where
  memCanonical := hmem ▸ h.memCanonical
  memInSpace := by rw [hmem, hparams]; exact h.memInSpace
  busyNotDone := hstatus ▸ h.busyNotDone
  causeNeedsDone := hstatus ▸ h.causeNeedsDone
  overrunNeedsCommand := hstatus ▸ h.overrunNeedsCommand
  busyLegal := by rw [hstatus, hcmd]; exact h.busyLegal
  racedNeedsBusy := by rw [hstatus, hraced]; exact h.racedNeedsBusy
  racedInSpace := by
    rw [hraced, hparams]
    exact fun r hr => ⟨(h.racedInSpace r hr).1, (h.racedInSpace r hr).2.trans_le hdraws⟩

/-- A completion, of a state whose memory is canonical and in its address space. -/
theorem complete (hwf : Memory.wf s.mem = true) (hspace : Memory.below (2 ^ s.params.addrWidth) s.mem) (c : Cause) :
    (s.complete c).Inv where
  memCanonical := hwf
  memInSpace := hspace
  busyNotDone := nofun
  causeNeedsDone := nofun
  overrunNeedsCommand := nofun
  busyLegal := nofun
  racedNeedsBusy _ := rfl
  racedInSpace := nofun

theorem issue (h : s.Inv) (v : Word) : (s.issue v).Inv := by
  unfold State.issue
  split
  · next i hi =>
    exact
      { memCanonical := h.memCanonical
        memInSpace := h.memInSpace
        busyNotDone := fun _ => rfl
        causeNeedsDone := fun _ => rfl
        overrunNeedsCommand := nofun
        busyLegal := fun _ => ⟨i, hi⟩
        racedNeedsBusy := nofun
        racedInSpace := nofun }
  · exact complete (s := { s with cmd := v, status := ⟨true, false, .ok, false⟩, raced := [] })
      h.memCanonical h.memInSpace _

theorem overrun (h : s.Inv) (hb : s.status.busy = true) : s.overrun.Inv where
  memCanonical := h.memCanonical
  memInSpace := h.memInSpace
  busyNotDone := h.busyNotDone
  causeNeedsDone := h.causeNeedsDone
  overrunNeedsCommand hidle := absurd hidle (by simp [hb])
  busyLegal := h.busyLegal
  racedNeedsBusy := h.racedNeedsBusy
  racedInSpace := h.racedInSpace

theorem writeIdle (h : s.Inv) (r : Reg) (v : Word) : (s.writeIdle r v).Inv := by
  cases r with
  | cmd => exact h.issue v
  | status => exact h
  | flags => exact h.of_eq rfl rfl rfl rfl rfl le_rfl
  | data d => exact h.of_eq rfl rfl rfl rfl rfl le_rfl

theorem writeWindow (h : s.Inv) (offset : Nat) (v : Word) : (s.writeWindow offset v).Inv := by
  unfold State.writeWindow State.writeReg
  split
  · exact h
  · split
    · exact h.overrun ‹_›
    · exact h.writeIdle _ v

theorem storeByte (h : s.Inv) {a : Nat} (ha : portAccess s.params a = .ok ()) (b : Byte) : (s.storeByte a b).Inv := by
  have hlt := portAccess_ok_lt ha
  have hwf := Memory.wf_write a b h.memCanonical
  have hspace := Memory.below_write b h.memInSpace hlt
  unfold State.storeByte
  split
  · next hb =>
    have hraced : ∀ r ∈ (⟨a, s.draws⟩ : Raced) :: s.raced,
        r.addr < 2 ^ s.params.addrWidth ∧ r.draw < s.draws + 1 := by
      intro r hr
      rcases List.mem_cons.1 hr with rfl | hr
      · exact ⟨hlt, Nat.lt_succ_self _⟩
      · obtain ⟨haddr, hdraw⟩ := h.racedInSpace r hr
        exact ⟨haddr, hdraw.trans (Nat.lt_succ_self _)⟩
    exact { h with
      memCanonical := hwf
      memInSpace := hspace
      racedNeedsBusy := fun hidle => absurd (hb.symm.trans hidle) (by decide)
      racedInSpace := hraced }
  · exact { h with memCanonical := hwf, memInSpace := hspace }

/-- Reset, also one that abandons a FORMAT: the bytes it had written lie in the address space. -/
theorem afterReset (h : s.Inv) : s.afterReset.Inv := by
  obtain ⟨hwf, hspace⟩ : Memory.wf s.memAtReset = true ∧ Memory.below (2 ^ s.params.addrWidth) s.memAtReset := by
    unfold State.memAtReset
    split
    · exact ⟨(s.portWrites_spec _ _ _ h.memCanonical).1, s.below_portWrites _ _ h.memInSpace⟩
    · exact ⟨h.memCanonical, h.memInSpace⟩
  exact
    { memCanonical := hwf
      memInSpace := hspace
      busyNotDone := fun _ => rfl
      causeNeedsDone := fun _ => rfl
      overrunNeedsCommand := fun _ _ => rfl
      busyLegal := nofun
      racedNeedsBusy := fun _ => rfl
      racedInSpace := nofun }

theorem hostAct (h : s.Inv) {op : HostOp} (hact : Machine.hostAct op s = .next t) : t.Inv := by
  rcases hostAct_cases hact with ⟨_, off, v, _, _, rfl⟩ | ⟨v, rfl⟩ | ⟨a, b, _, ha, rfl⟩ | ⟨a, v, _, _, rfl⟩ | ⟨_, rfl⟩
  · exact h.writeWindow off v
  · exact h.of_eq rfl rfl rfl rfl rfl le_rfl
  · exact h.storeByte ha b
  · exact h.of_eq rfl rfl rfl rfl rfl (Nat.le_succ _)
  · exact h.afterReset

theorem runCommand (h : s.Inv) (hrun : Machine.runCommand s = .next t) : t.Inv := by
  obtain ⟨u, c, hu, hc, hmem⟩ := runCommand_cases s
  obtain rfl : u.complete c = t := by simpa [hu] using hrun
  obtain ⟨hwf, hspace⟩ : Memory.wf u.mem = true ∧ Memory.below (2 ^ s.params.addrWidth) u.mem := by
    rcases hmem with e | ⟨i, _, e⟩ <;> rw [e]
    · exact ⟨h.memCanonical, h.memInSpace⟩
    · exact ⟨memAfter_wf i h.memCanonical, below_memAfter i h.memInSpace⟩
  exact complete hwf (hc.params ▸ hspace) c

end State.Inv

/-- Settles O26: each clause of the invariant, of the values of reset. -/
theorem resetMeetsTheInvariant : Obligations.ResetMeetsTheInvariant where
  memCanonical := rfl
  memInSpace := nofun
  busyNotDone := nofun
  causeNeedsDone _ := rfl
  overrunNeedsCommand _ _ := rfl
  busyLegal := nofun
  racedNeedsBusy _ := rfl
  racedInSpace := nofun

/-- Settles O27, by what a step can do: the engine completes the command, nobody moves, or a host action lands. -/
theorem stepKeepsTheInvariant : Obligations.StepKeepsTheInvariant := by
  intro s t h hstep
  rcases step_cases s with ⟨_, _, e⟩ | ⟨_, _, e⟩ | ⟨op, ops, _, _, e⟩ <;> rw [e] at hstep
  · exact h.runCommand hstep
  · cases hstep
    exact h
  · exact State.Inv.hostAct (h.of_eq rfl rfl rfl rfl rfl le_rfl : s.popInbox.Inv) hstep

end Sys2Proof.Machine
end

section
/-! What a command writes: the registers and the fields of FLAGS its row of 10_state.md R24 and R20 names. -/

namespace Sys2Proof.Machine

/-! ### Errors -/

/-- What an error of SCAN or PARSE leaves: FLAGS, and every data register but POS (60_exceptions.md R115). -/
theorem State.raiseText_frame (s : State) (e : CmdError) :
    (s.raiseText e).status.cause = e.cause ∧ (s.raiseText e).flags = s.flags ∧
      ∀ r, r ≠ .pos → (s.raiseText e).reg r = s.reg r := by
  cases e <;> exact ⟨rfl, rfl, fun r hr => by simp [State.raiseText, hr]⟩

/-- What an error of FORMAT leaves: FLAGS, and every data register but LEN and POS of a memory fault
(60_exceptions.md R119). -/
theorem State.raiseWrite_frame (s : State) (j : Nat) (e : CmdError) :
    (s.raiseWrite j e).status.cause = e.cause ∧ (s.raiseWrite j e).flags = s.flags ∧
      ∀ f r, r ∉ writesOf (.format f) e.cause → (s.raiseWrite j e).reg r = s.reg r := by
  cases e
  case memoryFault a =>
    refine ⟨rfl, rfl, fun f r hr => ?_⟩
    simp only [writesOf, CmdError.cause, List.mem_cons, List.not_mem_nil, or_false, not_or] at hr
    simp [State.raiseWrite, hr]
  all_goals exact ⟨rfl, rfl, fun _ _ _ => rfl⟩

/-- An error of the scanner records POS and nothing else, in SCAN and in PARSE. -/
theorem State.writesOf_scan_error {s : State} {m : ScanMode} {e : CmdError} (h : s.scan m = .error e) :
    writesOf (.scan m) e.cause = [.pos] ∧ ∀ f, writesOf (.parse f m) e.cause = [.pos] := by
  rcases State.scan_error h with rfl | ⟨a, rfl⟩ <;> exact ⟨rfl, fun _ => rfl⟩

/-! ### The frame of a command -/

/-- From `s` to `t` nothing has changed of the data registers and FLAGS but what command `i` writes for the code of `t`. -/
structure WritesOnly (i : Instr) (s t : State) : Prop where
  regs : ∀ r, r ∉ writesOf i t.status.cause → t.reg r = s.reg r
  sign : writesSign i t.status.cause = false → t.flags.n = s.flags.n
  rounding : writesRounding i t.status.cause = false → t.flags.rb = s.flags.rb ∧ t.flags.sb = s.flags.sb
  cls : writesClass i t.status.cause = false → t.flags.cls = s.flags.cls

/-- The frame of an outcome that leaves FLAGS. -/
theorem WritesOnly.of_flags {i : Instr} {s t : State} (hf : t.flags = s.flags)
    (hr : ∀ r, r ∉ writesOf i t.status.cause → t.reg r = s.reg r) : WritesOnly i s t :=
  ⟨hr, fun _ => by rw [hf], fun _ => by rw [hf]; exact ⟨rfl, rfl⟩, fun _ => by rw [hf]⟩

/-- The frame of SCAN and PARSE when the scan fails. -/
theorem State.raiseText_writesOnly {i : Instr} (s : State) {e : CmdError} (hw : writesOf i e.cause = [.pos]) :
    WritesOnly i s (s.raiseText e) := by
  obtain ⟨hc, hf, hr⟩ := s.raiseText_frame e
  refine .of_flags hf fun r hrw => hr r ?_
  simpa [hc, hw] using hrw

theorem exec_writesOnly (i : Instr) (s : State) : ∃ t, exec i s = .next t ∧ WritesOnly i s t := by
  cases i with
  | nop => exact ⟨_, rfl, .of_flags rfl fun _ _ => rfl⟩
  | mul64 =>
    simp only [exec, execMul64]
    exact ⟨_, rfl, .of_flags (by simp) fun r hr => by simp_all [writesOf]⟩
  | mul128 =>
    simp only [exec, execMul128]
    refine ⟨_, rfl, fun r hr => by simp_all [writesOf], ?_, nofun, ?_⟩ <;> simp
  | pow5 tbl k =>
    simp only [exec, execPow5]
    split
    · exact ⟨_, rfl, .of_flags (by simp) fun r hr => by simp_all [writesOf]⟩
    · exact ⟨_, rfl, .of_flags rfl fun _ _ => rfl⟩
  | scan m =>
    simp only [exec, execScan]
    split
    · next e he => exact ⟨_, rfl, s.raiseText_writesOnly (State.writesOf_scan_error he).1⟩
    · refine ⟨_, rfl, fun r hr => by simp_all [writesOf], nofun, ?_, ?_⟩ <;> simp
  | scale =>
    simp only [exec, execScale]
    split
    · exact ⟨_, rfl, .of_flags rfl fun _ _ => rfl⟩
    · refine ⟨_, rfl, fun r hr => by simp_all [writesOf], ?_, nofun, ?_⟩ <;> simp
  | assemble f =>
    simp only [exec, execAssemble]
    exact ⟨_, rfl, .of_flags (by simp) fun r hr => by simp_all [writesOf]⟩
  | parse f m =>
    simp only [exec, execParse]
    split
    · next e he => exact ⟨_, rfl, s.raiseText_writesOnly ((State.writesOf_scan_error he).2 f)⟩
    · exact ⟨_, rfl, .of_flags (by simp) fun r hr => by simp_all [writesOf]⟩
  | extract f =>
    simp only [exec, execExtract]
    refine ⟨_, rfl, fun r hr => by simp_all [writesOf], nofun, ?_, nofun⟩
    simp
  | format f =>
    simp only [exec, execFormat]
    split
    · exact ⟨_, rfl, .of_flags (by simp) fun r hr => by simp_all [writesOf]⟩
    · next m j e _ =>
      obtain ⟨hc, hf, hr⟩ := (s.setMem m).raiseWrite_frame j e
      exact ⟨_, rfl, .of_flags hf fun r hrw => hr f r (hc ▸ hrw)⟩

/-- What `exec` answers is a completion: all but data registers, FLAGS, memory and STATUS is as it was. -/
theorem completes_of_exec {i : Instr} {s t : State} {rs : List DataReg} (h : exec i s = .next t)
    (hr : ∀ r, r ∉ rs → t.reg r = s.reg r) : Completes t.status.cause rs s t := by
  obtain ⟨u, c, hu, hc, -⟩ := exec_cases i s
  obtain rfl : u.complete c = t := by simpa [hu] using h
  exact ⟨by simp [hc.status], hr, hc.cmd, hc.params, hc.inbox, hc.hostReads, hc.draws⟩

/-- Settles O22, by the frame of each command. -/
theorem commandsWriteOnlyTheirRegisters : Obligations.CommandsWriteOnlyTheirRegisters := by
  intro i s t _ h
  obtain ⟨t', h', hw⟩ := exec_writesOnly i s
  obtain rfl : t' = t := by simpa [h'] using h
  exact ⟨completes_of_exec h hw.regs, hw.sign, hw.rounding, hw.cls⟩

end Sys2Proof.Machine
end

section
/-! A command's results depend on what it reads only (10_state.md R27, R24): two runs from states that agree on that. -/

namespace Sys2Proof.Machine

/-! ### Operands of states that agree -/

/-- A command that reads a text reads ADDR, and END when the text is bounded (10_state.md R24). -/
theorem reads_of_readsText {i : Instr} {m : ScanMode} (h : readsText i = some m) :
    .addr ∈ readsOf i ∧ (m = .bounded → .endAddr ∈ readsOf i) := by
  cases i with
  | scan m' => cases h; cases m <;> simp [readsOf]
  | parse f m' => cases h; cases m <;> simp [readsOf]
  | _ => cases h

namespace AgreeFor

variable {i : Instr} {s s' : State}

theorem unsigned (h : AgreeFor i s s') {r : DataReg} (hr : r ∈ readsOf i) : s'.unsigned r = s.unsigned r := by
  rw [State.unsigned, h.regs r hr, State.unsigned]

theorem signed (h : AgreeFor i s s') {r : DataReg} (hr : r ∈ readsOf i) : s'.signed r = s.signed r := by
  rw [State.signed, h.regs r hr, State.signed]

theorem wide (h : AgreeFor i s s') {hi lo : DataReg} (hhi : hi ∈ readsOf i) (hlo : lo ∈ readsOf i) :
    s'.wide hi lo = s.wide hi lo := by
  rw [State.wide, h.unsigned hhi, h.unsigned hlo, State.wide]

theorem pattern (h : AgreeFor i s s') (hr : .bits ∈ readsOf i) (f : FloatFormat) : s'.pattern f = s.pattern f := by
  rw [State.pattern, h.unsigned hr, State.pattern]

theorem textPos (h : AgreeFor i s s') (hr : .addr ∈ readsOf i) (n : Nat) : s'.textPos n = s.textPos n := by
  rw [State.textPos, h.unsigned hr, State.textPos]

/-- A command that reads a text scans it alike. -/
theorem scan {m : ScanMode} (h : AgreeFor i s s') (ht : readsText i = some m) : s'.scan m = s.scan m := by
  obtain ⟨haddr, hend⟩ := reads_of_readsText ht
  exact State.scan_congr (h.unsigned haddr) (fun hm => h.unsigned (hend hm)) h.params (h.text m ht)

theorem outputText {f : FloatFormat} (h : AgreeFor (.format f) s s') : s'.outputText f = s.outputText f := by
  rw [State.outputText, h.params, h.pattern (by simp [readsOf]), State.outputText]

theorem outputBase {f : FloatFormat} (h : AgreeFor (.format f) s s') : s'.outputBase = s.outputBase :=
  h.unsigned (by simp [readsOf])

end AgreeFor

/-! ### The outcome and the values written -/

/-- Two outcomes of command `i` with one code, and the same value in each register and each field of FLAGS that `i`
writes for that code. -/
structure SameResults (i : Instr) (t t' : State) : Prop where
  cause : t'.status.cause = t.status.cause
  regs : ∀ r ∈ writesOf i t.status.cause, t'.reg r = t.reg r
  sign : writesSign i t.status.cause = true → t'.flags.n = t.flags.n
  rounding : writesRounding i t.status.cause = true → t'.flags.rb = t.flags.rb ∧ t'.flags.sb = t.flags.sb
  cls : writesClass i t.status.cause = true → t'.flags.cls = t.flags.cls

theorem CmdError.cause_ne_ok (e : CmdError) : e.cause ≠ .ok := by cases e <;> nofun

/-- An error writes no field of FLAGS (60_exceptions.md R116). -/
theorem writesFlags_of_error (i : Instr) {c : Cause} (h : c ≠ .ok) :
    writesSign i c = false ∧ writesRounding i c = false ∧ writesClass i c = false := by
  cases c
  case ok => exact absurd rfl h
  all_goals cases i <;> exact ⟨rfl, rfl, rfl⟩

/-- Two outcomes with the same error differ at most in the registers it records. -/
theorem SameResults.of_error {i : Instr} {t t' : State} {e : CmdError} (hc : t.status.cause = e.cause)
    (hc' : t'.status.cause = e.cause) (hr : ∀ r ∈ writesOf i e.cause, t'.reg r = t.reg r) : SameResults i t t' := by
  obtain ⟨hsign, hrounding, hcls⟩ := writesFlags_of_error i (hc ▸ e.cause_ne_ok)
  exact ⟨hc'.trans hc.symm, hc ▸ hr, by simp [hsign], by simp [hrounding], by simp [hcls]⟩

/-- An error of the scanner records the same POS in both. -/
theorem AgreeFor.raiseText {i : Instr} {s s' : State} {m : ScanMode} {e : CmdError} (h : AgreeFor i s s')
    (ht : readsText i = some m) (he : s.scan m = .error e) (hw : writesOf i e.cause = [.pos]) :
    SameResults i (s.raiseText e) (s'.raiseText e) := by
  have haddr := h.regs .addr (reads_of_readsText ht).1
  have hpos : (s'.raiseText e).reg .pos = (s.raiseText e).reg .pos := by
    rcases State.scan_error he with rfl | ⟨a, rfl⟩ <;> simp [State.raiseText, haddr]
  exact .of_error (s.raiseText_frame e).1 (s'.raiseText_frame e).1 (by simpa [hw] using hpos)

/-- An error of FORMAT's j-th write records the same LEN and POS, whatever else the states hold. -/
theorem State.raiseWrite_sameResults (s s' : State) (f : FloatFormat) (j : Nat) (e : CmdError) :
    SameResults (.format f) (s.raiseWrite j e) (s'.raiseWrite j e) := by
  refine .of_error (s.raiseWrite_frame j e).1 (s'.raiseWrite_frame j e).1 ?_
  cases e
  case memoryFault a => simp [writesOf, CmdError.cause, State.raiseWrite]
  all_goals nofun

/-- The faults of a run of writes are those of the memory, whatever the bytes there. -/
theorem State.portWrites_fault_congr {s s' : State} (hp : s'.params = s.params) (bs : List Byte) (m m' : Memory)
    (base : Nat) : (s'.portWrites m' base bs).2 = (s.portWrites m base bs).2 := by
  induction bs generalizing m m' base with
  | nil => rfl
  | cons b bs ih =>
    have hrec := ih (m.write base (s.leftByte m base b)) (m'.write base (s'.leftByte m' base b)) (base + 1)
    unfold State.portWrites
    rw [hp]
    rcases portAccess s.params base with e | u
    · rfl
    · rcases hx : s.portWrites (m.write base (s.leftByte m base b)) (base + 1) bs with ⟨x, r⟩
      rcases hy : s'.portWrites (m'.write base (s'.leftByte m' base b)) (base + 1) bs with ⟨y, r'⟩
      obtain rfl : r' = r := by simpa [hx, hy] using hrec
      cases r' <;> rfl

theorem exec_sameResults {i : Instr} {s s' : State} (h : AgreeFor i s s') :
    ∃ t t', exec i s = .next t ∧ exec i s' = .next t' ∧ SameResults i t t' := by
  cases i with
  | nop => exact ⟨_, _, rfl, rfl, rfl, nofun, nofun, nofun, nofun⟩
  | mul64 =>
    have ha := h.unsigned (r := .aLo) (by simp [readsOf])
    have hb := h.unsigned (r := .bLo) (by simp [readsOf])
    simp only [exec, execMul64, ha, hb]
    exact ⟨_, _, rfl, rfl, rfl, by simp [writesOf], nofun, nofun, nofun⟩
  | mul128 =>
    have ha := h.wide (hi := .aHi) (lo := .aLo) (by simp [readsOf]) (by simp [readsOf])
    have hb := h.wide (hi := .bHi) (lo := .bLo) (by simp [readsOf]) (by simp [readsOf])
    simp only [exec, execMul128, ha, hb]
    exact ⟨_, _, rfl, rfl, rfl, by simp [writesOf], nofun, by simp, nofun⟩
  | pow5 tbl k =>
    simp only [exec, execPow5, h.params]
    split
    · exact ⟨_, _, rfl, rfl, rfl, by simp [writesOf], nofun, nofun, nofun⟩
    · exact ⟨_, _, rfl, rfl, rfl, nofun, nofun, nofun, nofun⟩
  | scan m =>
    simp only [exec, execScan, h.scan rfl, h.textPos (reads_of_readsText rfl).1]
    split
    · next e he => exact ⟨_, _, rfl, rfl, h.raiseText rfl he (State.writesOf_scan_error he).1⟩
    · exact ⟨_, _, rfl, rfl, rfl, by simp [writesOf], by simp, nofun, nofun⟩
  | scale =>
    have hm := h.unsigned (r := .mant) (by simp [readsOf])
    have hq := h.signed (r := .exp10) (by simp [readsOf])
    simp only [exec, execScale, hm, hq, h.params]
    split
    · exact ⟨_, _, rfl, rfl, rfl, nofun, nofun, nofun, nofun⟩
    · exact ⟨_, _, rfl, rfl, rfl, by simp [writesOf], nofun, by simp, nofun⟩
  | assemble f =>
    have hp := h.wide (hi := .pHi) (lo := .pLo) (by simp [readsOf]) (by simp [readsOf])
    have he := h.signed (r := .bexp) (by simp [readsOf])
    obtain ⟨hn, hrb, hsb⟩ := h.flags rfl
    simp only [exec, execAssemble, hp, he, hn, hrb, hsb]
    exact ⟨_, _, rfl, rfl, rfl, by simp [writesOf], nofun, nofun, nofun⟩
  | parse f m =>
    simp only [exec, execParse, h.scan rfl, h.textPos (reads_of_readsText rfl).1, h.params]
    split
    · next e he => exact ⟨_, _, rfl, rfl, h.raiseText rfl he ((State.writesOf_scan_error he).2 f)⟩
    · exact ⟨_, _, rfl, rfl, rfl, by simp [writesOf], nofun, nofun, nofun⟩
  | extract f =>
    simp only [exec, execExtract, h.pattern (by simp [readsOf]), h.params]
    exact ⟨_, _, rfl, rfl, rfl, by simp [writesOf], by simp, nofun, by simp⟩
  | format f =>
    have hfault := State.portWrites_fault_congr h.params (s.outputText f) s.mem s'.mem s.outputBase
    simp only [exec, execFormat, h.outputText, h.outputBase, h.textPos (by simp [readsOf])]
    rcases hx : s.portWrites s.mem s.outputBase (s.outputText f) with ⟨x, r⟩
    rcases hy : s'.portWrites s'.mem s.outputBase (s.outputText f) with ⟨y, r'⟩
    obtain rfl : r' = r := by simpa [hx, hy] using hfault
    rcases r' with _ | ⟨j, e⟩
    · exact ⟨_, _, rfl, rfl, rfl, by simp [writesOf], nofun, nofun, nofun⟩
    · exact ⟨_, _, rfl, rfl, State.raiseWrite_sameResults _ _ f j e⟩

/-! ### FORMAT's bytes -/

/-- The memory after a command. -/
theorem mem_of_exec {i : Instr} {s t : State} (h : exec i s = .next t) : t.mem = memAfter i s := by
  obtain ⟨u, c, hu, -, hm⟩ := exec_cases i s
  obtain rfl : u.complete c = t := by simpa [hu] using h
  exact hm

/-- LEN is the number of bytes FORMAT wrote (45_extract_format.md R105, 60_exceptions.md R119). -/
theorem len_of_execFormat {f : FloatFormat} {s t : State} (hwf : Memory.wf s.mem = true)
    (h : exec (.format f) s = .next t) :
    t.reg .len = BitVec.ofNat 64
      (writesDone (s.outputText f).length (s.portWrites s.mem s.outputBase (s.outputText f)).2) := by
  obtain ⟨-, -, -, hfault, -⟩ := s.portWrites_spec (s.outputText f) s.mem s.outputBase hwf
  simp only [exec, execFormat] at h
  rcases hx : s.portWrites s.mem s.outputBase (s.outputText f) with ⟨m, _ | ⟨j, e⟩⟩ <;> rw [hx] at h hfault
  · cases h
    simp [writesDone]
  · obtain ⟨a, rfl⟩ := portAccess_error (hfault j e rfl).2
    cases h
    simp [State.raiseWrite, writesDone]

/-- Where the host raced for nothing, a byte FORMAT wrote is the byte of its text. -/
theorem read_of_execFormat {f : FloatFormat} {s t : State} (hwf : Memory.wf s.mem = true) (hraced : s.raced = [])
    (h : exec (.format f) s = .next t) {a : Nat} (hlo : s.outputBase ≤ a)
    (hhi : a < s.outputBase + t.unsigned .len) : t.mem.read a = (s.outputText f).getD (a - s.outputBase) 0 := by
  have hlen : t.unsigned .len ≤
      writesDone (s.outputText f).length (s.portWrites s.mem s.outputBase (s.outputText f)).2 := by
    rw [State.unsigned, len_of_execFormat hwf h, BitVec.toNat_ofNat]
    exact Nat.mod_le _ _
  obtain ⟨-, -, -, -, hread⟩ := s.portWrites_spec (s.outputText f) s.mem s.outputBase hwf
  rw [mem_of_exec h, memAfter, hread, if_pos ⟨hlo, by omega⟩]
  simp [State.leftByte, hraced, raceAt]

/-- Settles O25, by the results of each command and, for FORMAT, the bytes of one text at one place. -/
theorem resultsDependOnlyOnWhatIsRead : Obligations.ResultsDependOnlyOnWhatIsRead := by
  intro i s s' _ h
  obtain ⟨t, t', ht, ht', hres⟩ := exec_sameResults h
  refine ⟨t, t', ht, ht', hres.cause, hres.regs, hres.sign, hres.rounding, hres.cls, ?_⟩
  rintro f rfl hwf hwf' hr hr' a hlo hhi
  have hlen : t'.unsigned .len = t.unsigned .len := by
    rw [State.unsigned, State.unsigned, len_of_execFormat hwf ht, len_of_execFormat hwf' ht', h.outputText,
      h.outputBase, State.portWrites_fault_congr h.params _ s.mem]
  rw [read_of_execFormat hwf hr ht hlo hhi,
    read_of_execFormat hwf' hr' ht' (h.outputBase ▸ hlo) (by rwa [h.outputBase, hlen]), h.outputText, h.outputBase]

end Sys2Proof.Machine
end

section
/-! The races of 20_memory.md R40: the host's loads and stores of memory, while a command runs and while none does, and
the bytes FORMAT writes. -/

namespace Sys2Proof.Machine

/-! ### The host's stores -/

section

variable (s : State) (a : Nat) (b : Byte)

@[simp] theorem State.mem_storeByte : (s.storeByte a b).mem = s.mem.write a b := by
  unfold State.storeByte; split <;> rfl

@[simp] theorem State.params_storeByte : (s.storeByte a b).params = s.params := by
  unfold State.storeByte; split <;> rfl

@[simp] theorem State.regs_storeByte : (s.storeByte a b).regs = s.regs := by
  unfold State.storeByte; split <;> rfl

@[simp] theorem State.flags_storeByte : (s.storeByte a b).flags = s.flags := by
  unfold State.storeByte; split <;> rfl

@[simp] theorem State.status_storeByte : (s.storeByte a b).status = s.status := by
  unfold State.storeByte; split <;> rfl

end

section

variable {s : State} {a : Nat} {b : Byte} {ops : List HostOp}

theorem State.raced_storeByte_idle (hb : s.status.busy = false) : (s.storeByte a b).raced = s.raced := by
  simp [State.storeByte, hb]

theorem State.raced_storeByte_busy (hb : s.status.busy = true) :
    (s.storeByte a b).raced = ⟨a, s.draws⟩ :: s.raced := by
  simp [State.storeByte, hb]

theorem State.draws_storeByte_busy (hb : s.status.busy = true) : (s.storeByte a b).draws = s.draws + 1 := by
  simp [State.storeByte, hb]

/-- The engine reads what an address holds when no race marks it. -/
theorem State.seenByte_of_raced_nil (h : s.raced = []) (a : Nat) : s.seenByte a = s.mem.read a := by
  simp [State.seenByte, h, raceAt]

/-- A store made while a command runs leaves the engine's read of its byte to the store's draw (20_memory.md R40 d). -/
theorem State.seenByte_storeByte_busy (hb : s.status.busy = true) :
    (s.storeByte a b).seenByte a = Config.racedByte s.draws := by
  simp [State.seenByte, State.raced_storeByte_busy hb, raceAt]

/-- A store reaches the engine's read of no other byte. -/
theorem State.seenByte_storeByte_other {a' : Nat} (h : a' ≠ a) : (s.storeByte a b).seenByte a' = s.seenByte a' := by
  have hrace : raceAt (s.storeByte a b).raced a' = raceAt s.raced a' := by
    cases hb : s.status.busy
    · rw [State.raced_storeByte_idle hb]
    · simp [State.raced_storeByte_busy hb, raceAt, h.symm]
  simp only [State.seenByte, hrace, State.mem_storeByte, Memory.read_write_other b h]

/-- Where the memory completes the access, the port's read is the byte the engine sees. -/
theorem State.portRead_of_access (h : portAccess s.params a = .ok ()) : s.portRead a = .ok (s.seenByte a) := by
  simp [State.portRead, h]

theorem State.portRead_congr {t : State} (hp : t.params = s.params) (h : t.seenByte a = s.seenByte a) :
    t.portRead a = s.portRead a := by
  simp only [State.portRead, hp, h]

theorem step_memWrite (ha : portAccess s.params a = .ok ()) (h : s.inbox = .memWrite a b :: ops) :
    step s = .next (s.popInbox.storeByte a b) := by
  rw [step_of_hostOp (op := .memWrite a b) nofun h]
  simp [hostAct, hostStore, ha]

end

/-- Settles O18: with no race marked, the engine reads the memory that the store has written. -/
theorem idleHostStoreIsSeenByTheEngine : Obligations.IdleHostStoreIsSeenByTheEngine := by
  intro s a b ops hwf hb hraced ha h
  have hread : (s.popInbox.storeByte a b).mem.read a = b := by simp [Memory.read_write_same hwf]
  have hunraced : (s.popInbox.storeByte a b).raced = [] := (State.raced_storeByte_idle (by simpa using hb)).trans hraced
  refine ⟨_, step_memWrite ha h, ?_, hread, fun a' ha' => ?_, by simp, by simp, by simp⟩
  · rw [State.portRead_of_access (by simpa using ha), State.seenByte_of_raced_nil hunraced, hread]
  · simp [Memory.read_write_other b ha']

/-! ### The bytes FORMAT writes -/

/-- The number of bytes FORMAT writes: those of its text before the first write that faults. -/
def State.bytesWritten (s : State) (f : FloatFormat) : Nat :=
  writesDone (s.outputText f).length (s.portWrites s.mem s.outputBase (s.outputText f)).2

/-- FORMAT writes no more than its text, and the memory completes each access of a byte it writes. The faults are those
of a memory that holds nothing, so the memory need not be in canonical form. -/
theorem State.bytesWritten_spec (s : State) (f : FloatFormat) :
    s.bytesWritten f ≤ (s.outputText f).length ∧
      ∀ j < s.bytesWritten f, portAccess s.params (s.outputBase + j) = .ok () := by
  unfold State.bytesWritten
  rw [State.portWrites_fault_congr (s := s) (s' := s) rfl (s.outputText f) [] s.mem s.outputBase]
  obtain ⟨-, hlen, hacc, -, -⟩ := s.portWrites_spec (s.outputText f) [] s.outputBase rfl
  exact ⟨hlen, hacc⟩

/-- The byte of the text at an address that FORMAT writes is the byte it writes there. -/
theorem State.writesByte_of_lt {s : State} {f : FloatFormat} {a : Nat} (hlo : s.outputBase ≤ a)
    (hhi : a < s.outputBase + s.bytesWritten f) {b : Byte} (hb : (s.outputText f)[a - s.outputBase]? = some b) :
    s.writesByte f a b := by
  refine ⟨hlo, hb, fun a' hlo' ha' => ?_⟩
  have hacc := (s.bytesWritten_spec f).2 (a' - s.outputBase) (by omega)
  rwa [Nat.add_sub_cancel' hlo'] at hacc

/-- An engine write leaves its own byte, or what memory holds where the host raced for it (20_memory.md R40 e). -/
theorem State.leftByte_cases (s : State) (m : Memory) (a : Nat) (b : Byte) :
    s.leftByte m a b = b ∨ s.leftByte m a b = m.read a := by
  unfold State.leftByte
  split
  · exact .inl rfl
  · split
    · exact .inr rfl
    · exact .inl rfl

/-- What FORMAT leaves at an address: outside the bytes it writes what was there, and at one of these the byte that the
engine's write leaves. -/
theorem read_of_format {f : FloatFormat} {s t : State} (hwf : Memory.wf s.mem = true)
    (h : exec (.format f) s = .next t) (a : Nat) :
    t.mem.read a = if s.outputBase ≤ a ∧ a < s.outputBase + s.bytesWritten f then
      s.leftByte s.mem a ((s.outputText f).getD (a - s.outputBase) 0) else s.mem.read a := by
  obtain ⟨-, -, -, -, hread⟩ := s.portWrites_spec (s.outputText f) s.mem s.outputBase hwf
  rw [mem_of_exec h]
  exact hread a

/-- After FORMAT each byte is the one that was there or the one FORMAT writes. -/
theorem read_of_format_cases {f : FloatFormat} {s t : State} (hwf : Memory.wf s.mem = true)
    (h : exec (.format f) s = .next t) (a : Nat) :
    t.mem.read a = s.mem.read a ∨ s.writesByte f a (t.mem.read a) := by
  rw [read_of_format hwf h]
  split
  · next hin =>
    obtain ⟨hlo, hhi⟩ := hin
    have hlen := (s.bytesWritten_spec f).1
    rcases s.leftByte_cases s.mem a ((s.outputText f).getD (a - s.outputBase) 0) with e | e <;> rw [e]
    · refine .inr (State.writesByte_of_lt hlo hhi ?_)
      rw [List.getD_eq_getElem _ _ (by omega), List.getElem?_eq_getElem]
    · exact .inl rfl
  · exact .inl rfl

/-- Settles O20: the store's draw is what the engine reads, and FORMAT leaves the byte in memory or its own. -/
theorem racedBytesAreFree : Obligations.RacedBytesAreFree := by
  refine ⟨fun s a b ops hwf hb ha h => ?_, fun s f hwf => ?_⟩
  · have hb' : s.popInbox.status.busy = true := by simpa using hb
    refine ⟨_, step_memWrite ha h, by simp [Memory.wf_write a b hwf], by simp [Memory.read_write_same hwf],
      fun a' ha' => by simp [Memory.read_write_other b ha'], ?_, ?_, by simp, by simp, fun a' ha' => ?_⟩
    · rw [State.portRead_of_access (by simpa using ha), State.seenByte_storeByte_busy hb', State.draws_popInbox]
    · simp [State.draws_storeByte_busy hb']
    · exact (State.portRead_congr (by simp) (State.seenByte_storeByte_other ha')).trans rfl
  · obtain ⟨u, c, h, -, -⟩ := exec_cases (.format f) s
    exact ⟨_, h, read_of_format_cases hwf h⟩

/-! ### The host's loads -/

theorem State.running_eq_some {s : State} {i : Instr} :
    s.running = some i ↔ s.status.busy = true ∧ decode s.cmd = .ok i := by
  unfold State.running
  cases s.status.busy <;> cases decode s.cmd <;> simp [Except.toOption]

theorem State.outputByte_of_format {s : State} {f : FloatFormat} (h : s.running = some (.format f)) (a : Nat) :
    s.outputByte a =
      if s.outputBase ≤ a then ((s.outputText f).take (s.bytesWritten f))[a - s.outputBase]? else none := by
  unfold State.outputByte State.bytesWritten
  rw [h]
  rfl

theorem State.outputByte_of_no_format {s : State} (h : ∀ f, s.running ≠ some (.format f)) (a : Nat) :
    s.outputByte a = none := by
  unfold State.outputByte
  split
  · next f hf => exact absurd hf (h f)
  · rfl

/-- An output byte is a byte that the running FORMAT writes. -/
theorem State.writesByte_of_outputByte {s : State} {a : Nat} {b : Byte} (h : s.outputByte a = some b) :
    ∃ f, s.running = some (.format f) ∧ s.writesByte f a b := by
  by_cases hf : ∃ f, s.running = some (.format f)
  · obtain ⟨f, hf⟩ := hf
    obtain ⟨hlo, hlt, hget⟩ : s.outputBase ≤ a ∧ a - s.outputBase < s.bytesWritten f ∧
        (s.outputText f)[a - s.outputBase]? = some b := by
      simpa [State.outputByte_of_format hf, List.getElem?_take] using h
    exact ⟨f, hf, State.writesByte_of_lt hlo (by omega) hget⟩
  · rw [State.outputByte_of_no_format (not_exists.1 hf)] at h
    cases h

/-- A host load returns the byte in memory, or the byte that the running FORMAT writes there (20_memory.md R40 c). -/
theorem State.hostByte_cases (s : State) (a : Nat) :
    s.hostByte a = s.mem.read a ∨ ∃ f, s.running = some (.format f) ∧ s.writesByte f a (s.hostByte a) := by
  unfold State.hostByte
  split
  · exact .inl rfl
  · next b hb =>
    split
    · exact .inr (State.writesByte_of_outputByte hb)
    · exact .inl rfl

theorem step_memRead {s : State} {a : Nat} {ops : List HostOp} (ha : portAccess s.params a = .ok ())
    (h : s.inbox = .memRead a :: ops) :
    step s = .next ((s.popInbox.returnToHost ((s.popInbox.hostByte a).setWidth 64)).drawn) := by
  rw [step_of_hostOp (op := .memRead a) nofun h]
  simp [hostAct, hostLoad, ha]

/-- Settles O19: the load's byte is that in memory unless a FORMAT is running that writes it. -/
theorem hostLoadWhileFormatRunsIsOldOrNew : Obligations.HostLoadWhileFormatRunsIsOldOrNew := by
  intro s a ops ha h
  have hbyte : s.popInbox.hostByte a = s.mem.read a ∨ ∃ f, (s.status.busy = true ∧ decode s.cmd = .ok (.format f)) ∧
      s.writesByte f a (s.popInbox.hostByte a) :=
    (s.popInbox.hostByte_cases a).imp_right fun ⟨f, hrun, hw⟩ => ⟨f, State.running_eq_some.1 hrun, hw⟩
  refine ⟨_, _, step_memRead ha h, rfl, rfl, rfl, rfl, rfl, rfl, fun f hb hf => ?_, fun hidle => ?_⟩
  · refine hbyte.imp_right fun ⟨g, ⟨_, hg⟩, hw⟩ => ?_
    obtain rfl : f = g := by simpa [hf] using hg
    exact hw
  · refine hbyte.resolve_right fun ⟨g, ⟨hb, hg⟩, _⟩ => ?_
    rcases hidle with hidle | hother
    · exact absurd (hb.symm.trans hidle) (by decide)
    · exact hother g hg

end Sys2Proof.Machine
end

section
/-! The length of FORMAT's text, and the frame of memory (20_memory.md R29, R34). -/

namespace Sys2Proof.Machine

/-! ### The length of a text (45_extract_format.md R102, R103) -/

@[simp] theorem length_digitBytes (count number : Nat) : (digitBytes count number).length = count := by
  simp [digitBytes]

theorem length_decimalBytes_le (n : Nat) : (decimalBytes n).length ≤ 3 := by
  rw [decimalBytes, length_digitBytes]
  split_ifs <;> omega

theorem length_signText_le (neg : Bool) : (signText neg).length ≤ 1 := by cases neg <;> decide

/-- The fixed form is the digits with a point among them, or with "0." and at most three zeros before them. -/
theorem length_fixedText_le {ds : List Byte} {x : Int} (h : -4 ≤ x) : (fixedText ds x).length ≤ ds.length + 5 := by
  unfold fixedText
  split
  · dsimp only
    split
    · simp
      omega
    · simp
  · simp
    omega

/-- The exponential form is the digits, a point, the marker with a sign, and at most three digits of the exponent. -/
theorem length_exponentialText_le (ds : List Byte) (x : Int) : (exponentialText ds x).length ≤ ds.length + 6 := by
  have hexp := length_decimalBytes_le x.natAbs
  unfold exponentialText
  split <;> simp <;> omega

theorem length_renderDigits_le (d : DecimalDigits) : (renderDigits d).length ≤ d.count + 6 := by
  unfold renderDigits
  dsimp only
  split
  · next hfixed =>
    have := length_fixedText_le (ds := digitBytes d.count d.number) hfixed.1
    rw [length_digitBytes] at this
    omega
  · simpa using length_exponentialText_le (digitBytes d.count d.number) d.exp10

theorem count_decimalDigits_le (r : Pow5Rounding) (m : Nat) (e2 : Int) : (decimalDigits r m e2).count ≤ 17 :=
  Nat.sub_le _ _

/-- The text of every pattern has at most 24 bytes (45_extract_format.md R103). -/
theorem length_formatText_le (r : Pow5Rounding) (f : FloatFormat) (b : Nat) : (formatText r f b).length ≤ 24 := by
  have hsign := length_signText_le (decompose f b).neg
  have hdigits := length_renderDigits_le (decimalDigits r (decompose f b).m (decompose f b).e2)
  have hcount := count_decimalDigits_le r (decompose f b).m (decompose f b).e2
  unfold formatText
  dsimp only
  split
  · decide
  · decide
  · rw [List.length_append, List.length_singleton]
    omega
  · rw [List.length_append]
    omega

/-! ### The frame of memory -/

/-- No command but FORMAT changes memory. -/
theorem memAfter_of_ne_format {i : Instr} (h : ∀ f, i ≠ .format f) (s : State) : memAfter i s = s.mem := by
  cases i
  case format f => exact absurd rfl (h f)
  all_goals rfl

/-- Settles O24: FORMAT writes at most its text, which has at most 24 bytes. -/
theorem onlyFormatWritesMemory : Obligations.OnlyFormatWritesMemory := by
  intro i s t _ hwf h
  refine ⟨fun hi a => by rw [mem_of_exec h, memAfter_of_ne_format hi], ?_⟩
  rintro f rfl a hout
  have hwritten : s.bytesWritten f ≤ 24 := (s.bytesWritten_spec f).1.trans (length_formatText_le _ _ _)
  rw [read_of_format hwf h, if_neg (by omega)]

end Sys2Proof.Machine
end

section
/-! What the scanner and each of its parts succeed on (42_scanner.md R68, R70). -/

namespace Sys2Proof.Machine

variable {peek : Peek} {fuel i n : Nat}

/-- The two ways an integer part succeeds: a '0' that stands alone, or a digit run with another first digit. -/
theorem scanInt_ok_iff {x : Accum} : scanInt peek fuel i = .ok (x, n) ↔
    (peek i = .ok (some chZero) ∧ ∃ c, peek (i + 1) = .ok c ∧ isDigit c = false ∧ x = ⟨0, 0, 0⟩ ∧ n = i + 1) ∨
    ∃ c ds, peek i = .ok c ∧ isDigit c = true ∧ c ≠ some chZero ∧ digitRun peek fuel i = .ok ds ∧
      x = ds.foldl Accum.intDigit ⟨0, 0, 0⟩ ∧ n = i + ds.length := by
  unfold scanInt
  rcases peek i with e | c
  · simp
  · by_cases hz : c = some chZero
    · have hd : isDigit (some chZero) = true := by decide
      subst hz
      rcases peek (i + 1) with e | d
      · simp [hd]
      · cases hd1 : isDigit d <;> simp [hd, hd1, eq_comm (a := x), eq_comm (a := n)]
    · cases hd : isDigit c
      · simp [hd, hz]
      · cases digitRun peek fuel i <;> simp [hd, hz, eq_comm (a := x), eq_comm (a := n)]

/-- The two ways a fraction part succeeds: there is none, or a point with digits after it. -/
theorem scanFrac_ok_iff {x y : Accum} : scanFrac peek fuel x i = .ok (y, n) ↔
    (∃ c, peek i = .ok c ∧ c ≠ some chDot ∧ y = x ∧ n = i) ∨
    (peek i = .ok (some chDot) ∧ ∃ ds, digitRun1 peek fuel (i + 1) = .ok ds ∧
      y = ds.foldl Accum.fracDigit x ∧ n = i + 1 + ds.length) := by
  unfold scanFrac
  rcases peek i with e | c
  · simp
  · by_cases hdot : c = some chDot
    · cases digitRun1 peek fuel (i + 1) <;> simp [hdot, eq_comm (a := y), eq_comm (a := n)]
    · simp [hdot, eq_comm (a := y), eq_comm (a := n)]

/-- Whether a byte is a sign of an exponent. -/
def isSign (c : Option Byte) : Bool := c == some chPlus || c == some chMinus

/-- The value of an exponent with the byte `g` after its marker. -/
def exponentValue (g : Option Byte) (ds : List Nat) : Int :=
  if g = some chMinus then -(decimalValue ds : Int) else decimalValue ds

theorem isSign_iff {g : Option Byte} : isSign g = true ↔ g = some chPlus ∨ g = some chMinus := by
  simp [isSign]

/-- The cursor after the marker and the sign, where one is written. -/
theorem cursor_after_sign (i : Nat) (g : Option Byte) :
    (if g = some chPlus ∨ g = some chMinus then i + 2 else i + 1) = i + 1 + (isSign g).toNat := by
  simp only [← isSign_iff]
  cases isSign g <;> rfl

/-- The two ways an exponent part succeeds: there is none, or a marker, a sign where one is written, and digits. -/
theorem scanExp_ok_iff {v : Int} : scanExp peek fuel i = .ok (v, n) ↔
    (∃ c, peek i = .ok c ∧ ¬(c = some chLowerE ∨ c = some chUpperE) ∧ v = 0 ∧ n = i) ∨
    ∃ c g ds, peek i = .ok c ∧ (c = some chLowerE ∨ c = some chUpperE) ∧ peek (i + 1) = .ok g ∧
      digitRun1 peek fuel (i + 1 + (isSign g).toNat) = .ok ds ∧ v = exponentValue g ds ∧
      n = i + 1 + (isSign g).toNat + ds.length := by
  unfold scanExp
  simp only [cursor_after_sign]
  rcases peek i with e | c
  · simp
  · by_cases he : c = some chLowerE ∨ c = some chUpperE
    · rcases peek (i + 1) with e | g
      · simp [he, -not_or]
      · cases hds : digitRun1 peek fuel (i + 1 + (isSign g).toNat) <;>
          simp [he, hds, exponentValue, eq_comm (a := v), eq_comm (a := n), -not_or]
    · simp [he, eq_comm (a := v), eq_comm (a := n), -not_or]

/-- A scan succeeds where its parts do, each from the cursor of the one before. -/
theorem scanText_ok_iff {r : Scanned} : scanText peek fuel = .ok r ↔
    ∃ neg x i y j v n, scanSign peek = .ok neg ∧ scanInt peek fuel neg.toNat = .ok (x, i) ∧
      scanFrac peek fuel x i = .ok (y, j) ∧ scanExp peek fuel j = .ok (v, n) ∧
      r = ⟨neg, y.m, clampExp10 (y.e + v), n⟩ := by
  unfold scanText
  rcases scanSign peek with e | neg
  · simp
  · rcases hx : scanInt peek fuel neg.toNat with e | ⟨x, i⟩
    · simp [hx]
    · rcases hy : scanFrac peek fuel x i with e | ⟨y, j⟩
      · simp [hx, hy]
      · rcases hv : scanExp peek fuel j with e | ⟨v, n⟩ <;> simp [hx, hy, hv, eq_comm (a := r)]

end Sys2Proof.Machine
end

section
/-! A scan that succeeds reads the bytes up to POS and no other (20_memory.md R33). -/

namespace Sys2Proof.Machine

/-! ### Texts that agree up to the cursor -/

section

variable {peek peek' : Peek} {fuel i n : Nat}

theorem digitRun_ok_congr {ds : List Nat} (h : digitRun peek fuel i = .ok ds)
    (hp : ∀ j ≤ i + ds.length, peek' j = peek j) : digitRun peek' fuel i = .ok ds := by
  induction fuel generalizing i ds with
  | zero => exact h
  | succ fuel ih =>
    unfold digitRun at h ⊢
    rw [hp i (Nat.le_add_right _ _)]
    split at h
    · cases h
    · next c hc =>
      split at h
      · next hd =>
        split at h
        · cases h
        · next es hes =>
          cases h
          have hrec := ih hes fun j hj => hp j (by rw [List.length_cons]; omega)
          simp [hd, hrec]
      · next hd => simpa [hd] using h

theorem digitRun1_ok_congr {ds : List Nat} (h : digitRun1 peek fuel i = .ok ds)
    (hp : ∀ j ≤ i + ds.length, peek' j = peek j) : digitRun1 peek' fuel i = .ok ds := by
  have hrun := digitRun1_ok h
  unfold digitRun1 at h ⊢
  rw [digitRun_ok_congr hrun hp]
  rwa [hrun] at h

theorem scanInt_ok_congr {x : Accum} (h : scanInt peek fuel i = .ok (x, n)) (hp : ∀ j ≤ n, peek' j = peek j) :
    scanInt peek' fuel i = .ok (x, n) := by
  rw [scanInt_ok_iff] at h ⊢
  rcases h with ⟨hc, c1, hc1, hd1, rfl, rfl⟩ | ⟨c, ds, hc, hd, hz, hds, rfl, rfl⟩
  · exact .inl ⟨(hp _ (Nat.le_succ _)).trans hc, c1, (hp _ le_rfl).trans hc1, hd1, rfl, rfl⟩
  · exact .inr ⟨c, ds, (hp _ (Nat.le_add_right _ _)).trans hc, hd, hz, digitRun_ok_congr hds hp, rfl, rfl⟩

theorem scanFrac_ok_le {x y : Accum} (h : scanFrac peek fuel x i = .ok (y, n)) : i ≤ n := by
  rcases scanFrac_ok_iff.1 h with ⟨_, _, _, _, rfl⟩ | ⟨_, _, _, _, rfl⟩ <;> omega

theorem scanFrac_ok_congr {x y : Accum} (h : scanFrac peek fuel x i = .ok (y, n)) (hp : ∀ j ≤ n, peek' j = peek j) :
    scanFrac peek' fuel x i = .ok (y, n) := by
  have hi := hp i (scanFrac_ok_le h)
  rw [scanFrac_ok_iff] at h ⊢
  rcases h with ⟨c, hc, hdot, rfl, rfl⟩ | ⟨hc, ds, hds, rfl, rfl⟩
  · exact .inl ⟨c, hi.trans hc, hdot, rfl, rfl⟩
  · exact .inr ⟨hi.trans hc, ds, digitRun1_ok_congr hds hp, rfl, rfl⟩

theorem scanExp_ok_le {v : Int} (h : scanExp peek fuel i = .ok (v, n)) : i ≤ n := by
  rcases scanExp_ok_iff.1 h with ⟨_, _, _, _, rfl⟩ | ⟨_, _, _, _, _, _, _, _, rfl⟩ <;> omega

theorem scanExp_ok_congr {v : Int} (h : scanExp peek fuel i = .ok (v, n)) (hp : ∀ j ≤ n, peek' j = peek j) :
    scanExp peek' fuel i = .ok (v, n) := by
  have hi := hp i (scanExp_ok_le h)
  rw [scanExp_ok_iff] at h ⊢
  rcases h with ⟨c, hc, he, rfl, rfl⟩ | ⟨c, g, ds, hc, he, hg, hds, rfl, rfl⟩
  · exact .inl ⟨c, hi.trans hc, he, rfl, rfl⟩
  · exact .inr ⟨c, g, ds, hi.trans hc, he, (hp (i + 1) (by omega)).trans hg, digitRun1_ok_congr hds hp, rfl, rfl⟩

/-- A scan that succeeds is the scan of every text that agrees on the bytes consumed and the one after them. -/
theorem scanText_ok_congr {r : Scanned} (h : scanText peek fuel = .ok r) (hp : ∀ j ≤ r.consumed, peek' j = peek j) :
    scanText peek' fuel = .ok r := by
  rw [scanText_ok_iff] at h ⊢
  obtain ⟨neg, x, i, y, j, v, n, hneg, hx, hy, hv, rfl⟩ := h
  have hij := scanFrac_ok_le hy
  have hjn := scanExp_ok_le hv
  have hneg' : scanSign peek' = .ok neg := by
    unfold scanSign
    rw [hp 0 (Nat.zero_le _)]
    exact hneg
  exact ⟨neg, x, i, y, j, v, n, hneg', scanInt_ok_congr hx fun k hk => hp k (hk.trans (hij.trans hjn)),
    scanFrac_ok_congr hy fun k hk => hp k (hk.trans hjn), scanExp_ok_congr hv hp, rfl⟩

end

/-! ### The end of the text -/

section

variable {peek : Peek} {fuel n : Nat}

theorem scanSign_reached {neg : Bool} (h : scanSign peek = .ok neg) : Reached peek neg.toNat := by
  cases neg with
  | false => exact .zero peek
  | true =>
    unfold scanSign at h
    split at h
    · cases h
    · next c hc =>
      obtain rfl : c = some chMinus := by simpa using h
      exact (Reached.zero peek).succ hc (by decide)

/-- The cursor passes no offset at which there is no byte. -/
theorem Reached.le {N : Nat} (h : Reached peek n) (hN : ∀ j c, peek j = .ok (some c) → j < N) : n ≤ N := by
  by_contra hn
  obtain ⟨c, hc, -⟩ := h N (by omega)
  exact lt_irrefl N (hN N c hc)

/-- After a digit run whose bound is not met the next byte has been read. -/
theorem digitRun1_ends {N i : Nat} {ds : List Nat} (hN : ∀ j c, peek j = .ok (some c) → j < N) (hf : N < fuel)
    (hi : Reached peek i) (h : digitRun1 peek fuel i = .ok ds) :
    Reached peek (i + ds.length) ∧ ∃ c, peek (i + ds.length) = .ok c := by
  have hreach := hi.run (digitRun1_ok h)
  obtain ⟨-, -, hend⟩ := digitRun_ok (digitRun1_ok h)
  obtain ⟨c, hc, -⟩ := hend (by have := hreach.le hN; omega)
  exact ⟨hreach, c, hc⟩

theorem scanExp_ends {N i : Nat} {v : Int} (hN : ∀ j c, peek j = .ok (some c) → j < N) (hf : N < fuel)
    (hi : Reached peek i) (h : scanExp peek fuel i = .ok (v, n)) : Reached peek n ∧ ∃ c, peek n = .ok c := by
  rcases scanExp_ok_iff.1 h with ⟨c, hc, _, _, rfl⟩ | ⟨c, g, ds, hc, he, hg, hds, _, rfl⟩
  · exact ⟨hi, c, hc⟩
  · have hmarker : Reached peek (i + 1) := by
      rcases he with rfl | rfl <;> exact hi.succ hc (by decide)
    have hsign : Reached peek (i + 1 + (isSign g).toNat) := by
      cases hs : isSign g
      · exact hmarker
      · rcases isSign_iff.1 hs with rfl | rfl <;> exact hmarker.succ hg (by decide)
    exact digitRun1_ends hN hf hsign hds

/-- A scan that succeeds consumes bytes of the grammar's classes, and reads what stands after them. -/
theorem scanText_ends {N : Nat} {r : Scanned} (hN : ∀ j c, peek j = .ok (some c) → j < N) (hf : N < fuel)
    (h : scanText peek fuel = .ok r) : Reached peek r.consumed ∧ ∃ c, peek r.consumed = .ok c := by
  obtain ⟨neg, x, i, y, j, v, n, hneg, hx, hy, hv, rfl⟩ := scanText_ok_iff.1 h
  exact scanExp_ends hN hf (scanFrac_reached (scanInt_reached (scanSign_reached hneg) hx) hy) hv

end

/-! ### The text of a state -/

section

variable {s : State} {m : ScanMode}

/-- Everything `peek` answers without a fault: the end of a bounded text, or a byte that the memory completes. -/
theorem State.peek_ok {j : Nat} {c : Option Byte} (h : s.peek m j = .ok c) :
    (c = none ∧ m = .bounded ∧ s.boundedLength ≤ j) ∨
    (c = some (s.seenByte (s.unsigned .addr + j)) ∧ ¬(m = .bounded ∧ s.boundedLength ≤ j) ∧
      portAccess s.params (s.unsigned .addr + j) = .ok ()) := by
  unfold State.peek at h
  split at h
  · next hb =>
    cases h
    exact .inl ⟨rfl, hb⟩
  · next hb =>
    unfold State.portRead at h
    cases ha : portAccess s.params (s.unsigned .addr + j) with
    | error e => simp [ha] at h
    | ok u =>
      simp only [ha] at h
      cases h
      exact .inr ⟨rfl, hb, rfl⟩

/-- A byte of the text lies in the address space. -/
theorem State.peek_some_lt {j : Nat} {c : Byte} (h : s.peek m j = .ok (some c)) :
    s.unsigned .addr + j < 2 ^ s.params.addrWidth := by
  rcases State.peek_ok h with ⟨hc, -⟩ | ⟨-, -, hacc⟩
  · cases hc
  · exact portAccess_ok_lt hacc

/-- The cursor passes no end of a bounded text. -/
theorem State.reached_le_boundedLength {n : Nat} (h : Reached (s.peek .bounded) n) : n ≤ s.boundedLength := by
  refine h.le fun _ _ hj => ?_
  rcases State.peek_ok hj with ⟨hnone, -⟩ | ⟨-, hin, -⟩
  · cases hnone
  · exact not_le.1 fun hl => hin ⟨rfl, hl⟩

/-- POS of a scan that succeeds does not wrap: what stands after the literal is the end of the text or a byte in the
address space. -/
theorem State.textPos_of_scan {r : Scanned} (hp : s.params.wf = true) (h : s.scan m = .ok r) :
    (s.textPos r.consumed).toNat = s.unsigned .addr + r.consumed := by
  have hspace : ∀ j c, s.peek m j = .ok (some c) → j < 2 ^ s.params.addrWidth := fun _ _ hc =>
    (Nat.le_add_left _ _).trans_lt (State.peek_some_lt hc)
  obtain ⟨hreach, c, hc⟩ := scanText_ends hspace (Nat.lt_succ_self _) h
  have hlt : s.unsigned .addr + r.consumed < 2 ^ 64 := by
    rcases State.peek_ok hc with ⟨-, rfl, -⟩ | ⟨-, -, hacc⟩
    · have hle := State.reached_le_boundedLength hreach
      have haddr : s.unsigned .addr < 2 ^ 64 := (s.reg .addr).isLt
      have hend : s.unsigned .endAddr < 2 ^ 64 := (s.reg .endAddr).isLt
      unfold State.boundedLength at hle
      omega
    · have hwidth : 1 ≤ s.params.addrWidth ∧ s.params.addrWidth ≤ 64 := by simpa [Params.wf] using hp
      exact (portAccess_ok_lt hacc).trans_le (Nat.pow_le_pow_right (by decide) hwidth.2)
  rw [State.textPos, BitVec.toNat_ofNat, Nat.mod_eq_of_lt hlt]

/-- `peek` reads memory at one address, and below END in bounded mode. -/
theorem State.peek_setMem {mem' : Memory} {j : Nat}
    (h : (m = .bounded → s.unsigned .addr + j < s.unsigned .endAddr) →
      mem'.read (s.unsigned .addr + j) = s.mem.read (s.unsigned .addr + j)) :
    (s.setMem mem').peek m j = s.peek m j := by
  by_cases hb : m = .bounded ∧ s.boundedLength ≤ j
  · have hb' : m = .bounded ∧ (s.setMem mem').boundedLength ≤ j := hb
    rw [State.peek, if_pos hb', State.peek, if_pos hb]
  · have hread := h fun hm => by
      have hl : ¬ s.boundedLength ≤ j := fun hl => hb ⟨hm, hl⟩
      unfold State.boundedLength at hl
      omega
    have hb' : ¬(m = .bounded ∧ (s.setMem mem').boundedLength ≤ j) := hb
    have hseen : (s.setMem mem').seenByte (s.unsigned .addr + j) = s.seenByte (s.unsigned .addr + j) := by
      simp only [State.seenByte, State.raced_setMem, State.mem_setMem, hread]
    have hport : (s.setMem mem').portRead ((s.setMem mem').unsigned .addr + j) = s.portRead (s.unsigned .addr + j) :=
      State.portRead_congr rfl hseen
    rw [State.peek, if_neg hb', State.peek, if_neg hb, hport]

/-- A scan that succeeds reads no byte past the one after the literal, and in bounded mode none at or past END. -/
theorem State.scan_setMem {mem' : Memory} {r : Scanned} (h : s.scan m = .ok r)
    (hread : ∀ a, s.unsigned .addr ≤ a → a ≤ s.unsigned .addr + r.consumed →
      (m = .bounded → a < s.unsigned .endAddr) → mem'.read a = s.mem.read a) :
    (s.setMem mem').scan m = .ok r :=
  scanText_ok_congr h fun j hj => State.peek_setMem (hread _ (Nat.le_add_right _ _) (Nat.add_le_add_left hj _))

end

/-! ### SCAN and PARSE -/

/-- A SCAN or PARSE that ends with OK has scanned its text: POS is the end of the literal. -/
theorem scan_ok_of_exec {s t : State} {i : Instr} {m : ScanMode} (hi : i = .scan m ∨ ∃ f, i = .parse f m)
    (h : exec i s = .next t) (hc : t.status.cause = .ok) :
    ∃ r, s.scan m = .ok r ∧ t.reg .pos = s.textPos r.consumed := by
  rcases hs : s.scan m with e | r
  · have herr : t = s.raiseText e := by
      rcases hi with rfl | ⟨f, rfl⟩ <;> simpa [exec, execScan, execParse, hs, eq_comm] using h
    rw [herr, (s.raiseText_frame e).1] at hc
    exact absurd hc e.cause_ne_ok
  · refine ⟨r, rfl, ?_⟩
    rcases hi with rfl | ⟨f, rfl⟩ <;> simp only [exec, execScan, execParse, hs] at h <;> cases h <;> simp

/-- SCAN and PARSE touch memory by their scan only. -/
theorem exec_setMem_of_scan {s t : State} {i : Instr} {m : ScanMode} {mem' : Memory} {r : Scanned}
    (hi : i = .scan m ∨ ∃ f, i = .parse f m) (h : exec i s = .next t) (hs : s.scan m = .ok r)
    (hs' : (s.setMem mem').scan m = .ok r) : exec i (s.setMem mem') = .next (t.setMem mem') := by
  rcases hi with rfl | ⟨f, rfl⟩
  · simp only [exec, execScan, hs, hs'] at h ⊢
    cases h
    rfl
  · simp only [exec, execParse, hs, hs', State.params_setMem] at h ⊢
    generalize literalPattern s.params.rounding f r = b at h ⊢
    cases h
    rfl

/-- Settles O40: POS is the end of the literal, and the scan that succeeds reads no byte past it. -/
theorem scanReadsNoByteOutsideItsText : Obligations.ScanReadsNoByteOutsideItsText := by
  intro s t i m mem' hi hp h hc hread
  obtain ⟨r, hs, hpos⟩ := scan_ok_of_exec hi h hc
  have hend : t.unsigned .pos = s.unsigned .addr + r.consumed := by
    rw [State.unsigned, hpos, State.textPos_of_scan hp hs]
  exact exec_setMem_of_scan hi h hs (State.scan_setMem hs (hend ▸ hread))

end Sys2Proof.Machine
end

section
/-! The decoder and the encoder (30_encoding.md R44 to R52): the fields of each command's word, and that legal words and
well-formed commands correspond one to one. -/

namespace Sys2Proof

/-! ### Fields -/

/-- The fields of a command's word: a field that the opcode does not use is zero. -/
def Instr.fields : Instr → WordFields
  | .nop => ⟨0x00, false, false, false, 0, false, false⟩
  | .mul64 => ⟨0x01, false, false, false, 0, false, false⟩
  | .mul128 => ⟨0x02, false, false, false, 0, false, false⟩
  | .pow5 t k => ⟨0x03, false, false, t == .neg, k, false, false⟩
  | .scan m => ⟨0x10, false, m == .nul, false, 0, false, false⟩
  | .scale => ⟨0x11, false, false, false, 0, false, false⟩
  | .assemble f => ⟨0x12, f == .binary32, false, false, 0, false, false⟩
  | .parse f m => ⟨0x13, f == .binary32, m == .nul, false, 0, false, false⟩
  | .extract f => ⟨0x20, f == .binary32, false, false, 0, false, false⟩
  | .format f => ⟨0x21, f == .binary32, false, false, 0, false, false⟩

@[simp] theorem Instr.fields_high (i : Instr) : i.fields.high = false := by cases i <;> rfl

@[simp] theorem Instr.fields_reserved (i : Instr) : i.fields.reserved = false := by cases i <;> rfl

/-- The entry index of every well-formed command is one of the table's (30_encoding.md R48). -/
theorem Instr.fields_k_lt {i : Instr} (h : i.wf = true) : i.fields.k < pow5Entries := by
  cases i
  case pow5 t k => exact of_decide_eq_true h
  all_goals exact (by decide : 0 < pow5Entries)

/-! The value of a one-bit field gives the bit back, and the bit its value (30_encoding.md R46 to R48). -/

@[simp] theorem formatOfBit_beq (b : Bool) : (formatOfBit b == .binary32) = b := by cases b <;> rfl

@[simp] theorem formatOfBit_of_beq (f : FloatFormat) : formatOfBit (f == .binary32) = f := by cases f <;> rfl

@[simp] theorem modeOfBit_beq (b : Bool) : (modeOfBit b == .nul) = b := by cases b <;> rfl

@[simp] theorem modeOfBit_of_beq (m : ScanMode) : modeOfBit (m == .nul) = m := by cases m <;> rfl

@[simp] theorem tableOfBit_beq (b : Bool) : (tableOfBit b == .neg) = b := by cases b <;> rfl

@[simp] theorem tableOfBit_of_beq (t : Pow5Table) : tableOfBit (t == .neg) = t := by cases t <;> rfl

theorem unlessSet_eq_ok_iff {unused : Bool} {i j : Instr} : unlessSet unused i = .ok j ↔ unused = false ∧ i = j := by
  cases unused <;> simp [unlessSet]

theorem fieldsOf_high_eq_false_iff {v : Word} : (fieldsOf v).high = false ↔ v.extractLsb' 32 32 = 0 := by
  simp [fieldsOf]

/-- The bits between the fields are zero exactly when bit 11 and bits [31:16] are. -/
theorem fieldsOf_reserved_eq_false_iff {v : Word} :
    (fieldsOf v).reserved = false ↔ v.getLsbD 11 = false ∧ v.extractLsb' 16 16 = 0 := by
  simp [fieldsOf]

/-- The number whose bits the fields are, where the bits around them are zero (30_encoding.md R45). -/
def WordFields.value (x : WordFields) : Nat :=
  x.op + 2 ^ 8 * x.w.toNat + 2 ^ 9 * x.m.toNat + 2 ^ 10 * x.t.toNat + 2 ^ 12 * x.k

theorem value_fieldsOf {v : Word} (hhigh : (fieldsOf v).high = false) (hres : (fieldsOf v).reserved = false) :
    (fieldsOf v).value = v.toNat := by
  rw [fieldsOf_high_eq_false_iff, ← BitVec.toNat_inj] at hhigh
  rw [fieldsOf_reserved_eq_false_iff, ← BitVec.toNat_inj, ← Bool.toNat_eq_zero] at hres
  have hv := v.isLt
  simp only [BitVec.getLsbD, Nat.toNat_testBit, BitVec.extractLsb'_toNat, Nat.shiftRight_eq_div_pow,
    BitVec.ofNat_eq_ofNat, BitVec.toNat_ofNat, Nat.zero_mod] at hhigh hres
  simp only [WordFields.value, fieldsOf, BitVec.getLsbD, Nat.toNat_testBit, BitVec.extractLsb'_toNat,
    Nat.shiftRight_eq_div_pow]
  omega

/-- A word is told by its fields. -/
theorem eq_of_fieldsOf_eq {v v' : Word} (hhigh : (fieldsOf v).high = false) (hres : (fieldsOf v).reserved = false)
    (h : fieldsOf v' = fieldsOf v) : v' = v := by
  apply BitVec.eq_of_toNat_eq
  rw [← value_fieldsOf hhigh hres, ← h, value_fieldsOf (by rwa [h]) (by rwa [h])]

/-! ### The legal commands -/

/-- The commands a legal word can stand for: one for each value of the fields its opcode uses (30_encoding.md R50). -/
def legalCommands : List Instr :=
  List.flatten [
    [.nop, .mul64, .mul128, .scan .bounded, .scan .nul, .scale, .assemble .binary64, .assemble .binary32],
    [.parse .binary64 .bounded, .parse .binary64 .nul, .parse .binary32 .bounded, .parse .binary32 .nul],
    [.extract .binary64, .extract .binary32, .format .binary64, .format .binary32],
    (List.range pow5Entries).map (.pow5 .pos), (List.range pow5Entries).map (.pow5 .neg)]

theorem mem_legalCommands {i : Instr} (h : i.wf = true) : i ∈ legalCommands := by
  cases i with
  | pow5 t k =>
    have hk : k < pow5Entries := of_decide_eq_true h
    cases t <;> simp [legalCommands, hk]
  | scan m => cases m <;> decide
  | parse f m => cases f <;> cases m <;> decide
  | assemble f | extract f | format f => cases f <;> decide
  | nop | mul64 | mul128 | scale => decide

theorem fieldsOf_encode {i : Instr} (h : i.wf = true) : fieldsOf (encode i) = i.fields := by
  have hall : ∀ i ∈ legalCommands, fieldsOf (encode i) = i.fields := by decide +kernel
  exact hall i (mem_legalCommands h)

/-! ### Decoding -/

/-- The opcode map and the legality of the fields accept a command's fields and no other (30_encoding.md R51 c, d). -/
theorem decodeFields_eq_ok_iff {x : WordFields} {i : Instr} (hhigh : x.high = false) (hres : x.reserved = false) :
    decodeFields x = .ok i ↔ i.wf = true ∧ x = i.fields := by
  obtain ⟨op, w, m, t, k, reserved, high⟩ := x
  obtain rfl : high = false := hhigh
  obtain rfl : reserved = false := hres
  constructor
  · intro h
    simp only [decodeFields] at h
    split at h
    case h_4 =>
      split at h
      · cases h
      · next hk =>
        obtain ⟨hunused, rfl⟩ := unlessSet_eq_ok_iff.1 h
        rw [Bool.or_eq_false_iff] at hunused
        simp [Instr.fields, Instr.wf, hunused, lt_of_not_ge hk]
    case h_11 => cases h
    all_goals
      obtain ⟨hunused, rfl⟩ := unlessSet_eq_ok_iff.1 h
      simp only [Bool.or_eq_false_iff, bne_eq_false_iff_eq] at hunused
      simp [Instr.fields, Instr.wf, hunused]
  · rintro ⟨hwf, h⟩
    rw [h]
    cases i
    case pow5 t k =>
      have hk : k < pow5Entries := of_decide_eq_true hwf
      simp [decodeFields, Instr.fields, unlessSet, hk]
    all_goals simp [decodeFields, Instr.fields, unlessSet]

/-- A CMD value decodes to a well-formed command when its fields are the command's. -/
theorem decode_eq_ok_iff_fields {v : Word} {i : Instr} : decode v = .ok i ↔ i.wf = true ∧ fieldsOf v = i.fields := by
  cases hhigh : (fieldsOf v).high
  · cases hres : (fieldsOf v).reserved
    · simpa [decode, hhigh, hres] using decodeFields_eq_ok_iff hhigh hres
    · have hne : fieldsOf v ≠ i.fields := fun h => by simp [h] at hres
      simp [decode, hhigh, hres, hne]
  · have hne : fieldsOf v ≠ i.fields := fun h => by simp [h] at hhigh
    simp [decode, hhigh, hne]

/-- The CMD values that decode to a command are its word, where it is well formed, and no other. -/
theorem decode_eq_ok_iff {v : Word} {i : Instr} : decode v = .ok i ↔ i.wf = true ∧ encode i = v := by
  rw [decode_eq_ok_iff_fields, and_congr_right_iff]
  intro hwf
  rw [← fieldsOf_encode hwf]
  refine ⟨fun h => eq_of_fieldsOf_eq ?_ ?_ h.symm, fun h => h ▸ rfl⟩
  · rw [h, fieldsOf_encode hwf, Instr.fields_high]
  · rw [h, fieldsOf_encode hwf, Instr.fields_reserved]

/-- Settles O2: a command's word has the command's fields, and a word is told by its fields. -/
theorem decodeAndEncodeAgree : Obligations.DecodeAndEncodeAgree :=
  ⟨fun _ h => decode_eq_ok_iff.2 ⟨h, rfl⟩, fun _ _ h => decode_eq_ok_iff.1 h⟩

end Sys2Proof
end

section
/-! The opcode table (30_encoding.md R51, R52): a row's match and mask fix the fields of the words it hits, and the rows
are the commands. -/

namespace Sys2Proof.Machine

/-! ### The fields that a row fixes -/

/-- The row's mask covers the field of `len` bits at `start`: a word the row hits has the match's bits there. -/
def TableRow.Covers (r : TableRow) (start len : Nat) : Prop :=
  (BitVec.ofNat 32 r.mask).extractLsb' start len = BitVec.allOnes len

theorem TableRow.extractLsb'_of_hits {r : TableRow} {w : BitVec 32} {start len : Nat} (h : r.hits w)
    (hm : r.Covers start len) : w.extractLsb' start len = (BitVec.ofNat 32 r.pattern).extractLsb' start len := by
  rw [← show _ = _ from h, BitVec.extractLsb'_and, show _ = _ from hm, BitVec.and_allOnes]

/-- Every row's mask covers OP and the reserved bits, and its match has no bit set but the OP's. -/
theorem opcodeTable_covers :
    ∀ r ∈ opcodeTable, r.Covers 0 8 ∧ r.Covers 11 1 ∧ r.Covers 16 16 ∧ r.pattern < 2 ^ 8 := by
  unfold TableRow.Covers
  decide

/-- The OP of a word that a row hits is the row's match. -/
theorem TableRow.op_of_hits {r : TableRow} {w : BitVec 32} (hr : r ∈ opcodeTable) (h : r.hits w) :
    (w.extractLsb' 0 8).toNat = r.pattern := by
  obtain ⟨hop, -, -, hp⟩ := opcodeTable_covers r hr
  rw [extractLsb'_of_hits h hop]
  simpa using hp

/-- A field of the low half is one of the value. -/
theorem extractLsb'_low {v : Word} {start len : Nat} (hle : start + len ≤ 32) :
    v.extractLsb' start len = (v.extractLsb' 0 32).extractLsb' start len := by
  ext i hi
  simp [show start + i < 32 by omega]

section

variable {r : TableRow} {v : Word} (hr : r ∈ opcodeTable) (h : r.hits (v.extractLsb' 0 32))

include hr h

/-- A field above the OP that the mask covers is zero. -/
theorem extractLsb'_eq_zero_of_hits {start len : Nat} (hm : r.Covers start len) (hlo : 8 ≤ start)
    (hhi : start + len ≤ 32) : v.extractLsb' start len = 0 := by
  obtain ⟨-, -, -, hp⟩ := opcodeTable_covers r hr
  have hz : r.pattern % 2 ^ 32 / 2 ^ start = 0 :=
    Nat.div_eq_of_lt ((Nat.mod_le _ _).trans_lt (hp.trans_le (Nat.pow_le_pow_right (by decide) hlo)))
  rw [extractLsb'_low hhi, TableRow.extractLsb'_of_hits h hm]
  apply BitVec.eq_of_toNat_eq
  simp [Nat.shiftRight_eq_div_pow, -Nat.reducePow, hz]

theorem getLsbD_eq_false_of_hits {i : Nat} (hm : r.Covers i 1) (hlo : 8 ≤ i) (hhi : i < 32) :
    v.getLsbD i = false := by
  simpa using congrArg (·.getLsbD 0) (extractLsb'_eq_zero_of_hits hr h hm hlo hhi)

theorem fieldsOf_op_of_hits : (fieldsOf v).op = r.pattern :=
  (congrArg BitVec.toNat (extractLsb'_low (by decide))).trans (TableRow.op_of_hits hr h)

theorem fieldsOf_reserved_of_hits : (fieldsOf v).reserved = false := by
  obtain ⟨-, h11, h16, -⟩ := opcodeTable_covers r hr
  exact fieldsOf_reserved_eq_false_iff.2 ⟨getLsbD_eq_false_of_hits hr h h11 (by decide) (by decide),
    extractLsb'_eq_zero_of_hits hr h h16 (by decide) (by decide)⟩

theorem fieldsOf_k_of_hits (hm : r.Covers 12 4) : (fieldsOf v).k = 0 :=
  congrArg BitVec.toNat (extractLsb'_eq_zero_of_hits hr h hm (by decide) (by decide))

end

/-- A value that a row hits decodes to a command of the row's name (30_encoding.md R51). -/
theorem exists_decode_of_hits {r : TableRow} {v : Word} (hr : r ∈ opcodeTable) (h : r.hits (v.extractLsb' 0 32))
    (hhigh : (fieldsOf v).high = false) (hk : r.name = "POW5" → (fieldsOf v).k < pow5Entries) :
    ∃ i, decode v = .ok i ∧ mnemonicOf i = r.name := by
  have hop := fieldsOf_op_of_hits hr h
  have hres := fieldsOf_reserved_of_hits hr h
  have hw (hc : r.Covers 8 1) : (fieldsOf v).w = false := getLsbD_eq_false_of_hits hr h hc (by decide) (by decide)
  have hm (hc : r.Covers 9 1) : (fieldsOf v).m = false := getLsbD_eq_false_of_hits hr h hc (by decide) (by decide)
  have ht (hc : r.Covers 10 1) : (fieldsOf v).t = false := getLsbD_eq_false_of_hits hr h hc (by decide) (by decide)
  have hk0 := fieldsOf_k_of_hits hr h
  simp only [decode, hhigh, hres, decodeFields]
  simp only [opcodeTable, List.mem_cons, List.not_mem_nil, or_false] at hr
  rcases hr with rfl | rfl | rfl | rfl | rfl | rfl | rfl | rfl | rfl | rfl
  all_goals
    simp [TableRow.Covers] at hw hm ht hk0 hk
    simp [*, Nat.not_le_of_lt, unlessSet, mnemonicOf]

/-! ### The row of a command -/

/-- The word of every well-formed command is hit by the row of its name. -/
theorem exists_row_hits_encode {i : Instr} (h : i.wf = true) :
    ∃ r ∈ opcodeTable, r.name = mnemonicOf i ∧ r.hits ((encode i).extractLsb' 0 32) := by
  have hall : ∀ i ∈ legalCommands,
      ∃ r ∈ opcodeTable, r.name = mnemonicOf i ∧ r.hits ((encode i).extractLsb' 0 32) := by
    unfold TableRow.hits
    decide +kernel
  exact hall i (mem_legalCommands h)

/-- Settles O3: a legal word is a command's word, which its row hits, and a row's bits leave the decoder no error but
for K. -/
theorem legalWordsAreTheTableRows : Obligations.LegalWordsAreTheTableRows := by
  intro v name
  constructor
  · rintro ⟨i, hi, rfl⟩
    obtain ⟨hwf, hfields⟩ := decode_eq_ok_iff_fields.1 hi
    obtain ⟨r, hr, hname, hhits⟩ := exists_row_hits_encode hwf
    have hk : (fieldsOf v).k < pow5Entries := hfields ▸ Instr.fields_k_lt hwf
    exact ⟨fieldsOf_high_eq_false_iff.1 (by simp [hfields]), ⟨r, hr, hname, (decode_eq_ok_iff.1 hi).2 ▸ hhits⟩,
      fun _ => Nat.le_of_lt_succ hk⟩
  · rintro ⟨hhigh, ⟨r, hr, rfl, hhits⟩, hk⟩
    exact exists_decode_of_hits hr hhits (fieldsOf_high_eq_false_iff.2 hhigh) fun hn => Nat.lt_succ_of_le (hk hn)

/-- The rows have different opcodes. -/
theorem eq_of_pattern_eq : ∀ r ∈ opcodeTable, ∀ r' ∈ opcodeTable, r.pattern = r'.pattern → r = r' := by decide

/-- Settles O4: a command has its row, and a row that hits a word is the one of the word's opcode. -/
theorem noTwoRowsMatchOneWord : Obligations.NoTwoRowsMatchOneWord := by
  refine ⟨fun v => ?_, fun w r r' hr hr' h h' => eq_of_pattern_eq r hr r' hr' ?_⟩
  · cases hv : decode v with
    | ok i =>
      have hwf := (decode_eq_ok_iff.1 hv).1
      obtain ⟨r, hr, hname, -⟩ := exists_row_hits_encode hwf
      exact .inl ⟨i, rfl, hwf, r, hr, hname⟩
    | error e => exact .inr ⟨e, rfl⟩
  · exact (TableRow.op_of_hits hr h).symm.trans (TableRow.op_of_hits hr' h')

/-- Settles O1: the decoder, evaluated on each word. -/
theorem writtenOutWordsDecode : Obligations.WrittenOutWordsDecode := by
  unfold Obligations.WrittenOutWordsDecode
  decide +kernel

end Sys2Proof.Machine
end

section
/-! The host's `wait` and the idle step (30_encoding.md R53, 70_reset_and_hazards.md R141). -/

namespace Sys2Proof.Machine

/-- A wait that finds DONE = 1 lands in the next step, as an action of the host. -/
theorem step_wait_done {s : State} {ops : List HostOp} (hb : s.status.busy = false) (hd : s.status.done = true)
    (h : s.inbox = .wait :: ops) : step s = hostRead 8 statusOffset s.popInbox := by
  have ht : s.turn = .host .wait := by simp [State.turn, h, hb, hd]
  simp [step, ht, hostAct]

theorem step_idle {s : State} (hb : s.status.busy = false) (h : s.inbox = []) : step s = .next s := by
  simp [step, State.turn, hb, h]

/-- Settles O15: the wait's read of STATUS takes the wait off the host's list. -/
theorem waitEndsWithDoneAndIdleDoesNothing : Obligations.WaitEndsWithDoneAndIdleDoesNothing := by
  refine ⟨fun s ops hb hd h => ?_, fun s => step_idle⟩
  rw [step_wait_done hb hd h, State.popInbox_of_cons h]
  rfl

end Sys2Proof.Machine
end

section
/-! MUL64 and MUL128 (40_wide_arith.md R55 to R57): the product, what MUL128 cuts off it, and the frame. -/

namespace Sys2Proof.Machine

/-- The frame of every command but FORMAT: it writes the registers of its row of 10_state.md R24 and no memory. -/
theorem exec_frame {i : Instr} {s t : State} (h : exec i s = .next t) (hi : ∀ f, i ≠ .format f) :
    Completes t.status.cause (writesOf i t.status.cause) s t ∧ SameMemory s t := by
  obtain ⟨t', h', hw⟩ := exec_writesOnly i s
  obtain rfl : t' = t := by simpa [h'] using h
  have hmem : t'.mem = s.mem := (mem_of_exec h).trans (memAfter_of_ne_format hi s)
  exact ⟨completes_of_exec h hw.regs, fun a => by rw [hmem]⟩

/-! ### Register pairs -/

theorem State.wide_eq_toNat (s : State) (hi lo : DataReg) :
    s.wide hi lo = (s.reg hi).toNat * 2 ^ 64 + (s.reg lo).toNat := (rfl)

@[simp] theorem State.wide_complete (s : State) (c : Cause) (hi lo : DataReg) :
    (s.complete c).wide hi lo = s.wide hi lo := (rfl)

@[simp] theorem State.wide_setRounding (s : State) (rb sb : Bool) (hi lo : DataReg) :
    (s.setRounding rb sb).wide hi lo = s.wide hi lo := (rfl)

/-! ### The kept half and what is cut off (40_wide_arith.md R56, R57) -/

theorem mul128_kept (a b : Nat) : (mul128 a b).kept = a * b / 2 ^ 128 := (rfl)

theorem mul128_rb (a b : Nat) : (mul128 a b).rb = decide (a * b / 2 ^ 127 % 2 = 1) :=
  Nat.testBit_eq_decide_div_mod_eq

theorem mul128_sb (a b : Nat) : (mul128 a b).sb = decide (a * b % 2 ^ 127 ≠ 0) := by
  rw [Bool.eq_iff_iff, decide_eq_true_iff, ← bne_iff_ne, mul128]

theorem mul128_comm (a b : Nat) : mul128 a b = mul128 b a := by
  rw [mul128, mul128, Nat.mul_comm]

theorem mul128_kept_lt {a b : Nat} (ha : a < 2 ^ 128) (hb : b < 2 ^ 128) : (mul128 a b).kept < 2 ^ 128 := by
  rw [mul128_kept]
  exact Nat.div_lt_of_lt_mul (Nat.mul_lt_mul'' ha hb)

theorem mul128_exact_iff (a b : Nat) :
    ((mul128 a b).rb = false ∧ (mul128 a b).sb = false) ↔ a * b % 2 ^ 128 = 0 := by
  rw [mul128_rb, mul128_sb, decide_eq_false_iff_not, decide_eq_false_iff_not]
  generalize a * b = p
  omega

/-! ### What the two commands answer -/

theorem exec_mul64 (s : State) :
    exec .mul64 s = .next ((s.setWide .pHi .pLo (s.unsigned .aLo * s.unsigned .bLo)).complete .ok) := (rfl)

/-- The product MUL128 forms, of the operand pairs A and B. -/
def State.product (s : State) : WideProduct := mul128 (s.wide .aHi .aLo) (s.wide .bHi .bLo)

theorem exec_mul128 (s : State) : exec .mul128 s =
    .next (((s.setWide .pHi .pLo s.product.kept).setRounding s.product.rb s.product.sb).complete .ok) := (rfl)

/-- Swapped operands have the same product. -/
theorem State.product_swap {s s' : State} (haHi : s'.reg .aHi = s.reg .bHi) (haLo : s'.reg .aLo = s.reg .bLo)
    (hbHi : s'.reg .bHi = s.reg .aHi) (hbLo : s'.reg .bLo = s.reg .aLo) : s'.product = s.product := by
  rw [State.product, mul128_comm]
  simp only [State.product, State.wide_eq_toNat, haHi, haLo, hbHi, hbLo]

/-! ### The obligations -/

/-- Settles O30: the product of two words fits the pair P. -/
theorem mul64IsTheExactProduct : Obligations.Mul64IsTheExactProduct := by
  obtain ⟨-, hdecode, -⟩ := writtenOutWordsDecode
  refine ⟨hdecode, fun s => ?_⟩
  have h := exec_mul64 s
  obtain ⟨hc, hmem⟩ := exec_frame h nofun
  have hlt : s.unsigned .aLo * s.unsigned .bLo < 2 ^ 64 * 2 ^ 64 :=
    Nat.mul_lt_mul'' (s.reg .aLo).isLt (s.reg .bLo).isLt
  refine ⟨_, h, hc, by simp, hmem, ?_⟩
  rw [← State.wide_eq_toNat, State.wide_complete, State.wide_setWide s (by decide) (by omega), State.unsigned,
    State.unsigned]

/-- Settles O31: the kept half fits the pair P, and RB and SB are those of the product. -/
theorem mul128KeepsTheHighHalf : Obligations.Mul128KeepsTheHighHalf := by
  obtain ⟨-, -, hdecode, -⟩ := writtenOutWordsDecode
  refine ⟨hdecode, fun s => ?_⟩
  have h := exec_mul128 s
  obtain ⟨hc, hmem⟩ := exec_frame h nofun
  have hlt : s.product.kept < 2 ^ 128 := mul128_kept_lt (s.wide_lt _ _) (s.wide_lt _ _)
  refine ⟨_, h, hc, hmem, ?_, ?_⟩
  · rw [← State.wide_eq_toNat, State.wide_complete, State.wide_setRounding, State.wide_setWide s (by decide) hlt,
      State.product, mul128_kept, State.wide_eq_toNat, State.wide_eq_toNat]
  · simp only [State.flags_complete, State.flags_setRounding, State.flags_setWide, State.product, mul128_rb, mul128_sb,
      State.wide_eq_toNat]

/-- Settles O32, by what is cut off a product and its symmetry. -/
theorem mul128IsExactIffNoLowBits : Obligations.Mul128IsExactIffNoLowBits := by
  intro s
  refine ⟨_, exec_mul128 s, mul128_exact_iff _ _, ?_⟩
  intro s' t' haHi haLo hbHi hbLo hflags h'
  rw [exec_mul128, State.product_swap haHi haLo hbHi hbLo] at h'
  obtain rfl := Host.Outcome.next.inj h'
  simp [hflags]

end Sys2Proof.Machine
end

section
/-! No step changes the parameters (41_pow5_rom.md R64): what each thing a step can do leaves of them. -/

namespace Sys2Proof.Machine

@[simp] theorem State.params_issue (s : State) (v : Word) : (s.issue v).params = s.params := by
  unfold State.issue
  split <;> rfl

@[simp] theorem State.params_afterReset (s : State) : s.afterReset.params = s.params := (rfl)

@[simp] theorem State.params_writeIdle (s : State) (r : Reg) (v : Word) : (s.writeIdle r v).params = s.params := by
  cases r with
  | cmd => exact s.params_issue v
  | status | flags | data => rfl

@[simp] theorem State.params_writeWindow (s : State) (offset : Nat) (v : Word) :
    (s.writeWindow offset v).params = s.params := by
  unfold State.writeWindow State.writeReg
  split
  · rfl
  · split
    · exact s.params_overrun
    · exact s.params_writeIdle _ v

theorem params_of_hostAct {op : HostOp} {s t : State} (h : hostAct op s = .next t) : t.params = s.params := by
  rcases hostAct_cases h with ⟨_, _, _, _, _, rfl⟩ | ⟨_, rfl⟩ | ⟨_, _, _, _, rfl⟩ | ⟨_, _, _, _, rfl⟩ | ⟨_, rfl⟩ <;> simp

theorem params_of_runCommand {s t : State} (h : runCommand s = .next t) : t.params = s.params := by
  obtain ⟨u, c, hu, hc, -⟩ := runCommand_cases s
  obtain rfl : u.complete c = t := by simpa [hu] using h
  exact hc.params

theorem params_of_step {s t : State} (h : step s = .next t) : t.params = s.params := by
  rcases step_cases s with ⟨_, _, e⟩ | ⟨_, _, e⟩ | ⟨op, ops, _, _, e⟩ <;> rw [e] at h
  · exact params_of_runCommand h
  · cases h
    rfl
  · exact (params_of_hostAct h).trans s.params_popInbox

/-- Settles O28: the ROM is a function of POW5_ROUNDING, which no step changes. -/
theorem stepKeepsTheParametersAndTheRom : Obligations.StepKeepsTheParametersAndTheRom := by
  intro s t h
  have hp := params_of_step h
  exact ⟨hp, fun _ _ => by rw [hp]⟩

end Sys2Proof.Machine
end

section
/-! The POW5 ROM (41_pow5_rom.md R60 to R62) and the command that reads it (R65): each row of the listing against the
power of five it stands for, and from it the entry under either rounding. -/

namespace Sys2Proof.Machine

/-! ### Rounding a quotient -/

/-- `n / d` rounded as POW5_ROUNDING says (41_pow5_rom.md R61). -/
def roundedQuotient (r : Pow5Rounding) (n d : Nat) : Nat :=
  match r with
  | .trunc => n / d
  | .nearest => (2 * n + d) / (2 * d)

/-- Rounding `n / d` to nearest, a half up, is rounding down and adding one where the remainder is at least a half. -/
theorem div_nearest_eq {n d : Nat} (hd : 0 < d) :
    (2 * n + d) / (2 * d) = n / d + if d ≤ 2 * (n % d) then 1 else 0 := by
  have hr : n % d < d := Nat.mod_lt n hd
  have hn : 2 * n + d = 2 * (n % d) + d + 2 * d * (n / d) := by
    rw [Nat.mul_assoc]
    have := Nat.mod_add_div n d
    omega
  rw [hn, Nat.add_mul_div_left _ _ (by omega), Nat.add_comm]
  congr 1
  split
  · exact Nat.div_eq_of_lt_le (by omega) (by omega)
  · exact Nat.div_eq_of_lt (by omega)

/-! ### The rows of the listing -/

/-- The row of the listing that an entry is made from (41_pow5_rom.md R62). -/
def pow5Row (t : Pow5Table) (k : Nat) : Pow5Row :=
  match t with
  | .pos => (pow5Pos[k]?).getD ⟨0, 0, 0, false⟩
  | .neg => (pow5Neg[k]?).getD ⟨0, 0, 0, false⟩

theorem pow5_eq_entry (r : Pow5Rounding) (t : Pow5Table) (k : Nat) : pow5 r t k = (pow5Row t k).entry r := by
  cases t <;> rfl

/-- The numerator of 5^(±2^k) × 2^−exp (41_pow5_rom.md R60). -/
def scaledPowerNum (t : Pow5Table) (k : Nat) (exp : Int) : Nat :=
  match t with
  | .pos => 5 ^ 2 ^ k * 2 ^ (-exp).toNat
  | .neg => 2 ^ (-exp).toNat

/-- The denominator of 5^(±2^k) × 2^−exp (41_pow5_rom.md R60). -/
def scaledPowerDen (t : Pow5Table) (k : Nat) (exp : Int) : Nat :=
  match t with
  | .pos => 2 ^ exp.toNat
  | .neg => 5 ^ 2 ^ k * 2 ^ exp.toNat

theorem scaledPowerDen_pos (t : Pow5Table) (k : Nat) (exp : Int) : 0 < scaledPowerDen t k exp := by
  cases t <;> simp only [scaledPowerDen] <;> positivity

/-- A row's columns hi and lo are `num / den` rounded down, normalized and with room for one more, and its mark †
stands where the fraction cut off is above a half; no fraction is a half (41_pow5_rom.md R61, R62). -/
structure Pow5Row.Lists (x : Pow5Row) (num den : Nat) : Prop where
  floor : x.hi * 2 ^ 64 + x.lo = num / den
  normalized : 2 ^ 127 ≤ num / den
  room : num / den + 1 < 2 ^ 128
  noTie : 2 * (num % den) ≠ den
  dagger : x.dagger = decide (den ≤ 2 * (num % den))

theorem Pow5Row.lists_iff {x : Pow5Row} {num den : Nat} : x.Lists num den ↔
    x.hi * 2 ^ 64 + x.lo = num / den ∧ 2 ^ 127 ≤ num / den ∧ num / den + 1 < 2 ^ 128 ∧ 2 * (num % den) ≠ den ∧
      x.dagger = decide (den ≤ 2 * (num % den)) :=
  ⟨fun h => ⟨h.floor, h.normalized, h.room, h.noTie, h.dagger⟩,
    fun ⟨hfloor, hnormalized, hroom, hnoTie, hdagger⟩ => ⟨hfloor, hnormalized, hroom, hnoTie, hdagger⟩⟩

/-- The listing's eighteen rows, each evaluated against its power. -/
theorem pow5Row_lists {k : Nat} (hk : k < pow5Entries) (t : Pow5Table) :
    (pow5Row t k).Lists (scaledPowerNum t k (pow5Row t k).exp) (scaledPowerDen t k (pow5Row t k).exp) := by
  rw [Pow5Row.lists_iff]
  revert k
  cases t <;> decide +kernel

theorem pow5Row_exp_bounds {k : Nat} (hk : k < pow5Entries) (t : Pow5Table) :
    -722 ≤ (pow5Row t k).exp ∧ (pow5Row t k).exp ≤ 467 := by
  revert k
  cases t <;> decide

/-! ### The entries -/

namespace Pow5Row.Lists

variable {x : Pow5Row} {num den : Nat}

theorem sig_entry (h : x.Lists num den) (hden : 0 < den) (r : Pow5Rounding) :
    (x.entry r).sig = roundedQuotient r num den := by
  rw [Pow5Row.entry, h.floor, h.dagger]
  cases r with
  | trunc => simp [roundedQuotient]
  | nearest => simp [roundedQuotient, div_nearest_eq hden]

theorem sig_bounds (h : x.Lists num den) (r : Pow5Rounding) :
    2 ^ 127 ≤ (x.entry r).sig ∧ (x.entry r).sig < 2 ^ 128 := by
  have hsig : num / den ≤ (x.entry r).sig ∧ (x.entry r).sig ≤ num / den + 1 := by
    simp only [Pow5Row.entry, h.floor]
    split <;> omega
  exact ⟨h.normalized.trans hsig.1, hsig.2.trans_lt h.room⟩

end Pow5Row.Lists

theorem pow5_sig_bounds (r : Pow5Rounding) (t : Pow5Table) {k : Nat} (hk : k < pow5Entries) :
    2 ^ 127 ≤ (pow5 r t k).sig ∧ (pow5 r t k).sig < 2 ^ 128 :=
  pow5_eq_entry r t k ▸ (pow5Row_lists hk t).sig_bounds r

theorem pow5_exp_bounds (r : Pow5Rounding) (t : Pow5Table) {k : Nat} (hk : k < pow5Entries) :
    -722 ≤ (pow5 r t k).exp ∧ (pow5 r t k).exp ≤ 467 :=
  pow5_eq_entry r t k ▸ pow5Row_exp_bounds hk t

theorem pow5_sig (r : Pow5Rounding) (t : Pow5Table) {k : Nat} (hk : k < pow5Entries) : (pow5 r t k).sig =
    roundedQuotient r (scaledPowerNum t k (pow5Row t k).exp) (scaledPowerDen t k (pow5Row t k).exp) :=
  pow5_eq_entry r t k ▸ (pow5Row_lists hk t).sig_entry (scaledPowerDen_pos _ _ _) r

/-- Settles O34: a row lists its power rounded down, and its mark † says where rounding to nearest is one more. -/
theorem romEntriesAreRoundedPowersOfFive : Obligations.RomEntriesAreRoundedPowersOfFive := by
  refine ⟨rfl, fun k hk r t => ?_⟩
  have hden := scaledPowerDen_pos t k (pow5Row t k).exp
  have hrow := pow5Row_lists hk t
  obtain ⟨htop, hlt⟩ := pow5_sig_bounds r t hk
  have hlow := (Nat.le_div_iff_mul_le hden).1 hrow.normalized
  have hhigh := (Nat.div_lt_iff_lt_mul hden).1 (Nat.lt_of_succ_lt hrow.room)
  have htie := hrow.noTie
  rw [← Nat.mul_mod_mul_left] at htie
  have hsig := pow5_sig r t hk
  cases r <;> cases t <;> exact ⟨hlow, hhigh, htop, hlt, htie, hsig⟩

/-! ### The command -/

/-- `sext_64` reads a signed value back that fits a register (00_scope.md R5, R6). -/
theorem toInt_signedWord {v : Int} (hlo : -2 ^ 63 ≤ v) (hhi : v < 2 ^ 63) : (signedWord v).toInt = v :=
  BitVec.toInt_ofInt_eq_self (by decide) hlo hhi

theorem State.wide_setReg_of_ne (s : State) {hi lo r : DataReg} (hhi : hi ≠ r) (hlo : lo ≠ r) (v : Word) :
    (s.setReg r v).wide hi lo = s.wide hi lo := by
  simp [State.wide, State.unsigned, hhi, hlo]

/-- POW5's word as a sum: its fields do not overlap (30_encoding.md R45). -/
theorem encodeNat_pow5 {k : Nat} (hk : k < pow5Entries) (t : Pow5Table) :
    encodeNat (.pow5 t k) = 0x3 + k * 2 ^ 12 + t.bit * 2 ^ 10 := by
  revert k
  cases t <;> decide

theorem exec_pow5 {k : Nat} (hk : k < pow5Entries) (t : Pow5Table) (s : State) : exec (.pow5 t k) s =
    .next (((s.setWide .bHi .bLo (pow5 s.params.rounding t k).sig).setReg .bexp
      (signedWord (pow5 s.params.rounding t k).exp)).complete .ok) :=
  if_pos hk

/-- Settles O33: the significand fits the pair B and the exponent fits BEXP. -/
theorem pow5ReadsOneRomEntry : Obligations.Pow5ReadsOneRomEntry := by
  intro t k s hle
  have hk : k < pow5Entries := Nat.lt_succ_of_le hle
  have hword : encode (.pow5 t k) = _ := congrArg (BitVec.ofNat 64) (encodeNat_pow5 hk t)
  have h := exec_pow5 hk t s
  obtain ⟨hc, hmem⟩ := exec_frame h nofun
  obtain ⟨-, hsig⟩ := pow5_sig_bounds s.params.rounding t hk
  obtain ⟨hlo, hhi⟩ := pow5_exp_bounds s.params.rounding t hk
  refine ⟨decode_eq_ok_iff.2 ⟨decide_eq_true hk, ?_⟩, _, h, hc, by simp, hmem, ?_, ?_⟩
  · cases t <;> exact hword
  · rw [← State.wide_eq_toNat, State.wide_complete, State.wide_setReg_of_ne _ (by decide) (by decide),
      State.wide_setWide s (by decide) hsig]
  · rw [State.reg_complete, State.reg_setReg, if_pos rfl]
    exact toInt_signedWord (by omega) (by omega)

end Sys2Proof.Machine
end

section
/-! To the scanner a byte outside the grammar's classes ends the text as EOT does, so that NUL mode and bounded mode
agree where such a byte stands at END (42_scanner.md R74, 46_api.md R110). -/

namespace Sys2Proof.Machine

/-! ### Bytes outside the classes -/

/-- The text with EOT in place of each byte outside the grammar's classes. -/
def classesOnly (peek : Peek) : Peek := fun j => (peek j).map (Option.filter inClasses)

theorem classesOnly_error {peek : Peek} {j : Nat} {e : CmdError} (h : peek j = .error e) :
    classesOnly peek j = .error e := by
  rw [classesOnly, h]
  rfl

theorem classesOnly_ok {peek : Peek} {j : Nat} {c : Option Byte} (h : peek j = .ok c) :
    classesOnly peek j = .ok (c.filter inClasses) := by
  rw [classesOnly, h]
  rfl

theorem filter_inClasses_of_isDigit {c : Option Byte} (h : isDigit c = true) : c.filter inClasses = c := by
  cases c with
  | none => rfl
  | some b => simp [inClasses, h]

theorem isDigit_filter (c : Option Byte) : isDigit (c.filter inClasses) = isDigit c := by
  cases c with
  | none => rfl
  | some b =>
    cases hk : inClasses b with
    | true => rw [Option.filter_some, hk, if_pos rfl]
    | false =>
      have hd : isDigit (some b) = false := by
        rw [Bool.eq_false_iff]
        exact fun hd => by simp [inClasses, hd] at hk
      rw [Option.filter_some, hk, hd]
      rfl

/-- The bytes the scanner tests for are of the grammar's classes. -/
theorem inClasses_marks : inClasses chMinus = true ∧ inClasses chPlus = true ∧ inClasses chDot = true ∧
    inClasses chLowerE = true ∧ inClasses chUpperE = true ∧ inClasses chZero = true := by decide

/-! ### The scanner does not see such a byte -/

section

variable (peek : Peek) (fuel : Nat)

theorem digitRun_classesOnly (i : Nat) : digitRun (classesOnly peek) fuel i = digitRun peek fuel i := by
  induction fuel generalizing i with
  | zero => rfl
  | succ fuel ih =>
    unfold digitRun
    cases hc : peek i with
    | error e => rw [classesOnly_error hc]
    | ok c =>
      rw [classesOnly_ok hc]
      cases hd : isDigit c with
      | false => simp [isDigit_filter, hd]
      | true => simp [filter_inClasses_of_isDigit, hd, ih]

theorem digitRun1_classesOnly (i : Nat) : digitRun1 (classesOnly peek) fuel i = digitRun1 peek fuel i := by
  rw [digitRun1, digitRun_classesOnly, digitRun1]

theorem scanSign_classesOnly : scanSign (classesOnly peek) = scanSign peek := by
  unfold scanSign
  cases hc : peek 0 with
  | error e => rw [classesOnly_error hc]
  | ok c =>
    rw [classesOnly_ok hc]
    have hminus : c.filter inClasses = some chMinus ↔ c = some chMinus := by simp [inClasses_marks]
    rw [Except.ok.injEq, Bool.eq_iff_iff, beq_iff_eq, beq_iff_eq, hminus]

theorem scanInt_classesOnly (i : Nat) : scanInt (classesOnly peek) fuel i = scanInt peek fuel i := by
  unfold scanInt
  cases hc : peek i with
  | error e => rw [classesOnly_error hc]
  | ok c =>
    rw [classesOnly_ok hc]
    cases hc1 : peek (i + 1) with
    | error e => simp [classesOnly_error hc1, isDigit_filter, inClasses_marks, digitRun_classesOnly]
    | ok c1 => simp [classesOnly_ok hc1, isDigit_filter, inClasses_marks, digitRun_classesOnly]

theorem scanFrac_classesOnly (x : Accum) (i : Nat) : scanFrac (classesOnly peek) fuel x i = scanFrac peek fuel x i := by
  unfold scanFrac
  cases hc : peek i with
  | error e => rw [classesOnly_error hc]
  | ok c =>
    rw [classesOnly_ok hc]
    simp [inClasses_marks, digitRun1_classesOnly]

theorem scanExp_classesOnly (i : Nat) : scanExp (classesOnly peek) fuel i = scanExp peek fuel i := by
  unfold scanExp
  cases hc : peek i with
  | error e => rw [classesOnly_error hc]
  | ok c =>
    rw [classesOnly_ok hc]
    cases hg : peek (i + 1) with
    | error e => simp [classesOnly_error hg, inClasses_marks]
    | ok g => simp [classesOnly_ok hg, inClasses_marks, digitRun1_classesOnly]

theorem scanText_classesOnly : scanText (classesOnly peek) fuel = scanText peek fuel := by
  unfold scanText
  simp only [scanSign_classesOnly, scanInt_classesOnly, scanFrac_classesOnly, scanExp_classesOnly]

end

/-! ### The two modes -/

section

variable {s : State}

theorem Reached.of_classesOnly {peek : Peek} {n : Nat} (h : Reached (classesOnly peek) n) : Reached peek n := by
  intro j hj
  obtain ⟨c, hc, hk⟩ := h j hj
  cases hp : peek j with
  | error e => simp [classesOnly_error hp] at hc
  | ok d =>
    rw [classesOnly_ok hp, Except.ok.injEq, Option.filter_eq_some_iff] at hc
    exact ⟨c, hc.1 ▸ rfl, hk⟩

/-- Below END the modes read the same bytes. -/
theorem State.peek_nul_of_lt {j : Nat} (hj : j < s.boundedLength) : s.peek .nul j = s.peek .bounded j := by
  simp [State.peek, hj]

/-- At END bounded mode reads EOT. -/
theorem State.peek_bounded_boundedLength : s.peek .bounded s.boundedLength = .ok none := by simp [State.peek]

/-- At END NUL mode reads the byte there. -/
theorem State.peek_nul_boundedLength {c : Byte} (hle : s.unsigned .addr ≤ s.unsigned .endAddr)
    (hc : s.portRead (s.unsigned .endAddr) = .ok c) : s.peek .nul s.boundedLength = .ok (some c) := by
  simp [State.peek, State.boundedLength, Nat.add_sub_cancel' hle, hc]

/-- Up to END, which is as far as the cursor comes, the modes differ by a byte outside the classes only. -/
theorem State.scan_nul_eq_scan_bounded {c : Byte} (hle : s.unsigned .addr ≤ s.unsigned .endAddr)
    (hc : s.portRead (s.unsigned .endAddr) = .ok c) (hout : inClasses c = false) : s.scan .nul = s.scan .bounded := by
  suffices hagree : ∀ j, Reached (classesOnly (s.peek .bounded)) j →
      classesOnly (s.peek .nul) j = classesOnly (s.peek .bounded) j by
    rw [State.scan, State.scan, ← scanText_classesOnly (s.peek .nul), ← scanText_classesOnly (s.peek .bounded)]
    exact scanText_congr hagree _
  intro j hj
  rcases (State.reached_le_boundedLength hj.of_classesOnly).lt_or_eq with hlt | rfl
  · rw [classesOnly, State.peek_nul_of_lt hlt, classesOnly]
  · rw [classesOnly_ok State.peek_bounded_boundedLength, classesOnly_ok (State.peek_nul_boundedLength hle hc),
      Option.filter_some, hout]
    rfl

end

/-- Settles O39: SCAN and PARSE see the mode by their scan only, and the two scans agree. -/
theorem boundedAndNulModesAgree : Obligations.BoundedAndNulModesAgree := by
  intro s c hle hc hdigit hminus hplus hdot hlower hupper
  have hscan : s.scan .nul = s.scan .bounded :=
    State.scan_nul_eq_scan_bounded hle hc (by simp [inClasses, hdigit, hminus, hplus, hdot, hlower, hupper])
  exact ⟨by simp only [exec, execScan, hscan], fun f => by simp only [exec, execParse, hscan]⟩

end Sys2Proof.Machine
end

section
/-! What the scanner's accumulators hold after a string of digits (42_scanner.md R69 to R72). -/

namespace Sys2Proof.Machine

/-! ### Digit strings -/

theorem digitsNumber_concat (ds : List Nat) (d : Nat) : digitsNumber (ds ++ [d]) = 10 * digitsNumber ds + d := by
  rw [digitsNumber, List.reverse_concat, Nat.ofDigits_cons, add_comm, digitsNumber]

/-- The value of an exponent's digits is the number they write. -/
theorem decimalValue_eq_digitsNumber (ds : List Nat) : decimalValue ds = digitsNumber ds := by
  induction ds using List.reverseRecOn with
  | nil => rfl
  | append_singleton ds d ih => rw [decimalValue, List.foldl_concat, ← decimalValue, ih, digitsNumber_concat]

theorem digitsNumber_lt {ds : List Nat} (h : ∀ d ∈ ds, d < 10) : digitsNumber ds < 10 ^ ds.length := by
  rw [← List.length_reverse]
  exact Nat.ofDigits_lt_base_pow_length (by decide) fun d hd => h d (List.mem_reverse.1 hd)

/-- The digits at or after the first nonzero one (42_scanner.md R69). -/
def significantDigits (ds : List Nat) : List Nat := ds.dropWhile (· == 0)

theorem Literal.significant_eq (l : Literal) : l.significant = significantDigits (l.int ++ l.fracDigits) := rfl

theorem significantDigits_concat_zero {ds : List Nat} (h : significantDigits ds = []) :
    significantDigits (ds ++ [0]) = [] := by
  rw [significantDigits] at h
  simp [significantDigits, List.dropWhile_append, h]

theorem significantDigits_concat {ds : List Nat} {d : Nat} (h : ¬(significantDigits ds = [] ∧ d = 0)) :
    significantDigits (ds ++ [d]) = significantDigits ds ++ [d] := by
  by_cases hds : ds.dropWhile (· == 0) = []
  · have hd : d ≠ 0 := fun hd => h ⟨hds, hd⟩
    simp [significantDigits, List.dropWhile_append, hds, hd]
  · simp [significantDigits, List.dropWhile_append, hds]

theorem significantDigits_of_head {ds : List Nat} (h : ds.head? ≠ some 0) : significantDigits ds = ds := by
  cases ds with
  | nil => rfl
  | cons d ds =>
    have hd : d ≠ 0 := fun hd => h (by rw [hd, List.head?_cons])
    simp [significantDigits, hd]

/-! ### The accumulators -/

namespace Accum

/-- The accumulators after the digits `ds`, of which `k` stand after the point: the first 17 significant digits, how
many they are, and the exponent of the last of them. -/
def ofDigits (ds : List Nat) (k : Nat) : Accum where
  m    := digitsNumber ((significantDigits ds).take 17)
  nsig := min (significantDigits ds).length 17
  e    := ((significantDigits ds).length - 17 : Nat) - k

theorem intDigit_ofDigits {ds : List Nat} {d k : Nat} (h : ¬(significantDigits ds = [] ∧ d = 0)) :
    (ofDigits ds k).intDigit d = ofDigits (ds ++ [d]) k := by
  have hnsig : (ofDigits ds k).nsig < 17 ↔ (significantDigits ds).length < 17 := by simp [ofDigits]
  rw [intDigit, maxSigDigits]
  by_cases hlt : (significantDigits ds).length < 17
  · rw [if_pos (hnsig.2 hlt)]
    simp only [ofDigits, significantDigits_concat h, List.length_append, List.length_singleton, mk.injEq]
    rw [List.take_of_length_le hlt.le, List.take_of_length_le (by simpa using hlt), digitsNumber_concat]
    exact ⟨rfl, by omega, by omega⟩
  · rw [if_neg (hnsig.not.2 hlt)]
    simp only [ofDigits, significantDigits_concat h, List.length_append, List.length_singleton, mk.injEq]
    rw [List.take_append_of_le_length (by omega)]
    exact ⟨rfl, by omega, by omega⟩

/-- A digit of the fraction that is not a leading zero is accumulated as one of the integer part, and lowers e. -/
theorem fracDigit_eq {x : Accum} {d : Nat} (h : ¬(x.nsig = 0 ∧ d = 0)) :
    x.fracDigit d = { x.intDigit d with e := (x.intDigit d).e - 1 } := by
  rw [fracDigit, if_neg h, intDigit]
  split <;> simp

theorem fracDigit_ofDigits (ds : List Nat) (d k : Nat) :
    (ofDigits ds k).fracDigit d = ofDigits (ds ++ [d]) (k + 1) := by
  have hnsig : (ofDigits ds k).nsig = 0 ↔ significantDigits ds = [] := by simp [ofDigits]
  by_cases h : significantDigits ds = [] ∧ d = 0
  · obtain ⟨hsig, rfl⟩ := h
    rw [fracDigit, if_pos ⟨hnsig.2 hsig, rfl⟩]
    simp only [ofDigits, significantDigits_concat_zero hsig, hsig, mk.injEq, true_and]
    omega
  · rw [fracDigit_eq (by rwa [hnsig]), intDigit_ofDigits h]
    simp only [ofDigits, mk.injEq, true_and]
    omega

/-- The integer part of a number that does not begin with a zero. -/
theorem foldl_intDigit {ds : List Nat} (h : ds.head? ≠ some 0) : ds.foldl intDigit ⟨0, 0, 0⟩ = ofDigits ds 0 := by
  induction ds using List.reverseRecOn with
  | nil => rfl
  | append_singleton ds d ih =>
    have hhead : ds.head? ≠ some 0 := by cases ds <;> simp_all
    have hd : ¬(significantDigits ds = [] ∧ d = 0) := by
      rw [significantDigits_of_head hhead]
      rintro ⟨rfl, rfl⟩
      exact h rfl
    rw [List.foldl_concat, ih hhead, intDigit_ofDigits hd]

theorem foldl_fracDigit (ds fs : List Nat) (k : Nat) :
    fs.foldl fracDigit (ofDigits ds k) = ofDigits (ds ++ fs) (k + fs.length) := by
  induction fs generalizing ds k with
  | nil => simp
  | cons f fs ih =>
    rw [List.foldl_cons, fracDigit_ofDigits, ih, List.append_assoc, List.singleton_append, List.length_cons,
      Nat.add_assoc, Nat.add_comm 1]

end Accum

end Sys2Proof.Machine
end

section
/-! The scanner accepts exactly the literals of the grammar, and what it yields for each (42_scanner.md R68 to R73). -/

namespace Sys2Proof.Machine

/-! ### The bytes of digits -/

theorem toNat_digitByte {d : Nat} (h : d < 10) : (digitByte d).toNat = 0x30 + d := by
  rw [digitByte, BitVec.toNat_ofNat]
  omega

theorem isDigit_digitByte {d : Nat} (h : d < 10) : isDigit (some (digitByte d)) = true := by
  rw [isDigit_iff, toNat_digitByte h]
  omega

theorem digitVal_digitByte {d : Nat} (h : d < 10) : digitVal (some (digitByte d)) = d := by
  rw [digitVal, toNat_digitByte h, Nat.add_sub_cancel_left]

/-- A digit is the byte of its value. -/
theorem eq_digitByte_of_isDigit {c : Option Byte} (h : isDigit c = true) : c = some (digitByte (digitVal c)) := by
  cases c with
  | none => cases h
  | some b =>
    obtain ⟨hlo, hhi⟩ := isDigit_iff.1 h
    have hval : digitVal (some b) = b.toNat - 0x30 := rfl
    refine congrArg some (BitVec.eq_of_toNat_eq ?_)
    rw [toNat_digitByte (digitVal_lt h), hval]
    omega

theorem digitByte_eq_chZero_iff {d : Nat} (h : d < 10) : digitByte d = chZero ↔ d = 0 := by
  rw [← BitVec.toNat_inj, toNat_digitByte h, show chZero.toNat = 0x30 from rfl]
  omega

theorem isDigits_iff {ds : List Nat} : isDigits ds = true ↔ ds ≠ [] ∧ ∀ d ∈ ds, d < 10 := by simp [isDigits]

@[simp] theorem length_digitsText (ds : List Nat) : (digitsText ds).length = ds.length := List.length_map _

/-! ### Bytes in a text -/

section

/-- The bytes `bs` stand in the text from offset `i` on. -/
def ReadsAt (peek : Peek) (i : Nat) (bs : List Byte) : Prop :=
  ∀ j, (h : j < bs.length) → peek (i + j) = .ok (some bs[j])

variable {peek : Peek} {i : Nat}

@[simp] theorem readsAt_nil : ReadsAt peek i [] := fun _ h => absurd h (Nat.not_lt_zero _)

theorem readsAt_cons {b : Byte} {bs : List Byte} :
    ReadsAt peek i (b :: bs) ↔ peek i = .ok (some b) ∧ ReadsAt peek (i + 1) bs := by
  constructor
  · intro h
    refine ⟨h 0 (Nat.succ_pos _), fun j hj => ?_⟩
    rw [Nat.add_assoc, Nat.add_comm 1]
    exact h (j + 1) (Nat.succ_lt_succ hj)
  · rintro ⟨hb, hbs⟩ j hj
    cases j with
    | zero => exact hb
    | succ j =>
      have hj' := hbs j (Nat.lt_of_succ_lt_succ hj)
      rwa [Nat.add_assoc, Nat.add_comm 1] at hj'

theorem readsAt_append {as bs : List Byte} :
    ReadsAt peek i (as ++ bs) ↔ ReadsAt peek i as ∧ ReadsAt peek (i + as.length) bs := by
  induction as generalizing i with
  | nil => simp
  | cons a as ih =>
    rw [List.cons_append, readsAt_cons, ih, readsAt_cons, List.length_cons, Nat.add_assoc i, Nat.add_comm 1, and_assoc]

/-- What stands at the first offset: the first of the bytes, or with none what stands after them. -/
theorem ReadsAt.head {bs : List Byte} {c : Option Byte} (h : ReadsAt peek i bs) (hc : peek (i + bs.length) = .ok c) :
    peek i = .ok (bs.head?.or c) := by
  cases bs with
  | nil => exact hc
  | cons b bs => exact (readsAt_cons.1 h).1

/-- Bytes end before the first offset at which the text can have none. -/
theorem ReadsAt.length_le {N : Nat} {bs : List Byte} (h : ReadsAt peek i bs)
    (hN : ∀ j c, peek j = .ok (some c) → j < N) : bs.length ≤ N := by
  by_contra hlt
  have := hN _ _ (h N (not_le.1 hlt))
  omega

theorem textIs_iff {s : State} {m : ScanMode} {l : Literal} : TextIs s m l ↔
    ReadsAt (s.peek m) 0 l.text ∧ ∃ c, s.peek m l.text.length = .ok c ∧ l.endsBefore c := by
  simp only [ReadsAt, Nat.zero_add]
  exact ⟨fun h => ⟨h.bytes, h.ends⟩, fun h => ⟨h.1, h.2⟩⟩

end

/-! ### The parts of a literal -/

theorem length_signText (neg : Bool) : (signText neg).length = neg.toNat := by cases neg <;> rfl

/-- The bytes of a fraction part. -/
def fracText : Option (List Nat) → List Byte
  | none => []
  | some ds => chDot :: digitsText ds

/-- The bytes of the sign of an exponent part. -/
def expSignText : Option Bool → List Byte
  | none => []
  | some true => [chMinus]
  | some false => [chPlus]

/-- The marker of an exponent part. -/
def expMarker (upper : Bool) : Byte := if upper then chUpperE else chLowerE

theorem isDigit_expMarker (upper : Bool) : isDigit (some (expMarker upper)) = false := by cases upper <;> rfl

theorem expMarker_ne_chDot (upper : Bool) : expMarker upper ≠ chDot := by cases upper <;> decide

/-- The bytes of an exponent part, where there is one. -/
def expText : Option ExponentPart → List Byte
  | none => []
  | some x => expMarker x.upper :: (expSignText x.sign ++ digitsText x.digits)

/-- The value of an exponent part, 0 where there is none. -/
def expPartValue : Option ExponentPart → Int
  | none => 0
  | some x => if x.sign = some true then -(digitsNumber x.digits : Int) else digitsNumber x.digits

theorem Literal.text_eq (l : Literal) :
    l.text = signText l.neg ++ digitsText l.int ++ fracText l.frac ++ expText l.exp := by
  obtain ⟨neg, ds, fr, ex⟩ := l
  rcases fr with - | fs <;> rcases ex with - | ⟨u, - | - | -, es⟩ <;> rfl

theorem Literal.expValue_eq (l : Literal) : l.expValue = expPartValue l.exp := by
  obtain ⟨neg, ds, fr, ex⟩ := l
  cases ex <;> rfl

theorem Literal.wf_iff {l : Literal} : l.wf = true ↔
    (isDigits l.int = true ∧ (l.int = [0] ∨ l.int.head? ≠ some 0)) ∧ (∀ fs, l.frac = some fs → isDigits fs = true) ∧
      ∀ x, l.exp = some x → isDigits x.digits = true := by
  obtain ⟨neg, ds, fr, ex⟩ := l
  cases fr <;> cases ex <;> simp [Literal.wf, and_assoc]

section

variable {peek : Peek} {fuel i n N : Nat}

/-! ### The scanner on each part -/

theorem scanSign_ok_iff {neg : Bool} :
    scanSign peek = .ok neg ↔ ∃ c, peek 0 = .ok c ∧ neg = (c == some chMinus) := by
  unfold scanSign
  rcases peek 0 with e | c <;> simp [eq_comm (a := neg)]

theorem digitRun1_ok_iff_ne_nil {ds : List Nat} :
    digitRun1 peek fuel i = .ok ds ↔ ds ≠ [] ∧ digitRun peek fuel i = .ok ds := by
  constructor
  · intro h
    have hrun := digitRun1_ok h
    refine ⟨?_, hrun⟩
    rintro rfl
    simp [digitRun1, hrun] at h
  · rintro ⟨hne, hrun⟩
    cases ds with
    | nil => exact absurd rfl hne
    | cons d ds => rw [digitRun1, hrun]

/-! The sign of an exponent. -/

/-- The byte `g` after the marker begins an exponent part with this sign. -/
structure BeginsExponent (g : Option Byte) (sign : Option Bool) : Prop where
  length : (isSign g).toNat = (expSignText sign).length
  minus : g = some chMinus ↔ sign = some true

theorem beginsExponent_of_isDigit {g : Option Byte} (h : isDigit g = true) : BeginsExponent g none := by
  have hminus : g ≠ some chMinus := by rintro rfl; cases h
  have hplus : g ≠ some chPlus := by rintro rfl; cases h
  exact ⟨by simp [isSign, expSignText, hminus, hplus], by simp [hminus]⟩

theorem exponentValue_eq {g : Option Byte} {sign : Option Bool} (h : BeginsExponent g sign) (upper : Bool)
    (ds : List Nat) : exponentValue g ds = expPartValue (some ⟨upper, sign, ds⟩) := by
  simp only [exponentValue, expPartValue, h.minus, decimalValue_eq_digitsNumber]

/-- Any byte after the marker is a sign or is taken for the first digit. -/
theorem exists_beginsExponent {g : Option Byte} (hg : peek i = .ok g) :
    ∃ sign, ReadsAt peek i (expSignText sign) ∧ BeginsExponent g sign := by
  by_cases hminus : g = some chMinus
  · subst hminus
    exact ⟨some true, readsAt_cons.2 ⟨hg, readsAt_nil⟩, rfl, by simp⟩
  by_cases hplus : g = some chPlus
  · subst hplus
    exact ⟨some false, readsAt_cons.2 ⟨hg, readsAt_nil⟩, rfl, by decide⟩
  · exact ⟨none, readsAt_nil, by simp [isSign, expSignText, hminus, hplus], by simp [hminus]⟩

theorem beginsExponent_of_reads {sign : Option Bool} {ds : List Nat} (hds : isDigits ds = true)
    (h : ReadsAt peek i (expSignText sign ++ digitsText ds)) : ∃ g, peek i = .ok g ∧ BeginsExponent g sign := by
  obtain ⟨hne, hlt⟩ := isDigits_iff.1 hds
  rcases sign with - | - | -
  · cases ds with
    | nil => exact absurd rfl hne
    | cons d ds =>
      have hd := isDigit_digitByte (hlt d List.mem_cons_self)
      exact ⟨_, (readsAt_cons.1 h).1, beginsExponent_of_isDigit hd⟩
  · exact ⟨_, (readsAt_cons.1 h).1, rfl, by decide⟩
  · exact ⟨_, (readsAt_cons.1 h).1, rfl, by decide⟩

theorem isMarker_iff {c : Option Byte} :
    (c = some chLowerE ∨ c = some chUpperE) ↔ ∃ upper, c = some (expMarker upper) := by
  simp [expMarker]

variable (hN : ∀ j c, peek j = .ok (some c) → j < N) (hf : N < fuel)
include hN hf

/-- A digit run reads the digits that stand there, up to what is no digit. -/
theorem digitRun_ok_iff {ds : List Nat} : digitRun peek fuel i = .ok ds ↔
    (∀ d ∈ ds, d < 10) ∧ ReadsAt peek i (digitsText ds) ∧ ∃ c, peek (i + ds.length) = .ok c ∧ isDigit c = false := by
  constructor
  · intro h
    obtain ⟨hdigits, -, hend⟩ := digitRun_ok h
    have hreads : ReadsAt peek i (digitsText ds) := by
      intro j hj
      rw [length_digitsText] at hj
      obtain ⟨c, hc, hd, hval⟩ := hdigits j hj
      rw [hc, eq_digitByte_of_isDigit hd, ← hval]
      simp [digitsText]
    have hle := hreads.length_le hN
    rw [length_digitsText] at hle
    refine ⟨fun d hd => ?_, hreads, hend (hle.trans_lt hf)⟩
    obtain ⟨j, hj, rfl⟩ := List.getElem_of_mem hd
    obtain ⟨c, -, hd, hval⟩ := hdigits j hj
    exact hval ▸ digitVal_lt hd
  · rintro ⟨hlt, hreads, c, hc, hd⟩
    have hle := hreads.length_le hN
    have hmap : ((digitsText ds).map some).map digitVal = ds := by
      rw [digitsText, List.map_map, List.map_map]
      exact (List.map_congr_left fun d hd => digitVal_digitByte (hlt d hd)).trans (List.map_id ds)
    rw [← hmap]
    refine digitRun_eq _ (by simpa using hle.trans_lt hf) (fun j hj => ?_) (by simpa using hc) hd
    have hj' : j < ds.length := by simpa using hj
    refine ⟨by simpa using hreads j (by simpa using hj'), ?_⟩
    simpa [digitsText] using isDigit_digitByte (hlt _ (List.getElem_mem hj'))

theorem digitRun1_ok_iff {ds : List Nat} : digitRun1 peek fuel i = .ok ds ↔
    isDigits ds = true ∧ ReadsAt peek i (digitsText ds) ∧ ∃ c, peek (i + ds.length) = .ok c ∧ isDigit c = false := by
  rw [isDigits_iff, and_assoc, ← digitRun_ok_iff hN hf, digitRun1_ok_iff_ne_nil]

theorem scanInt_ok_iff_reads {x : Accum} : scanInt peek fuel i = .ok (x, n) ↔
    ∃ ds, (isDigits ds = true ∧ (ds = [0] ∨ ds.head? ≠ some 0)) ∧ ReadsAt peek i (digitsText ds) ∧
      (∃ c, peek n = .ok c ∧ isDigit c = false) ∧ x = Accum.ofDigits ds 0 ∧ n = i + ds.length := by
  rw [scanInt_ok_iff]
  constructor
  · rintro (⟨hzero, c, hc, hd, rfl, rfl⟩ | ⟨c, ds, hc, hd, hzero, hrun, rfl, rfl⟩)
    · exact ⟨[0], ⟨by decide, .inl rfl⟩, readsAt_cons.2 ⟨hzero, readsAt_nil⟩, ⟨c, hc, hd⟩, rfl, rfl⟩
    · obtain ⟨hlt, hreads, hend⟩ := (digitRun_ok_iff hN hf).1 hrun
      cases ds with
      | nil => simp [hc, hd] at hend
      | cons d ds =>
        have hfirst := (readsAt_cons.1 hreads).1
        have hhead : (d :: ds).head? ≠ some 0 := by
          rintro ⟨⟩
          exact hzero (Except.ok.inj (hc.symm.trans hfirst))
        exact ⟨d :: ds, ⟨isDigits_iff.2 ⟨nofun, hlt⟩, .inr hhead⟩, hreads, hend, Accum.foldl_intDigit hhead, rfl⟩
  · rintro ⟨ds, ⟨hds, hform⟩, hreads, hend, rfl, rfl⟩
    obtain ⟨hne, hlt⟩ := isDigits_iff.1 hds
    rcases hform with rfl | hhead
    · obtain ⟨c, hc, hd⟩ := hend
      exact .inl ⟨(readsAt_cons.1 hreads).1, c, hc, hd, rfl, rfl⟩
    · cases ds with
      | nil => exact absurd rfl hne
      | cons d ds =>
        have hd := hlt d List.mem_cons_self
        refine .inr ⟨_, d :: ds, (readsAt_cons.1 hreads).1, isDigit_digitByte hd, fun hz => ?_,
          (digitRun_ok_iff hN hf).2 ⟨hlt, hreads, hend⟩, (Accum.foldl_intDigit hhead).symm, rfl⟩
        rw [(digitByte_eq_chZero_iff hd).1 (Option.some.inj hz)] at hhead
        exact hhead rfl

/-- After an integer part, which ends before a byte that is no digit, the scanner reads a fraction part or none. -/
theorem scanFrac_ok_iff_reads {x y : Accum} (hi : ∃ c, peek i = .ok c ∧ isDigit c = false) :
    scanFrac peek fuel x i = .ok (y, n) ↔
    ∃ fr, (∀ fs, fr = some fs → isDigits fs = true) ∧ ReadsAt peek i (fracText fr) ∧
      (∃ c, peek n = .ok c ∧ isDigit c = false ∧ (fr = none → c ≠ some chDot)) ∧
      y = (fr.getD []).foldl Accum.fracDigit x ∧ n = i + (fracText fr).length := by
  rw [scanFrac_ok_iff]
  obtain ⟨c, hc, hd⟩ := hi
  constructor
  · rintro (⟨c', hc', hdot, rfl, rfl⟩ | ⟨hdot, fs, hrun, rfl, rfl⟩)
    · obtain rfl : c' = c := Except.ok.inj (hc'.symm.trans hc)
      exact ⟨none, nofun, readsAt_nil, ⟨c', hc, hd, fun _ => hdot⟩, rfl, rfl⟩
    · obtain ⟨hfs, hreads, c', hc', hd'⟩ := (digitRun1_ok_iff hN hf).1 hrun
      refine ⟨some fs, fun _ h => Option.some.inj h ▸ hfs, readsAt_cons.2 ⟨hdot, hreads⟩, ⟨c', hc', hd', nofun⟩,
        rfl, ?_⟩
      rw [fracText, List.length_cons, length_digitsText]
      omega
  · rintro ⟨fr, hfr, hreads, ⟨c', hc', hd', hdot⟩, rfl, rfl⟩
    cases fr with
    | none => exact .inl ⟨c', hc', hdot rfl, rfl, rfl⟩
    | some fs =>
      obtain ⟨hpoint, hdigits⟩ := readsAt_cons.1 hreads
      have hlen : i + (fracText (some fs)).length = i + 1 + fs.length := by
        rw [fracText, List.length_cons, length_digitsText]
        omega
      rw [hlen] at hc' ⊢
      exact .inr ⟨hpoint, fs, (digitRun1_ok_iff hN hf).2 ⟨hfr fs rfl, hdigits, c', hc', hd'⟩, rfl, rfl⟩

/-- After a part that ends before a byte that is no digit, the scanner reads an exponent part or none. -/
theorem scanExp_ok_iff_reads {v : Int} (hi : ∃ c, peek i = .ok c ∧ isDigit c = false) :
    scanExp peek fuel i = .ok (v, n) ↔
    ∃ ex, (∀ x : ExponentPart, ex = some x → isDigits x.digits = true) ∧ ReadsAt peek i (expText ex) ∧
      (∃ c, peek n = .ok c ∧ isDigit c = false ∧ (ex = none → c ≠ some chLowerE ∧ c ≠ some chUpperE)) ∧
      v = expPartValue ex ∧ n = i + (expText ex).length := by
  rw [scanExp_ok_iff]
  simp only [isMarker_iff]
  obtain ⟨c, hc, hd⟩ := hi
  constructor
  · rintro (⟨c', hc', hmark, rfl, rfl⟩ | ⟨_, g, ds, hmark, ⟨upper, rfl⟩, hg, hrun, rfl, rfl⟩)
    · obtain rfl : c' = c := Except.ok.inj (hc'.symm.trans hc)
      rw [← isMarker_iff, not_or] at hmark
      exact ⟨none, nofun, readsAt_nil, ⟨c', hc, hd, fun _ => hmark⟩, rfl, rfl⟩
    · obtain ⟨sign, hsign, hbegins⟩ := exists_beginsExponent hg
      rw [hbegins.length] at hrun ⊢
      obtain ⟨hds, hreads, c', hc', hd'⟩ := (digitRun1_ok_iff hN hf).1 hrun
      refine ⟨some ⟨upper, sign, ds⟩, fun _ h => Option.some.inj h ▸ hds,
        readsAt_cons.2 ⟨hmark, readsAt_append.2 ⟨hsign, hreads⟩⟩, ⟨c', hc', hd', nofun⟩,
        exponentValue_eq hbegins upper ds, ?_⟩
      simp only [expText, List.length_cons, List.length_append, length_digitsText]
      omega
  · rintro ⟨ex, hex, hreads, ⟨c', hc', hd', hmark⟩, rfl, rfl⟩
    cases ex with
    | none => exact .inl ⟨c', hc', by rw [← isMarker_iff, not_or]; exact hmark rfl, rfl, rfl⟩
    | some x =>
      obtain ⟨upper, sign, ds⟩ := x
      have hds := hex _ rfl
      obtain ⟨hmarker, hrest⟩ := readsAt_cons.1 hreads
      obtain ⟨g, hg, hbegins⟩ := beginsExponent_of_reads hds hrest
      have hlen : i + (expText (some ⟨upper, sign, ds⟩)).length = i + 1 + (isSign g).toNat + ds.length := by
        simp only [expText, List.length_cons, List.length_append, length_digitsText, hbegins.length]
        omega
      rw [hlen] at hc' ⊢
      refine .inr ⟨_, g, ds, hmarker, ⟨upper, rfl⟩, hg, (digitRun1_ok_iff hN hf).2 ⟨hds, ?_, c', hc', hd'⟩,
        (exponentValue_eq hbegins upper ds).symm, rfl⟩
      rw [hbegins.length]
      exact (readsAt_append.1 hrest).2

end

/-! ### What the scan of a literal yields -/

namespace Literal

variable {l : Literal} {c : Option Byte}

/-- What stands after the integer part is no digit. -/
theorem isDigit_after_int (h : l.endsBefore c) : isDigit ((fracText l.frac ++ expText l.exp).head?.or c) = false := by
  obtain ⟨neg, ds, fr, ex⟩ := l
  rcases fr with - | fs
  · rcases ex with - | x
    · exact h.1
    · exact isDigit_expMarker x.upper
  · rfl

/-- What stands after the fraction part is no digit, and with no fraction no point. -/
theorem after_frac (h : l.endsBefore c) :
    isDigit ((expText l.exp).head?.or c) = false ∧ (l.frac = none → (expText l.exp).head?.or c ≠ some chDot) := by
  obtain ⟨neg, ds, fr, ex⟩ := l
  obtain ⟨hdigit, -, hdot⟩ := h
  rcases ex with - | x
  · exact ⟨hdigit, hdot rfl⟩
  · exact ⟨isDigit_expMarker x.upper, fun _ h => expMarker_ne_chDot x.upper (Option.some.inj h)⟩

theorem length_text (l : Literal) :
    l.text.length = l.neg.toNat + l.int.length + (fracText l.frac).length + (expText l.exp).length := by
  simp [text_eq, length_signText, Nat.add_assoc]

/-- The parts of a literal's bytes, each from where the one before ends. -/
theorem readsAt_text_iff {peek : Peek} : ReadsAt peek 0 l.text ↔
    ReadsAt peek 0 (signText l.neg ++ digitsText l.int) ∧
      ReadsAt peek (l.neg.toNat + l.int.length) (fracText l.frac) ∧
      ReadsAt peek (l.neg.toNat + l.int.length + (fracText l.frac).length) (expText l.exp) := by
  rw [text_eq, readsAt_append, readsAt_append, and_assoc]
  simp [length_signText, Nat.add_assoc]

/-- `{negative, mantissa, exp10}` of a literal and its length. -/
def scanned (l : Literal) : Scanned := ⟨l.neg, l.mant, l.exp10, l.text.length⟩

/-- The accumulators after a literal's digits. -/
def accum (l : Literal) : Accum := Accum.ofDigits (l.int ++ l.fracDigits) l.fracDigits.length

theorem accum_eq_foldl (l : Literal) :
    l.accum = (l.frac.getD []).foldl Accum.fracDigit (Accum.ofDigits l.int 0) := by
  rw [Accum.foldl_fracDigit, Nat.zero_add]
  rfl

theorem scanned_eq (l : Literal) :
    l.scanned = ⟨l.neg, l.accum.m, clampExp10 (l.accum.e + expPartValue l.exp), l.text.length⟩ := by
  have hraw : l.rawExp10 = l.accum.e + expPartValue l.exp := by
    rw [rawExp10, expValue_eq, significant_eq, accum]
    simp only [Accum.ofDigits]
    omega
  rw [scanned, exp10, hraw]
  rfl

end Literal

/-! ### The scanner on a literal -/

section

variable {peek : Peek} {fuel N : Nat}

theorem scanSign_of_reads {neg : Bool} {ds : List Nat} (hds : isDigits ds = true)
    (h : ReadsAt peek 0 (signText neg ++ digitsText ds)) : scanSign peek = .ok neg := by
  obtain ⟨hne, hlt⟩ := isDigits_iff.1 hds
  rw [scanSign_ok_iff]
  cases neg with
  | true => exact ⟨_, (readsAt_cons.1 h).1, rfl⟩
  | false =>
    cases ds with
    | nil => exact absurd rfl hne
    | cons d ds =>
      have hd := isDigit_digitByte (hlt d List.mem_cons_self)
      refine ⟨_, (readsAt_cons.1 h).1, ?_⟩
      rw [eq_comm, beq_eq_false_iff_ne]
      intro hminus
      rw [hminus] at hd
      cases hd

theorem reads_signText_of_scanSign {neg : Bool} (h : scanSign peek = .ok neg) : ReadsAt peek 0 (signText neg) := by
  obtain ⟨c, hc, hneg⟩ := scanSign_ok_iff.1 h
  cases neg with
  | false => exact readsAt_nil
  | true =>
    obtain rfl : c = some chMinus := beq_iff_eq.1 hneg.symm
    exact readsAt_cons.2 ⟨hc, readsAt_nil⟩

variable (hN : ∀ j c, peek j = .ok (some c) → j < N) (hf : N < fuel)
include hN hf

theorem scanText_of_reads {l : Literal} {c : Option Byte} (hwf : l.wf = true) (hreads : ReadsAt peek 0 l.text)
    (hc : peek l.text.length = .ok c) (hends : l.endsBefore c) : scanText peek fuel = .ok l.scanned := by
  obtain ⟨hint, hfrac, hexp⟩ := Literal.wf_iff.1 hwf
  obtain ⟨hsignInt, hreadsFrac, hreadsExp⟩ := Literal.readsAt_text_iff.1 hreads
  have hreadsInt : ReadsAt peek l.neg.toNat (digitsText l.int) := by
    simpa [length_signText] using (readsAt_append.1 hsignInt).2
  rw [Literal.length_text] at hc
  have hafterInt := (readsAt_append.2 ⟨hreadsFrac, hreadsExp⟩).head (by rwa [List.length_append, ← Nat.add_assoc])
  have hafterFrac := hreadsExp.head hc
  obtain ⟨hdigitFrac, hdot⟩ := Literal.after_frac hends
  have hafter := Literal.isDigit_after_int hends
  obtain ⟨hdigit, hmark, -⟩ := hends
  rw [scanText_ok_iff]
  exact ⟨l.neg, _, _, l.accum, _, _, _, scanSign_of_reads hint.1 hsignInt,
    (scanInt_ok_iff_reads hN hf).2 ⟨l.int, hint, hreadsInt, ⟨_, hafterInt, hafter⟩, rfl, rfl⟩,
    (scanFrac_ok_iff_reads hN hf ⟨_, hafterInt, hafter⟩).2
      ⟨l.frac, hfrac, hreadsFrac, ⟨_, hafterFrac, hdigitFrac, hdot⟩, l.accum_eq_foldl, rfl⟩,
    (scanExp_ok_iff_reads hN hf ⟨_, hafterFrac, hdigitFrac⟩).2
      ⟨l.exp, hexp, hreadsExp, ⟨c, hc, hdigit, hmark⟩, rfl, rfl⟩,
    l.length_text ▸ l.scanned_eq⟩

theorem exists_literal_of_scanText {r : Scanned} (h : scanText peek fuel = .ok r) :
    ∃ l : Literal, l.wf = true ∧ ReadsAt peek 0 l.text ∧ (∃ c, peek l.text.length = .ok c ∧ l.endsBefore c) ∧
      r = l.scanned := by
  obtain ⟨neg, x, i, y, j, v, n, hneg, hx, hy, hv, rfl⟩ := scanText_ok_iff.1 h
  obtain ⟨ds, hint, hreadsInt, ⟨c, hc, hafterInt⟩, rfl, rfl⟩ := (scanInt_ok_iff_reads hN hf).1 hx
  obtain ⟨fr, hfrac, hreadsFrac, ⟨c', hc', hafterFrac, hdot⟩, rfl, rfl⟩ :=
    (scanFrac_ok_iff_reads hN hf ⟨c, hc, hafterInt⟩).1 hy
  obtain ⟨ex, hexp, hreadsExp, ⟨c'', hc'', hdigit, hmark⟩, rfl, rfl⟩ :=
    (scanExp_ok_iff_reads hN hf ⟨c', hc', hafterFrac⟩).1 hv
  have hsignInt : ReadsAt peek 0 (signText neg ++ digitsText ds) :=
    readsAt_append.2 ⟨reads_signText_of_scanSign hneg, by simpa [length_signText] using hreadsInt⟩
  have hends : Literal.endsBefore ⟨neg, ds, fr, ex⟩ c'' := by
    refine ⟨hdigit, hmark, fun hex hfr => ?_⟩
    subst hex
    obtain rfl : c'' = c' := Except.ok.inj (hc''.symm.trans hc')
    exact hdot hfr
  refine ⟨⟨neg, ds, fr, ex⟩, Literal.wf_iff.2 ⟨hint, hfrac, hexp⟩,
    Literal.readsAt_text_iff.2 ⟨hsignInt, hreadsFrac, hreadsExp⟩, ⟨c'', ?_, hends⟩, ?_⟩
  · rw [Literal.length_text]
    exact hc''
  · rw [Literal.scanned_eq, Literal.accum_eq_foldl, Literal.length_text]

end

/-- A scan succeeds exactly on the literals of the grammar, and with their values. -/
theorem State.scan_ok_iff {s : State} {m : ScanMode} {r : Scanned} :
    s.scan m = .ok r ↔ ∃ l : Literal, l.wf = true ∧ TextIs s m l ∧ r = l.scanned := by
  have hspace : ∀ j c, s.peek m j = .ok (some c) → j < 2 ^ s.params.addrWidth := fun _ _ hc =>
    (Nat.le_add_left _ _).trans_lt (State.peek_some_lt hc)
  have hfuel : 2 ^ s.params.addrWidth < s.scanFuel := Nat.lt_succ_self _
  simp only [textIs_iff]
  constructor
  · intro h
    obtain ⟨l, hwf, hreads, hends, hr⟩ := exists_literal_of_scanText hspace hfuel h
    exact ⟨l, hwf, ⟨hreads, hends⟩, hr⟩
  · rintro ⟨l, hwf, ⟨hreads, c, hc, hends⟩, rfl⟩
    exact scanText_of_reads hspace hfuel hwf hreads hc hends

end Sys2Proof.Machine
end

section
/-! SCAN of a literal, and what SCAN and PARSE accept (42_scanner.md R68 to R73). -/

namespace Sys2Proof.Machine

/-! ### The values of a literal -/

/-- Leading zeros do not change the number written. -/
theorem digitsNumber_significantDigits (ds : List Nat) : digitsNumber (significantDigits ds) = digitsNumber ds := by
  induction ds using List.reverseRecOn with
  | nil => rfl
  | append_singleton ds d ih =>
    by_cases h : significantDigits ds = [] ∧ d = 0
    · obtain ⟨hsig, rfl⟩ := h
      rw [significantDigits_concat_zero hsig, digitsNumber_concat, ← ih, hsig]
      rfl
    · rw [significantDigits_concat h, digitsNumber_concat, digitsNumber_concat, ih]

namespace Literal

variable {l : Literal}

theorem significant_lt_ten (h : l.wf = true) {d : Nat} (hd : d ∈ l.significant) : d < 10 := by
  obtain ⟨⟨hint, -⟩, hfrac, -⟩ := wf_iff.1 h
  rcases List.mem_append.1 ((List.dropWhile_suffix _).mem hd) with hd | hd
  · exact (isDigits_iff.1 hint).2 d hd
  · rw [fracDigits] at hd
    cases hfr : l.frac with
    | none => simp [hfr] at hd
    | some fs =>
      rw [hfr] at hd
      exact (isDigits_iff.1 (hfrac fs hfr)).2 d hd

theorem mant_lt (h : l.wf = true) : l.mant < 10 ^ 17 :=
  (digitsNumber_lt fun _ hd => significant_lt_ten h (List.mem_of_mem_take hd)).trans_le
    (Nat.pow_le_pow_right (by decide) (List.length_take_le _ _))

theorem exp10_bounds (l : Literal) : -400 ≤ l.exp10 ∧ l.exp10 ≤ 400 := by
  rw [exp10]
  omega

/-- With no digit dropped the mantissa is the number that the digits write. -/
theorem mant_of_length_le (h : l.significant.length ≤ 17) : l.mant = digitsNumber (l.int ++ l.fracDigits) := by
  rw [mant, List.take_of_length_le h, significant_eq, digitsNumber_significantDigits]

/-- With no digit dropped and no clamp the exponent is that of the last digit. -/
theorem exp10_of_length_le (h : l.significant.length ≤ 17) (hclamp : |l.expValue - l.fracDigits.length| ≤ 400) :
    l.exp10 = l.expValue - l.fracDigits.length := by
  have hraw : l.rawExp10 = l.expValue - l.fracDigits.length := by
    rw [rawExp10, Nat.sub_eq_zero_of_le h, Nat.cast_zero, add_zero]
  obtain ⟨hlo, hhi⟩ := abs_le.1 hclamp
  rw [exp10, hraw, min_eq_right hhi, max_eq_right hlo]

end Literal

/-! ### The command -/

theorem exec_scan_of_scan_ok {s : State} {m : ScanMode} {x : Scanned} (h : s.scan m = .ok x) : exec (.scan m) s =
    .next (((((s.setReg .mant (BitVec.ofNat 64 x.mant)).setReg .exp10 (signedWord x.exp10)).setSign x.neg).setReg .pos
      (s.textPos x.consumed)).complete .ok) := by
  simp only [exec, execScan, h]

/-- SCAN of a literal: its values fit their registers. -/
theorem exec_scan_of_textIs {s : State} {m : ScanMode} {l : Literal} (hwf : l.wf = true) (h : TextIs s m l) :
    ∃ t, exec (.scan m) s = .next t ∧ t.status.cause = .ok ∧ (t.reg .mant).toNat = l.mant ∧
      (t.reg .exp10).toInt = l.exp10 ∧ t.flags = { s.flags with n := l.neg } ∧
      t.reg .pos = s.reg .addr + BitVec.ofNat 64 l.text.length := by
  have hmant : l.mant < 2 ^ 64 := (Literal.mant_lt hwf).trans (by decide)
  obtain ⟨hlo, hhi⟩ := l.exp10_bounds
  have hscan : s.scan m = .ok l.scanned := State.scan_ok_iff.2 ⟨l, hwf, h, rfl⟩
  refine ⟨_, exec_scan_of_scan_ok hscan, by simp, ?_, ?_, by simp [Literal.scanned], ?_⟩
  · simpa [Literal.scanned] using hmant
  · simp [Literal.scanned, toInt_signedWord (by omega : -2 ^ 63 ≤ l.exp10) (by omega)]
  · simp [Literal.scanned, State.textPos, State.unsigned, BitVec.ofNat_add]

/-- Settles O35: the scan of a literal yields its values, and the frame is that of SCAN's row. -/
theorem scanReadsALiteral : Obligations.ScanReadsALiteral := by
  intro s m l _ hwf h
  obtain ⟨t, ht, hok, hmant, hexp, hflags, hpos⟩ := exec_scan_of_textIs hwf h
  obtain ⟨hc, hmem⟩ := exec_frame ht nofun
  rw [hok] at hc
  exact ⟨t, ht, hc, hmem, hmant, hexp, hflags, hpos⟩

/-- Settles O36: the command's scan has succeeded, which it does on literals only. -/
theorem scanAcceptsOnlyLiterals : Obligations.ScanAcceptsOnlyLiterals := by
  intro s t m hexec hok
  obtain ⟨r, hr, -⟩ : ∃ r, s.scan m = .ok r ∧ t.reg .pos = s.textPos r.consumed := by
    rcases hexec with h | ⟨f, h⟩
    · exact scan_ok_of_exec (.inl rfl) h hok
    · exact scan_ok_of_exec (.inr ⟨f, rfl⟩) h hok
  obtain ⟨l, hwf, htext, -⟩ := State.scan_ok_iff.1 hr
  exact ⟨l, hwf, htext⟩

/-- Settles O37: what SCAN has read is a literal, and the literal's values are in range. -/
theorem scanResultsAreInRange : Obligations.ScanResultsAreInRange := by
  intro s t m h hok
  obtain ⟨l, hwf, htext⟩ := scanAcceptsOnlyLiterals s t m (.inl h) hok
  obtain ⟨t', ht', -, hmant, hexp, -⟩ := exec_scan_of_textIs hwf htext
  obtain rfl : t' = t := by simpa [h] using ht'.symm
  rw [hmant, hexp]
  exact ⟨Literal.mant_lt hwf, l.exp10_bounds⟩

/-- Settles O38: the mantissa is the number of all the digits, and the exponent that of the last of them. -/
theorem scanIsExactOnShortLiterals : Obligations.ScanIsExactOnShortLiterals := by
  intro s m l _ hwf htext hshort hclamp
  obtain ⟨t, ht, hok, hmant, hexp, -⟩ := exec_scan_of_textIs hwf htext
  refine ⟨t, ht, hok, ?_⟩
  rw [hmant, hexp, Literal.mant_of_length_le hshort, Literal.exp10_of_length_le hshort hclamp]
  rfl

end Sys2Proof.Machine
end

section
/-! The multiplications SCALE makes (43_scaler.md R75, R76): one for each set bit of |q|, in ascending order, so that the
highest set bit is one multiplication of what the lower bits gave. -/

namespace Sys2Proof.Machine

/-! ### The entries used -/

/-- The indices of the table entries that SCALE multiplies by where |q| = n, in its order. -/
def usedEntries (n : Nat) : List Nat := (List.range pow5Entries).filter fun k => n.testBit k

theorem multiplications_eq_length (n : Nat) : multiplications n = (usedEntries n).length := (rfl)

theorem multiplications_le (n : Nat) : multiplications n ≤ pow5Entries :=
  (List.length_filter_le _ _).trans_eq List.length_range

/-- A bit set above all others of a number of `b` bits leaves a number of `b` bits. -/
theorem add_two_pow_lt {n k b : Nat} (h : n < 2 ^ k) (hk : k < b) : n + 2 ^ k < 2 ^ b :=
  calc n + 2 ^ k < 2 ^ k + 2 ^ k := Nat.add_lt_add_right h _
    _ = 2 ^ (k + 1) := (Nat.two_pow_succ k).symm
    _ ≤ 2 ^ b := Nat.pow_le_pow_right (by decide) hk

/-- A set bit above all others comes last in a filter by set bits. -/
theorem filter_testBit_range {n k : Nat} (h : n < 2 ^ k) (b : Nat) :
    (List.range b).filter (fun i => (n + 2 ^ k).testBit i) =
      (List.range b).filter (fun i => n.testBit i) ++ if k < b then [k] else [] := by
  induction b with
  | zero => simp
  | succ b ih =>
    rw [List.range_succ, List.filter_append, List.filter_append, ih, Nat.add_comm n]
    rcases lt_trichotomy b k with hb | rfl | hb
    · have hkb : ¬ k < b + 1 := Nat.not_lt.2 hb
      simp [List.filter_singleton, Nat.testBit_two_pow_add_gt hb, Nat.not_lt_of_gt hb, hkb]
    · simp [Nat.testBit_two_pow_add_eq, Nat.testBit_lt_two_pow h]
    · have hlt : n < 2 ^ b := h.trans (Nat.pow_lt_pow_right (by decide) hb)
      have hsum : 2 ^ k + n < 2 ^ b := Nat.add_comm n _ ▸ add_two_pow_lt h hb
      simp [Nat.testBit_lt_two_pow hlt, Nat.testBit_lt_two_pow hsum, hb, Nat.lt_succ_of_lt hb]

theorem usedEntries_add_two_pow {n k : Nat} (hk : k < pow5Entries) (h : n < 2 ^ k) :
    usedEntries (n + 2 ^ k) = usedEntries n ++ [k] := by
  rw [usedEntries, filter_testBit_range h, if_pos hk, usedEntries]

theorem multiplications_add_two_pow {n k : Nat} (hk : k < pow5Entries) (h : n < 2 ^ k) :
    multiplications (n + 2 ^ k) = multiplications n + 1 := by
  simp only [multiplications_eq_length, usedEntries_add_two_pow hk h, List.length_append, List.length_singleton]

/-- Induction on the highest set bit, the order in which SCALE multiplies (43_scaler.md R76). -/
theorem highestBit_induction {P : Nat → Prop} (zero : P 0) (step : ∀ n k, n < 2 ^ k → P n → P (n + 2 ^ k)) (n : Nat) :
    P n := by
  induction n using Nat.strong_induction_on with
  | _ n ih =>
    rcases Nat.eq_zero_or_pos n with rfl | hpos
    · exact zero
    · have hlow : 2 ^ n.log2 ≤ n := Nat.log2_self_le hpos.ne'
      have hhigh : n < 2 ^ n.log2 + 2 ^ n.log2 := Nat.two_pow_succ n.log2 ▸ Nat.lt_log2_self
      have htop : 0 < 2 ^ n.log2 := Nat.two_pow_pos _
      have hrest : P (n - 2 ^ n.log2) := ih _ (by omega)
      exact Nat.sub_add_cancel hlow ▸ step _ _ (by omega) hrest

theorem exponent_lt_of_add_two_pow_lt {n k b : Nat} (h : n + 2 ^ k < 2 ^ b) : k < b :=
  (Nat.pow_lt_pow_iff_right (by decide)).1 ((Nat.le_add_left _ n).trans_lt h)

/-! ### The scaler as a sequence of multiplications -/

/-- The exponent of ten of absolute value n that SCALE reaches with the table `t` (43_scaler.md R75). -/
def signedExponent (t : Pow5Table) (n : Nat) : Int :=
  match t with
  | .pos => n
  | .neg => -n

theorem signedExponent_zero (t : Pow5Table) : signedExponent t 0 = 0 := by cases t <;> rfl

theorem natAbs_signedExponent (t : Pow5Table) (n : Nat) : (signedExponent t n).natAbs = n := by
  cases t <;> simp [signedExponent]

theorem signedExponent_scaleTable (q : Int) : signedExponent (scaleTable q) q.natAbs = q := by
  unfold scaleTable
  split <;> simp only [signedExponent] <;> omega

theorem signedExponent_add (t : Pow5Table) (a b : Nat) :
    signedExponent t (a + b) = signedExponent t a + signedExponent t b := by
  cases t <;> simp only [signedExponent] <;> omega

/-- The scaler's running value after the multiplications, before the factor 2^q. -/
def scaleProduct (r : Pow5Rounding) (t : Pow5Table) (m n : Nat) : Scaled :=
  (usedEntries n).foldl (fun x k => scaleBy (pow5 r t k) x) (scaleInit m)

theorem scaleProduct_zero (r : Pow5Rounding) (t : Pow5Table) (m : Nat) : scaleProduct r t m 0 = scaleInit m := by
  simp [scaleProduct, usedEntries]

theorem scaleProduct_add_two_pow (r : Pow5Rounding) (t : Pow5Table) (m : Nat) {n k : Nat} (hk : k < pow5Entries)
    (h : n < 2 ^ k) : scaleProduct r t m (n + 2 ^ k) = scaleBy (pow5 r t k) (scaleProduct r t m n) := by
  rw [scaleProduct, usedEntries_add_two_pow hk h, List.foldl_append]
  simp only [List.foldl_cons, List.foldl_nil, scaleProduct]

/-- The table does not matter where no entry of it is used. -/
theorem scaleProduct_scaleTable (r : Pow5Rounding) (t : Pow5Table) (m n : Nat) :
    scaleProduct r (scaleTable (signedExponent t n)) m n = scaleProduct r t m n := by
  rcases Nat.eq_zero_or_pos n with rfl | hn
  · rw [scaleProduct_zero, scaleProduct_zero]
  · have ht : scaleTable (signedExponent t n) = t := by
      cases t
      · exact if_pos (Int.natCast_nonneg n)
      · exact if_neg (by simp only [signedExponent]; omega)
    rw [ht]

/-- The factor 2^q of 10^q (43_scaler.md R75). -/
def Scaled.shiftExp (x : Scaled) (q : Int) : Scaled := { x with exp := x.exp + q }

theorem scale_zero (r : Pow5Rounding) (q : Int) : scale r 0 q = ⟨0, 0, false, false⟩ := if_pos rfl

theorem scale_signedExponent (r : Pow5Rounding) (t : Pow5Table) {m : Nat} (hm : m ≠ 0) (n : Nat) :
    scale r m (signedExponent t n) = (scaleProduct r t m n).shiftExp (signedExponent t n) := by
  rw [← scaleProduct_scaleTable, scale, if_neg hm, natAbs_signedExponent, scaleProduct, usedEntries,
    List.foldl_filter]
  rfl

end Sys2Proof.Machine
end

section
/-! The scaler's values (43_scaler.md R80 to R82): what one multiplication keeps of the exact product, and from it what
all of them keep of m × 5^q. -/

namespace Sys2Proof.Machine

/-! ### Entries -/

/-- The number an entry of the ROM stands for (00_scope.md R11). -/
def Pow5Entry.value (e : Pow5Entry) : ℚ := e.sig * 2 ^ e.exp

theorem Pow5Entry.value_nonneg (e : Pow5Entry) : 0 ≤ e.value := by
  unfold Pow5Entry.value
  positivity

/-- By how much an entry may exceed its power, as a factor (41_pow5_rom.md R61). -/
def entryExcess (r : Pow5Rounding) : ℚ :=
  match r with
  | .trunc => 1
  | .nearest => 1 + 1 / 2 ^ 127

theorem one_le_entryExcess (r : Pow5Rounding) : 1 ≤ entryExcess r := by
  cases r <;> norm_num [entryExcess]

/-- A rounded quotient is less than one unit from the quotient, and truncated it is not above it. -/
theorem roundedQuotient_near (r : Pow5Rounding) (n : Nat) {d : Nat} (hd : 0 < d) :
    (n / d : ℚ) - 1 < roundedQuotient r n d ∧
      (roundedQuotient r n d : ℚ) ≤ n / d + match r with | .trunc => 0 | .nearest => 1 / 2 := by
  cases r with
  | trunc =>
    rw [roundedQuotient, ← Nat.floor_div_eq_div (K := ℚ), add_zero]
    exact ⟨Nat.sub_one_lt_floor _, Nat.floor_le (by positivity)⟩
  | nearest =>
    have hd' : (d : ℚ) ≠ 0 := Nat.cast_ne_zero.2 hd.ne'
    have hq : ((2 * n + d : ℕ) / (2 * d : ℕ) : ℚ) = n / d + 1 / 2 := by
      push_cast
      field_simp
    rw [roundedQuotient, ← Nat.floor_div_eq_div (K := ℚ), hq]
    refine ⟨?_, Nat.floor_le (by positivity)⟩
    linarith [Nat.sub_one_lt_floor ((n : ℚ) / d + 1 / 2)]

/-- Of a quotient of at least 2^127, one unit is at most 2^−127. -/
theorem roundedQuotient_bounds (r : Pow5Rounding) {n d : Nat} (hd : 0 < d) (h : 2 ^ 127 ≤ n / d) :
    (n / d : ℚ) * (1 - 1 / 2 ^ 127) ≤ roundedQuotient r n d ∧
      (roundedQuotient r n d : ℚ) ≤ n / d * entryExcess r := by
  obtain ⟨hlow, hhigh⟩ := roundedQuotient_near r n hd
  have hbig : (2 : ℚ) ^ 127 ≤ n / d := le_trans (by exact_mod_cast h) Nat.cast_div_le
  constructor
  · linarith
  · cases r <;> simp only [entryExcess] at hhigh ⊢ <;> linarith

/-- The fraction that a row of the listing rounds (41_pow5_rom.md R60). -/
theorem scaledPower_div (t : Pow5Table) (k : Nat) (exp : Int) :
    (scaledPowerNum t k exp / scaledPowerDen t k exp : ℚ) = 5 ^ signedExponent t (2 ^ k) * 2 ^ (-exp) := by
  have htwo : (2 : ℚ) ^ (-exp) = 2 ^ (-exp).toNat / 2 ^ exp.toNat := by
    rw [div_eq_mul_inv, ← zpow_natCast, ← zpow_natCast, ← zpow_neg, ← zpow_add₀ two_ne_zero]
    congr 1
    omega
  cases t with
  | pos =>
    rw [htwo, signedExponent, zpow_natCast]
    push_cast [scaledPowerNum, scaledPowerDen]
    ring
  | neg =>
    rw [htwo, signedExponent, zpow_neg, zpow_natCast]
    push_cast [scaledPowerNum, scaledPowerDen]
    field_simp

theorem pow5_exp (r : Pow5Rounding) (t : Pow5Table) (k : Nat) : (pow5 r t k).exp = (pow5Row t k).exp := by
  rw [pow5_eq_entry, Pow5Row.entry]

/-- An entry's value against its power (43_scaler.md R80). -/
theorem pow5_value_bounds (r : Pow5Rounding) (t : Pow5Table) {k : Nat} (hk : k < pow5Entries) :
    5 ^ signedExponent t (2 ^ k) * (1 - 1 / 2 ^ 127) ≤ (pow5 r t k).value ∧
      (pow5 r t k).value ≤ 5 ^ signedExponent t (2 ^ k) * entryExcess r := by
  obtain ⟨hlow, hhigh⟩ :=
    roundedQuotient_bounds r (scaledPowerDen_pos t k (pow5Row t k).exp) (pow5Row_lists hk t).normalized
  rw [← pow5_sig r t hk, scaledPower_div, zpow_neg] at hlow hhigh
  have hpow : (0 : ℚ) < 2 ^ (pow5Row t k).exp := by positivity
  have hpower : (5 : ℚ) ^ signedExponent t (2 ^ k) =
      5 ^ signedExponent t (2 ^ k) * (2 ^ (pow5Row t k).exp)⁻¹ * 2 ^ (pow5Row t k).exp :=
    (inv_mul_cancel_right₀ hpow.ne' _).symm
  rw [Pow5Entry.value, pow5_exp, hpower, mul_right_comm, mul_right_comm _ _ (entryExcess r)]
  exact ⟨mul_le_mul_of_nonneg_right hlow hpow.le, mul_le_mul_of_nonneg_right hhigh hpow.le⟩

/-- POS entries up to k = 5 are exact (41_pow5_rom.md R63). -/
theorem pow5_value_of_le_five (r : Pow5Rounding) {k : Nat} (hk : k ≤ 5) :
    (pow5 r .pos k).value = 5 ^ signedExponent .pos (2 ^ k) := by
  have hexp : (pow5Row .pos k).exp ≤ 0 := by
    revert k
    decide
  have hden : scaledPowerDen .pos k (pow5Row .pos k).exp = 1 := by
    rw [scaledPowerDen, Int.toNat_of_nonpos hexp, pow_zero]
  have hquot (n : Nat) : roundedQuotient r n 1 = n := by
    cases r <;> simp only [roundedQuotient] <;> omega
  have hnum := scaledPower_div .pos k (pow5Row .pos k).exp
  rw [hden, Nat.cast_one, div_one] at hnum
  rw [Pow5Entry.value, pow5_exp, pow5_sig r .pos (by simp only [pow5Entries]; omega), hden, hquot, hnum, mul_assoc,
    ← zpow_add₀ two_ne_zero, neg_add_cancel, zpow_zero, mul_one]

/-! ### One multiplication -/

/-- The number a running value stands for (43_scaler.md R75). -/
def Scaled.value (x : Scaled) : ℚ := x.sig * 2 ^ x.exp

theorem Scaled.value_nonneg (x : Scaled) : 0 ≤ x.value := by
  unfold Scaled.value
  positivity

/-- The running value has its top bit set (43_scaler.md R77). -/
structure Scaled.Normalized (x : Scaled) : Prop where
  le_sig : 2 ^ 127 ≤ x.sig
  sig_lt : x.sig < 2 ^ 128

theorem scaleInit_sig (m : Nat) : (scaleInit m).sig = (m <<< clz 64 m) * 2 ^ 64 := by
  have h (w : Nat) : w <<< 64 = w * 2 ^ 64 := Nat.shiftLeft_eq w 64
  exact h _

theorem scaleInit_exp (m : Nat) : (scaleInit m).exp = -((clz 64 m + 64 : Nat) : Int) := by
  rw [Nat.cast_add, Int.add_comm]
  rfl

theorem scaleInit_normalized {m : Nat} (hm : m ≠ 0) (hlt : m < 2 ^ 64) : (scaleInit m).Normalized := by
  obtain ⟨hlow, hhigh⟩ := normalize_bounds hm hlt
  constructor <;> rw [scaleInit_sig] <;> omega

theorem scaleInit_value (m : Nat) : (scaleInit m).value = m := by
  rw [Scaled.value, scaleInit_sig, scaleInit_exp, Nat.shiftLeft_eq, mul_assoc, ← pow_add, zpow_neg, zpow_natCast,
    Nat.cast_mul, Nat.cast_pow, Nat.cast_ofNat, mul_inv_cancel_right₀ (by positivity)]

theorem renormalize_value {x : Scaled} (h : 2 ^ 126 ≤ x.sig) (h' : x.sig < 2 ^ 128) :
    (renormalize x).value = x.value := by
  obtain ⟨-, -, -, -, ⟨hsig, hexp⟩ | ⟨hsig, hexp⟩⟩ := renormalize_spec h h'
  · rw [Scaled.value, hsig, hexp, Scaled.value]
  · rw [Scaled.value, hsig, hexp, Scaled.value, zpow_sub_one₀ two_ne_zero]
    push_cast
    ring

/-- What MUL128 makes of a running value and an entry, before it is renormalized (43_scaler.md R75). -/
def cutProduct (e : Pow5Entry) (x : Scaled) : Scaled where
  sig := x.sig * e.sig / 2 ^ 128
  exp := x.exp + e.exp + 128
  rb  := decide (x.sig * e.sig / 2 ^ 127 % 2 = 1)
  sb  := x.sb || x.rb || decide (x.sig * e.sig % 2 ^ 127 ≠ 0)

theorem cutProduct_sig (e : Pow5Entry) (x : Scaled) : (cutProduct e x).sig = x.sig * e.sig / 2 ^ 128 := (rfl)

theorem cutProduct_exp (e : Pow5Entry) (x : Scaled) : (cutProduct e x).exp = x.exp + e.exp + 128 := (rfl)

theorem scaleBy_eq (e : Pow5Entry) (x : Scaled) : scaleBy e x = renormalize (cutProduct e x) := by
  rw [cutProduct, ← mul128_kept, ← mul128_rb, ← mul128_sb]
  rfl

theorem value_mul_value (e : Pow5Entry) (x : Scaled) :
    x.value * e.value = (x.sig * e.sig : ℕ) * 2 ^ (x.exp + e.exp) := by
  rw [Scaled.value, Pow5Entry.value, zpow_add₀ two_ne_zero]
  push_cast
  ring

section
variable {e : Pow5Entry} {x : Scaled} (hx : x.Normalized) (he : 2 ^ 127 ≤ e.sig ∧ e.sig < 2 ^ 128)
include hx he

theorem cutProduct_sig_bounds : 2 ^ 126 ≤ (cutProduct e x).sig ∧ (cutProduct e x).sig < 2 ^ 128 :=
  mul128_kept_bounds hx.le_sig hx.sig_lt he.1 he.2

theorem scaleBy_normalized : (scaleBy e x).Normalized := by
  obtain ⟨hlow, hhigh⟩ := cutProduct_sig_bounds hx he
  obtain ⟨htop, hlt, -⟩ := renormalize_spec hlow hhigh
  exact scaleBy_eq e x ▸ ⟨htop, hlt⟩

theorem scaleBy_rounding : (scaleBy e x).rb = decide (x.sig * e.sig / 2 ^ 127 % 2 = 1) ∧
    (scaleBy e x).sb = (x.rb || x.sb || decide (x.sig * e.sig % 2 ^ 127 ≠ 0)) := by
  obtain ⟨hlow, hhigh⟩ := cutProduct_sig_bounds hx he
  obtain ⟨-, -, hrb, hsb, -⟩ := renormalize_spec hlow hhigh
  rw [scaleBy_eq, hrb, hsb, Bool.or_comm x.rb]
  exact ⟨rfl, rfl⟩

/-- The one shift is made where bit 255 of the product is 0 (43_scaler.md R77). -/
theorem scaleBy_sig_exp :
    (scaleBy e x).sig =
        (if 2 ^ 255 ≤ x.sig * e.sig then x.sig * e.sig / 2 ^ 128 else x.sig * e.sig / 2 ^ 128 * 2) ∧
      (scaleBy e x).exp = x.exp + e.exp + 128 - (if 2 ^ 255 ≤ x.sig * e.sig then 0 else 1) := by
  obtain ⟨hlow, hhigh⟩ := cutProduct_sig_bounds hx he
  obtain ⟨htop, hlt, -, -, hshift⟩ := renormalize_spec hlow hhigh
  rw [← scaleBy_eq, cutProduct_exp] at hshift
  rw [← scaleBy_eq] at htop hlt
  rw [cutProduct_sig] at hlow hhigh hshift
  generalize x.sig * e.sig = p at *
  split <;> omega

theorem scaleBy_value : (scaleBy e x).value = (x.sig * e.sig / 2 ^ 128 : ℕ) * 2 ^ 128 * 2 ^ (x.exp + e.exp) := by
  obtain ⟨hlow, hhigh⟩ := cutProduct_sig_bounds hx he
  rw [scaleBy_eq, renormalize_value hlow hhigh, Scaled.value, cutProduct_sig, cutProduct_exp,
    zpow_add₀ two_ne_zero _ 128, mul_comm (2 ^ (x.exp + e.exp) : ℚ), mul_assoc]
  rfl

/-- The cut takes less than 2^−126 of the product, as the kept half is at least 2^126 (43_scaler.md R80). -/
theorem scaleBy_value_bounds : x.value * e.value * (1 - 2 / 2 ^ 127) ≤ (scaleBy e x).value ∧
    (scaleBy e x).value ≤ x.value * e.value := by
  obtain ⟨hlow, -⟩ := cutProduct_sig_bounds hx he
  rw [cutProduct_sig] at hlow
  rw [scaleBy_value hx he, value_mul_value, mul_right_comm]
  have hpow : (0 : ℚ) ≤ 2 ^ (x.exp + e.exp) := by positivity
  generalize x.sig * e.sig = p at *
  have hkept : p / 2 ^ 128 * 2 ^ 128 ≤ p := Nat.div_mul_le_self _ _
  have hcut : p ≤ (p / 2 ^ 128 + 1) * 2 ^ 128 := by omega
  generalize p / 2 ^ 128 = a at *
  have hlow' : (2 : ℚ) ^ 126 ≤ a := by exact_mod_cast hlow
  have hkept' : (a : ℚ) * 2 ^ 128 ≤ p := by exact_mod_cast hkept
  have hcut' : (p : ℚ) ≤ (a + 1) * 2 ^ 128 := by exact_mod_cast hcut
  exact ⟨mul_le_mul_of_nonneg_right (by linarith) hpow, mul_le_mul_of_nonneg_right hkept' hpow⟩

theorem scaleBy_value_eq_iff : (scaleBy e x).value = x.value * e.value ↔ x.sig * e.sig % 2 ^ 128 = 0 := by
  have hpow : (2 : ℚ) ^ (x.exp + e.exp) ≠ 0 := by positivity
  rw [scaleBy_value hx he, value_mul_value, mul_left_inj' hpow]
  generalize x.sig * e.sig = p
  norm_cast
  omega

/-- RB and SB stay 0 as long as no multiplication cuts off a nonzero value (43_scaler.md R81). -/
theorem scaleBy_rounding_eq_false_iff : ((scaleBy e x).rb = false ∧ (scaleBy e x).sb = false) ↔
    (x.rb = false ∧ x.sb = false) ∧ x.sig * e.sig % 2 ^ 128 = 0 := by
  obtain ⟨hrb, hsb⟩ := scaleBy_rounding hx he
  rw [hrb, hsb, ← mul128_exact_iff, mul128_rb, mul128_sb, Bool.or_eq_false_iff, Bool.or_eq_false_iff]
  tauto

end

/-! ### All multiplications -/

/-- What one multiplication keeps at least, as a factor: the entry's error and the cut's (43_scaler.md R80). -/
def keptPart : ℚ := (1 - 1 / 2 ^ 127) * (1 - 2 / 2 ^ 127)

/-- `x` is normalized and stands for `v` but for the errors of `j` multiplications. -/
structure Approximates (r : Pow5Rounding) (v : ℚ) (j : Nat) (x : Scaled) : Prop where
  normalized : x.Normalized
  lower : v * keptPart ^ j ≤ x.value
  upper : x.value ≤ v * entryExcess r ^ j

theorem keptPart_pos : 0 < keptPart := by norm_num [keptPart]

theorem approximates_scaleInit (r : Pow5Rounding) {m : Nat} (hm : m ≠ 0) (hlt : m < 2 ^ 64) :
    Approximates r m 0 (scaleInit m) :=
  ⟨scaleInit_normalized hm hlt, by simp [scaleInit_value], by simp [scaleInit_value]⟩

theorem approximates_scaleBy {r : Pow5Rounding} {v : ℚ} {j : Nat} {x : Scaled} (h : Approximates r v j x) (hv : 0 ≤ v)
    (t : Pow5Table) {k : Nat} (hk : k < pow5Entries) :
    Approximates r (v * 5 ^ signedExponent t (2 ^ k)) (j + 1) (scaleBy (pow5 r t k) x) := by
  obtain ⟨hx, hlow, hhigh⟩ := h
  have he := pow5_sig_bounds r t hk
  obtain ⟨hcutLow, hcutHigh⟩ := scaleBy_value_bounds hx he
  obtain ⟨hentryLow, hentryHigh⟩ := pow5_value_bounds r t hk
  have hx0 := x.value_nonneg
  have he0 := (pow5 r t k).value_nonneg
  have hkept := keptPart_pos.le
  have hexcess : 0 ≤ entryExcess r := zero_le_one.trans (one_le_entryExcess r)
  refine ⟨scaleBy_normalized hx he, ?_, ?_⟩
  · calc v * 5 ^ signedExponent t (2 ^ k) * keptPart ^ (j + 1)
        = v * keptPart ^ j * (5 ^ signedExponent t (2 ^ k) * (1 - 1 / 2 ^ 127)) * (1 - 2 / 2 ^ 127) := by
          rw [pow_succ]
          nth_rw 2 [keptPart]
          ring
      _ ≤ x.value * (pow5 r t k).value * (1 - 2 / 2 ^ 127) := by gcongr
      _ ≤ (scaleBy (pow5 r t k) x).value := hcutLow
  · calc (scaleBy (pow5 r t k) x).value ≤ x.value * (pow5 r t k).value := hcutHigh
      _ ≤ v * entryExcess r ^ j * (5 ^ signedExponent t (2 ^ k) * entryExcess r) := by gcongr
      _ = v * 5 ^ signedExponent t (2 ^ k) * entryExcess r ^ (j + 1) := by
          rw [pow_succ]
          ring

theorem five_zpow_add_two_pow (t : Pow5Table) (n k : Nat) :
    (5 : ℚ) ^ signedExponent t (n + 2 ^ k) = 5 ^ signedExponent t n * 5 ^ signedExponent t (2 ^ k) := by
  rw [signedExponent_add, zpow_add₀ (by norm_num)]

theorem approximates_scaleProduct (r : Pow5Rounding) (t : Pow5Table) {m n : Nat} (hm : m ≠ 0) (hlt : m < 2 ^ 64)
    (hn : n < 2 ^ pow5Entries) :
    Approximates r (m * 5 ^ signedExponent t n) (multiplications n) (scaleProduct r t m n) := by
  induction n using highestBit_induction with
  | zero => simpa [scaleProduct_zero, signedExponent_zero, multiplications] using approximates_scaleInit r hm hlt
  | step n k hnk ih =>
    have hk := exponent_lt_of_add_two_pow_lt hn
    rw [scaleProduct_add_two_pow r t m hk hnk, multiplications_add_two_pow hk hnk, five_zpow_add_two_pow, ← mul_assoc]
    exact approximates_scaleBy (ih ((Nat.le_add_right _ _).trans_lt hn)) (by positivity) t hk

/-- `x` is normalized, and RB = SB = 0 says that `x` stands for `v` itself; otherwise it lies below it. -/
structure TracksExactness (v : ℚ) (x : Scaled) : Prop where
  normalized : x.Normalized
  upper : x.value ≤ v
  exact_iff : (x.rb = false ∧ x.sb = false) ↔ x.value = v

theorem tracksExactness_scaleInit {m : Nat} (hm : m ≠ 0) (hlt : m < 2 ^ 64) : TracksExactness m (scaleInit m) :=
  ⟨scaleInit_normalized hm hlt, (scaleInit_value m).le, iff_of_true ⟨rfl, rfl⟩ (scaleInit_value m)⟩

/-- With an exact entry nothing but the cut lowers the value, and the rounding bits show each cut. -/
theorem tracksExactness_scaleBy {v : ℚ} {x : Scaled} (h : TracksExactness v x) {e : Pow5Entry}
    (he : 2 ^ 127 ≤ e.sig ∧ e.sig < 2 ^ 128) : TracksExactness (v * e.value) (scaleBy e x) := by
  obtain ⟨hx, hle, hiff⟩ := h
  obtain ⟨-, hcut⟩ := scaleBy_value_bounds hx he
  have hsig : 0 < e.sig := by omega
  have he0 : 0 < e.value := by
    unfold Pow5Entry.value
    positivity
  have hmul : x.value * e.value ≤ v * e.value := mul_le_mul_of_nonneg_right hle he0.le
  refine ⟨scaleBy_normalized hx he, hcut.trans hmul, ?_⟩
  rw [scaleBy_rounding_eq_false_iff hx he, hiff, ← scaleBy_value_eq_iff hx he]
  constructor
  · rintro ⟨hv, hexact⟩
    rw [hexact, hv]
  · intro h
    have hv : x.value * e.value = v * e.value := hmul.antisymm (h ▸ hcut)
    exact ⟨mul_right_cancel₀ he0.ne' hv, h.trans hv.symm⟩

theorem tracksExactness_scaleProduct (r : Pow5Rounding) {m n : Nat} (hm : m ≠ 0) (hlt : m < 2 ^ 64) (hn : n < 2 ^ 6) :
    TracksExactness (m * 5 ^ signedExponent .pos n) (scaleProduct r .pos m n) := by
  induction n using highestBit_induction with
  | zero => simpa [scaleProduct_zero, signedExponent_zero] using tracksExactness_scaleInit hm hlt
  | step n k hnk ih =>
    have hk6 : k < 6 := exponent_lt_of_add_two_pow_lt hn
    have hk : k < pow5Entries := hk6.trans (by decide)
    rw [scaleProduct_add_two_pow r .pos m hk hnk, five_zpow_add_two_pow, ← mul_assoc,
      ← pow5_value_of_le_five r (Nat.le_of_lt_succ hk6)]
    exact tracksExactness_scaleBy (ih ((Nat.le_add_right _ _).trans_lt hn)) (pow5_sig_bounds r .pos hk)

/-! ### What SCALE answers -/

theorem shiftExp_value (x : Scaled) (q : Int) : (x.shiftExp q).value = x.value * 2 ^ q := by
  rw [Scaled.value, Scaled.shiftExp, zpow_add₀ two_ne_zero, Scaled.value, mul_assoc]

theorem ten_zpow (q : Int) : (10 : ℚ) ^ q = 5 ^ q * 2 ^ q := by
  rw [← mul_zpow]
  norm_num

theorem lt_two_pow_of_le_scaleRange {n : Nat} (h : n ≤ scaleRange) : n < 2 ^ pow5Entries := Nat.lt_succ_of_le h

theorem scale_eq (r : Pow5Rounding) {m : Nat} (hm : m ≠ 0) (q : Int) :
    scale r m q = (scaleProduct r (scaleTable q) m q.natAbs).shiftExp q := by
  have h := scale_signedExponent r (scaleTable q) hm q.natAbs
  rwa [signedExponent_scaleTable] at h

theorem scale_exponent_zero (r : Pow5Rounding) {m : Nat} (hm : m ≠ 0) : scale r m 0 = (scaleInit m).shiftExp 0 := by
  rw [scale_eq r hm, Int.natAbs_zero, scaleProduct_zero]

theorem renormalize_shiftExp (x : Scaled) (q : Int) : renormalize (x.shiftExp q) = (renormalize x).shiftExp q := by
  have hsig : (x.shiftExp q).sig = x.sig := rfl
  rw [renormalize, renormalize, hsig]
  split
  · rfl
  · rw [Scaled.shiftExp, Scaled.shiftExp, Scaled.mk.injEq]
    exact ⟨rfl, add_sub_right_comm _ _ _, rfl, rfl⟩

/-- The factor 2^q may be taken before a multiplication or after it. -/
theorem scaleBy_shiftExp (e : Pow5Entry) (x : Scaled) (q : Int) :
    scaleBy e (x.shiftExp q) = (scaleBy e x).shiftExp q := by
  have hcut : cutProduct e (x.shiftExp q) = (cutProduct e x).shiftExp q := by
    rw [cutProduct, Scaled.shiftExp, Scaled.mk.injEq]
    refine ⟨rfl, ?_, rfl, rfl⟩
    simp only [cutProduct_exp, Scaled.shiftExp, Int.add_right_comm _ q]
  rw [scaleBy_eq, hcut, renormalize_shiftExp, scaleBy_eq]

theorem shiftExp_shiftExp (x : Scaled) (p q : Int) : (x.shiftExp p).shiftExp q = x.shiftExp (p + q) := by
  simp only [Scaled.shiftExp, Int.add_assoc]

/-- The highest set bit of |q| is one multiplication of what SCALE gives for the bits below it. -/
theorem scale_add_two_pow (r : Pow5Rounding) (t : Pow5Table) {m n k : Nat} (hm : m ≠ 0) (hk : k < pow5Entries)
    (hn : n < 2 ^ k) : scale r m (signedExponent t (n + 2 ^ k)) =
      (scaleBy (pow5 r t k) (scale r m (signedExponent t n))).shiftExp (signedExponent t (2 ^ k)) := by
  rw [scale_signedExponent r t hm, scale_signedExponent r t hm, scaleProduct_add_two_pow r t m hk hn, scaleBy_shiftExp,
    shiftExp_shiftExp, signedExponent_add]

/-- SCALE's result against the number it stands for (43_scaler.md R80). -/
theorem scale_approximates (r : Pow5Rounding) {m : Nat} {q : Int} (hm : m ≠ 0) (hlt : m < 2 ^ 64)
    (hq : q.natAbs ≤ scaleRange) : Approximates r (m * 10 ^ q) (multiplications q.natAbs) (scale r m q) := by
  obtain ⟨hx, hlow, hhigh⟩ :=
    approximates_scaleProduct r (scaleTable q) hm hlt (lt_two_pow_of_le_scaleRange hq)
  rw [signedExponent_scaleTable] at hlow hhigh
  have hpow : (0 : ℚ) ≤ 2 ^ q := by positivity
  rw [scale_eq r hm, ten_zpow, ← mul_assoc]
  refine ⟨⟨hx.le_sig, hx.sig_lt⟩, ?_, ?_⟩ <;> rw [shiftExp_value, mul_right_comm]
  · exact mul_le_mul_of_nonneg_right hlow hpow
  · exact mul_le_mul_of_nonneg_right hhigh hpow

theorem scale_tracksExactness (r : Pow5Rounding) {m : Nat} {q : Int} (hm : m ≠ 0) (hlt : m < 2 ^ 64) (h0 : 0 ≤ q)
    (hq : q ≤ 63) : TracksExactness (m * 10 ^ q) (scale r m q) := by
  lift q to ℕ using h0
  obtain ⟨hx, hle, hiff⟩ := tracksExactness_scaleProduct r hm hlt (n := q) (by omega)
  have hpow : (0 : ℚ) < 2 ^ (q : ℤ) := by positivity
  have hscale : scale r m q = _ := scale_signedExponent r .pos hm q
  rw [hscale, ten_zpow, ← mul_assoc]
  refine ⟨⟨hx.le_sig, hx.sig_lt⟩, ?_, ?_⟩ <;> rw [shiftExp_value]
  · exact mul_le_mul_of_nonneg_right hle hpow.le
  · exact hiff.trans (mul_left_inj' hpow.ne').symm

end Sys2Proof.Machine
end

section
/-! SCALE (43_scaler.md R75 to R82): its exponent's range, what the command answers, and its statements. -/

namespace Sys2Proof.Machine

/-! ### The bounds of R80 and R82 -/

/-- The errors of up to nine multiplications do not reach a factor of two. -/
theorem Approximates.within_factor_two {r : Pow5Rounding} {v : ℚ} {j : Nat} {x : Scaled} (h : Approximates r v j x)
    (hv : 0 ≤ v) (hj : j ≤ pow5Entries) : v / 2 ≤ x.value ∧ x.value ≤ v * 2 := by
  have hkept : 1 / 2 ≤ keptPart ^ j :=
    calc 1 / 2 ≤ keptPart ^ pow5Entries := by norm_num [keptPart, pow5Entries]
      _ ≤ keptPart ^ j := pow_le_pow_of_le_one keptPart_pos.le (by norm_num [keptPart]) hj
  have hexcess : entryExcess r ^ j ≤ 2 :=
    calc entryExcess r ^ j ≤ entryExcess r ^ pow5Entries := pow_le_pow_right₀ (one_le_entryExcess r) hj
      _ ≤ 2 := by cases r <;> norm_num [entryExcess, pow5Entries]
  constructor
  · calc v / 2 = v * (1 / 2) := div_eq_mul_one_div v 2
      _ ≤ v * keptPart ^ j := mul_le_mul_of_nonneg_left hkept hv
      _ ≤ x.value := h.lower
  · exact h.upper.trans (mul_le_mul_of_nonneg_left hexcess hv)

theorem ten_zpow_bounds {q : Int} (hq : q.natAbs ≤ scaleRange) :
    (2 : ℚ) ^ (-1698 : ℤ) < 10 ^ q ∧ (10 : ℚ) ^ q < 2 ^ (1698 : ℤ) := by
  have hten : (10 : ℚ) ^ (511 : ℤ) < 2 ^ (1698 : ℤ) := by
    exact_mod_cast (by decide +kernel : 10 ^ 511 < 2 ^ 1698)
  rw [scaleRange] at hq
  have hlow : (10 : ℚ) ^ (-511 : ℤ) ≤ 10 ^ q := zpow_le_zpow_right₀ (by norm_num) (by omega)
  have hhigh : (10 : ℚ) ^ q ≤ 10 ^ (511 : ℤ) := zpow_le_zpow_right₀ (by norm_num) (by omega)
  have hinv : (2 : ℚ) ^ (-1698 : ℤ) < 10 ^ (-511 : ℤ) := by
    rw [zpow_neg, zpow_neg]
    exact inv_strictAnti₀ (by positivity) hten
  exact ⟨hinv.trans_le hlow, hhigh.trans_lt hten⟩

/-- R82 for any 64-bit mantissa and either rounding of the ROM. -/
theorem scale_exp_bounds (r : Pow5Rounding) {m : Nat} {q : Int} (hlt : m < 2 ^ 64) (hq : q.natAbs ≤ scaleRange) :
    -1826 ≤ (scale r m q).exp ∧ (scale r m q).exp ≤ 1635 := by
  rcases eq_or_ne m 0 with rfl | hm
  · rw [scale_zero]
    decide
  have h := scale_approximates r hm hlt hq
  obtain ⟨hlow, hhigh⟩ := h.within_factor_two (by positivity) (multiplications_le _)
  obtain ⟨hx, hx'⟩ := h.normalized
  obtain ⟨hten, hten'⟩ := ten_zpow_bounds hq
  rw [Scaled.value] at hlow hhigh
  generalize scale r m q = x at *
  have hm1 : (1 : ℚ) ≤ m := by exact_mod_cast Nat.one_le_iff_ne_zero.2 hm
  have hm64 : (m : ℚ) ≤ 2 ^ 64 := by exact_mod_cast hlt.le
  have hsig' : (x.sig : ℚ) ≤ 2 ^ 128 := by exact_mod_cast hx'.le
  have hbelow : (2 : ℚ) ^ (-1698 : ℤ) < 2 ^ (129 + x.exp) :=
    calc (2 : ℚ) ^ (-1698 : ℤ) < 1 * 10 ^ q := by rwa [one_mul]
      _ ≤ m * 10 ^ q := by gcongr
      _ ≤ x.sig * 2 ^ x.exp * 2 := by linarith
      _ ≤ 2 ^ 128 * 2 ^ x.exp * 2 := by gcongr
      _ = 2 ^ (129 + x.exp) := by
          rw [zpow_add₀ two_ne_zero]
          ring
  have habove : (2 : ℚ) ^ (127 + x.exp) < 2 ^ (65 + 1698 : ℤ) :=
    calc (2 : ℚ) ^ (127 + x.exp) = 2 ^ 127 * 2 ^ x.exp := zpow_add₀ two_ne_zero _ _
      _ ≤ x.sig * 2 ^ x.exp := by
          gcongr
          exact_mod_cast hx
      _ ≤ m * 10 ^ q * 2 := hhigh
      _ ≤ 2 ^ 64 * 10 ^ q * 2 := by gcongr
      _ < 2 ^ 64 * 2 ^ (1698 : ℤ) * 2 := by gcongr
      _ = 2 ^ (65 + 1698 : ℤ) := by
          rw [zpow_add₀ two_ne_zero]
          ring
  have hexp := (zpow_lt_zpow_iff_right₀ one_lt_two).1 hbelow
  have hexp' := (zpow_lt_zpow_iff_right₀ one_lt_two).1 habove
  omega

/-- Each multiplication takes less than 3 × 2^−127 of the value (43_scaler.md R80), by Bernoulli's inequality. -/
theorem one_sub_le_keptPart_pow (j : Nat) :
    1 - 3 * (j : ℚ) / 2 ^ 127 ≤ keptPart ^ j ∧ (1 ≤ j → 1 - 3 * (j : ℚ) / 2 ^ 127 < keptPart ^ j) := by
  have hbernoulli : 1 - 3 * (j : ℚ) / 2 ^ 127 ≤ (1 - 3 / 2 ^ 127) ^ j :=
    calc 1 - 3 * (j : ℚ) / 2 ^ 127 = 1 + j * (-(3 / 2 ^ 127)) := by ring
      _ ≤ (1 + -(3 / 2 ^ 127)) ^ j := one_add_mul_le_pow (by norm_num) j
      _ = (1 - 3 / 2 ^ 127) ^ j := by rw [← sub_eq_add_neg]
  have hstep : (1 - 3 / 2 ^ 127 : ℚ) < keptPart := by norm_num [keptPart]
  have hnonneg : (0 : ℚ) ≤ 1 - 3 / 2 ^ 127 := by norm_num
  exact ⟨hbernoulli.trans (pow_le_pow_left₀ hnonneg hstep.le j),
    fun hj => hbernoulli.trans_lt (pow_lt_pow_left₀ hstep hnonneg (by omega))⟩

/-! ### The command -/

/-- What SCALE computes from MANT and EXP10 of a state (43_scaler.md R75). -/
def State.scaled (s : State) : Scaled := scale s.params.rounding (s.unsigned .mant) (s.signed .exp10)

theorem exec_scale_of_le {s : State} (hq : (s.signed .exp10).natAbs ≤ scaleRange) : exec .scale s =
    .next ((((s.setWide .pHi .pLo s.scaled.sig).setReg .bexp (signedWord s.scaled.exp)).setRounding s.scaled.rb
      s.scaled.sb).complete .ok) :=
  if_neg (Nat.not_lt.2 hq)

theorem exec_scale_of_lt {s : State} (hq : scaleRange < (s.signed .exp10).natAbs) :
    exec .scale s = .next (s.complete .operandRange) :=
  if_pos hq

theorem State.unsigned_ne_zero {s : State} {r : DataReg} (h : s.reg r ≠ 0) : s.unsigned r ≠ 0 :=
  fun h0 => h (BitVec.eq_of_toNat_eq h0)

theorem State.wide_eq_zero {s : State} {hi lo : DataReg} (h : s.wide hi lo = 0) : s.reg hi = 0 ∧ s.reg lo = 0 := by
  rw [State.wide_eq_toNat] at h
  exact ⟨BitVec.eq_of_toNat_eq (by simp; omega), BitVec.eq_of_toNat_eq (by simp; omega)⟩

theorem scaled_sig_lt {s : State} (hq : (s.signed .exp10).natAbs ≤ scaleRange) : s.scaled.sig < 2 ^ 128 := by
  rcases eq_or_ne (s.unsigned .mant) 0 with hm | hm
  · rw [State.scaled, hm, scale_zero]
    decide
  · exact (scale_approximates _ hm (s.reg .mant).isLt hq).normalized.sig_lt

/-- From `s` to `t` SCALE has completed with its results in P, BEXP, RB and SB, and left all else. -/
structure Scales (s t : State) : Prop where
  exec : exec .scale s = .next t
  completes : Completes .ok [.pHi, .pLo, .bexp] s t
  mem : SameMemory s t
  wide : t.wide .pHi .pLo = s.scaled.sig
  bexp : t.signed .bexp = s.scaled.exp
  flags : t.flags = { s.flags with rb := s.scaled.rb, sb := s.scaled.sb }

/-- The results fit their registers (43_scaler.md R82). -/
theorem exists_scales {s : State} (hq : (s.signed .exp10).natAbs ≤ scaleRange) : ∃ t, Scales s t := by
  have h := exec_scale_of_le hq
  obtain ⟨hc, hmem⟩ := exec_frame h nofun
  obtain ⟨hlo, hhi⟩ := scale_exp_bounds s.params.rounding (s.reg .mant).isLt hq
  refine ⟨_, h, hc, hmem, ?_, ?_, by simp⟩
  · rw [State.wide_complete, State.wide_setRounding, State.wide_setReg_of_ne _ (by decide) (by decide),
      State.wide_setWide s (by decide) (scaled_sig_lt hq)]
  · rw [State.signed, State.reg_complete, State.reg_setRounding, State.reg_setReg, if_pos rfl]
    exact toInt_signedWord (Int.le_trans (by decide) hlo) (Int.lt_of_le_of_lt hhi (by decide))

theorem Scales.value {s t : State} (h : Scales s t) :
    (t.wide .pHi .pLo : ℚ) * 2 ^ t.signed .bexp = s.scaled.value := by
  rw [h.wide, h.bexp, Scaled.value]

theorem scaled_approximates {s : State} (hm : s.reg .mant ≠ 0) (hq : (s.signed .exp10).natAbs ≤ scaleRange) :
    Approximates s.params.rounding (s.unsigned .mant * 10 ^ s.signed .exp10)
      (multiplications (s.signed .exp10).natAbs) s.scaled :=
  scale_approximates _ (State.unsigned_ne_zero hm) (s.reg .mant).isLt hq

/-! ### PARSE -/

/-- PARSE ends with OK or with an error of its scan (46_api.md R107). -/
theorem cause_of_exec_parse {f : FloatFormat} {m : ScanMode} {s t : State} (h : exec (.parse f m) s = .next t) :
    t.status.cause = .ok ∨ ∃ e, s.scan m = .error e ∧ t.status.cause = e.cause := by
  simp only [exec, execParse] at h
  split at h
  · next e he =>
    cases h
    exact .inr ⟨e, he, (s.raiseText_frame e).1⟩
  · cases h
    exact .inl rfl

/-! ### ASSEMBLE of a zero significand -/

theorem exec_assemble (f : FloatFormat) (s : State) : exec (.assemble f) s = .next ((s.setPattern
    (assemble f s.flags.n (s.wide .pHi .pLo) (s.signed .bexp) s.flags.rb s.flags.sb)).complete .ok) := (rfl)

/-- A zero significand gives the zero of sign N (44_assembler.md R85). -/
theorem bits_of_exec_assemble_zero (f : FloatFormat) {s : State} (h : s.wide .pHi .pLo = 0) :
    ∃ t, exec (.assemble f) s = .next t ∧ (t.reg .bits).toNat = s.flags.n.toNat * 2 ^ (f.width - 1) := by
  refine ⟨_, exec_assemble f s, ?_⟩
  rw [h, assemble, if_pos rfl, State.reg_complete, State.reg_setPattern, if_pos rfl]
  cases f <;> cases s.flags.n <;> rfl

/-! ### The obligations -/

/-- Settles O42: SCALE's value is at most m × 10^q under TRUNC, and each multiplication keeps its part. -/
theorem scaleApproximatesFromBelow : Obligations.ScaleApproximatesFromBelow := by
  intro s hm hq htrunc
  obtain ⟨t, ht⟩ := exists_scales hq
  obtain ⟨hx, hlow, hhigh⟩ := scaled_approximates hm hq
  obtain ⟨hle, hlt⟩ := one_sub_le_keptPart_pow (multiplications (s.signed .exp10).natAbs)
  have hm0 : (0 : ℚ) < s.unsigned .mant := Nat.cast_pos.2 (Nat.pos_of_ne_zero (State.unsigned_ne_zero hm))
  have hexact : (0 : ℚ) < s.unsigned .mant * 10 ^ s.signed .exp10 := by positivity
  refine ⟨t, ht.exec, ht.completes, ht.mem, by rw [ht.flags], by rw [ht.flags], by rw [ht.wide]; exact hx.le_sig, ?_⟩
  dsimp only
  rw [ht.value]
  refine ⟨?_, (mul_le_mul_of_nonneg_left hle hexact.le).trans hlow,
    fun hj => (mul_lt_mul_of_pos_left (hlt hj) hexact).trans_le hlow⟩
  rwa [htrunc, entryExcess, one_pow, mul_one] at hhigh

/-- Settles O43, by the value of the result between its bounds. -/
theorem scaleExponentIsBounded : Obligations.ScaleExponentIsBounded := by
  intro s hm hq
  obtain ⟨t, ht⟩ := exists_scales hq
  have hexp := scale_exp_bounds s.params.rounding (s.reg .mant).isLt hq
  refine ⟨t, ht.exec, by rw [ht.completes.status], ?_, ?_⟩
  · rw [ht.wide]
    exact (scaled_approximates hm hq).normalized.le_sig
  · rw [ht.bexp]
    exact hexp

/-- The first clause of O44: with exact entries the rounding bits show each loss, and q = 0 does no multiplication. -/
theorem scale_exact_iff {s : State} (hm : s.reg .mant ≠ 0) (h0 : 0 ≤ s.signed .exp10) (h63 : s.signed .exp10 ≤ 63) :
    ∃ t, exec .scale s = .next t ∧ t.status.cause = .ok ∧ 2 ^ 127 ≤ t.wide .pHi .pLo ∧
      ((t.flags.rb = false ∧ t.flags.sb = false) ↔
        (t.wide .pHi .pLo : ℚ) * 2 ^ t.signed .bexp = (s.unsigned .mant : ℚ) * 10 ^ s.signed .exp10) ∧
      (s.signed .exp10 = 0 → t.flags.rb = false ∧ t.flags.sb = false) := by
  obtain ⟨t, ht⟩ := exists_scales (s := s) (by rw [scaleRange]; omega)
  obtain ⟨hx, -, hiff⟩ :=
    scale_tracksExactness s.params.rounding (State.unsigned_ne_zero hm) (s.reg .mant).isLt h0 h63
  refine ⟨t, ht.exec, by rw [ht.completes.status], by rw [ht.wide]; exact hx.le_sig, ?_, fun hq => ?_⟩
  · rw [ht.value, ht.flags]
    exact hiff
  · rw [ht.flags, State.scaled, hq, scale_exponent_zero _ (State.unsigned_ne_zero hm)]
    exact ⟨rfl, rfl⟩

/-- What SCALE computes with one more bit set above |q|, from what it computes without. -/
theorem scaled_of_highestBit {s' s : State} {k n : Nat} {tbl : Pow5Table} (hk : k < pow5Entries) (hn : n < 2 ^ k)
    (hm : s.reg .mant ≠ 0) (hmant : s'.reg .mant = s.reg .mant) (hparams : s'.params = s.params)
    (hq' : s'.signed .exp10 = signedExponent tbl n) (hq : s.signed .exp10 = signedExponent tbl (n + 2 ^ k)) :
    s.scaled = (scaleBy (pow5 s.params.rounding tbl k) s'.scaled).shiftExp (s.signed .exp10 - s'.signed .exp10) := by
  have hunsigned : s'.unsigned .mant = s.unsigned .mant := congrArg BitVec.toNat hmant
  rw [State.scaled, State.scaled, hparams, hunsigned, hq, hq',
    scale_add_two_pow _ _ (State.unsigned_ne_zero hm) hk hn, signedExponent_add, add_sub_cancel_left]

/-- Settles O44: the exact powers by the rounding bits, and the highest set bit as one multiplication. -/
theorem scaleByOneIsExact : Obligations.ScaleByOneIsExact := by
  refine ⟨fun s => scale_exact_iff, fun s' s k n tbl hk hn hm hmant hparams hq => ?_⟩
  obtain ⟨hq', hq⟩ : s'.signed .exp10 = signedExponent tbl n ∧ s.signed .exp10 = signedExponent tbl (n + 2 ^ k) := by
    cases tbl <;> exact_mod_cast hq
  have hk9 : k < pow5Entries := Nat.lt_succ_of_le hk
  have hrange : n + 2 ^ k ≤ scaleRange := Nat.le_of_lt_succ (add_two_pow_lt hn hk9)
  have hle : (s.signed .exp10).natAbs ≤ scaleRange := by rwa [hq, natAbs_signedExponent]
  have hle' : (s'.signed .exp10).natAbs ≤ scaleRange := by
    rw [hq', natAbs_signedExponent]
    exact (Nat.le_add_right _ _).trans hrange
  obtain ⟨t', ht'⟩ := exists_scales hle'
  obtain ⟨t, ht⟩ := exists_scales hle
  have hscaled := scaled_of_highestBit hk9 hn hm hmant hparams hq' hq
  have hnormalized := (scaled_approximates (hmant ▸ hm) hle').normalized
  obtain ⟨hrb, hsb⟩ := scaleBy_rounding hnormalized (pow5_sig_bounds s.params.rounding tbl hk9)
  obtain ⟨hsig, hexp⟩ := scaleBy_sig_exp hnormalized (pow5_sig_bounds s.params.rounding tbl hk9)
  refine ⟨t', t, ht'.exec, ht.exec, ?_⟩
  simp only [ht'.wide, ht.wide, ht'.bexp, ht.bexp, ht'.flags, ht.flags, hscaled, Scaled.shiftExp, hrb, hsb, hsig, hexp,
    decide_eq_true_eq, and_self]

/-- Settles O45: the results are zeros, which fix P and BEXP, and ASSEMBLE of them gives a signed zero. -/
theorem scaleOfZeroIsZero : Obligations.ScaleOfZeroIsZero := by
  intro s hm hq
  obtain ⟨t, ht⟩ := exists_scales hq
  have hscaled : s.scaled = ⟨0, 0, false, false⟩ := by
    rw [State.scaled, State.unsigned, hm]
    exact scale_zero _ _
  obtain ⟨hexec, hc, hmem, hwide, hbexp, hflags⟩ := ht
  rw [hscaled] at hwide hbexp hflags
  obtain ⟨hpHi, hpLo⟩ := State.wide_eq_zero hwide
  refine ⟨t, hexec, hc, hmem, hpHi, hpLo, BitVec.eq_of_toInt_eq hbexp, hflags, fun f => ?_⟩
  have h := bits_of_exec_assemble_zero f hwide
  rwa [hflags] at h

/-- Settles O46: the range is the command's own test, and PARSE raises only the errors of its scan. -/
theorem scaleAcceptsExponentsUpTo511 : Obligations.ScaleAcceptsExponentsUpTo511 := by
  refine ⟨fun s => ?_, fun f m s t h => ?_⟩
  · rcases Nat.lt_or_ge scaleRange (s.signed .exp10).natAbs with hq | hq
    · have h := exec_scale_of_lt hq
      have hc := completes_of_exec (rs := []) h fun _ _ => s.reg_complete _ _
      exact ⟨_, h, fun hle => absurd hle (Nat.not_le.2 hq),
        fun _ => ⟨hc, s.flags_complete _, fun _ => by rw [s.mem_complete]⟩⟩
    · obtain ⟨t, ht⟩ := exists_scales hq
      exact ⟨t, ht.exec, fun _ => ht.completes, fun hlt => absurd hq (Nat.not_le.2 hlt)⟩
  · rcases cause_of_exec_parse h with hc | ⟨e, he, hc⟩ <;> rw [hc]
    · decide
    · rcases State.scan_error he with rfl | ⟨a, rfl⟩ <;> exact nofun

end Sys2Proof.Machine
end

section
/-! The values of patterns (00_scope.md R2), and when a pattern is the one nearest to a value, ties to even. -/

namespace Sys2Proof.Machine

/-! ### Values of patterns -/

section

variable (f : FloatFormat)

theorem precision_eq : f.precision = f.fracBits + 1 := by cases f <;> rfl

theorem even_two_pow_fracBits : 2 ^ f.fracBits % 2 = 0 := by cases f <;> decide

theorem infinityMagnitude_lt : infinityMagnitude f < 2 ^ (f.width - 1) := by cases f <;> decide

/-- The value of bit 0 in the binade `e` above the subnormals' own. -/
def ulp (e : Nat) : ℚ := 2 ^ ((e : ℤ) + 1 - f.bias - f.fracBits)

theorem ulp_pos (e : Nat) : 0 < ulp f e := by
  unfold ulp
  positivity

theorem ulp_succ (e : Nat) : ulp f (e + 1) = 2 * ulp f e := by
  rw [ulp, ulp, ← zpow_one_add₀ two_ne_zero]
  congr 1
  push_cast
  ring

theorem magnitude_subnormal {r : Nat} (hr : r < 2 ^ f.fracBits) : magnitude f r = r * ulp f 0 := by
  rw [magnitude, if_pos (Nat.div_eq_of_lt hr), Nat.mod_eq_of_lt hr, ulp, Nat.cast_zero, zero_add]

theorem magnitude_normal (e : Nat) {r : Nat} (hr : r < 2 ^ f.fracBits) :
    magnitude f ((e + 1) * 2 ^ f.fracBits + r) = (2 ^ f.fracBits + r : Nat) * ulp f e := by
  have hdiv : ((e + 1) * 2 ^ f.fracBits + r) / 2 ^ f.fracBits = e + 1 := by
    rw [Nat.add_comm, Nat.add_mul_div_right _ _ (Nat.two_pow_pos _), Nat.div_eq_of_lt hr, Nat.zero_add]
  have hmod : ((e + 1) * 2 ^ f.fracBits + r) % 2 ^ f.fracBits = r := by
    rw [Nat.mul_add_mod_of_lt hr]
  rw [magnitude, hdiv, hmod, if_neg (Nat.succ_ne_zero e), ulp, Nat.cast_succ]

theorem magnitude_first (e : Nat) : magnitude f ((e + 1) * 2 ^ f.fracBits) = 2 ^ f.fracBits * ulp f e := by
  have h := magnitude_normal f e (Nat.two_pow_pos f.fracBits)
  simpa using h

end

/-- A pattern cut into a binade and a significand: subnormals and the first normal binade share the binade 0. -/
structure Canonical (f : FloatFormat) (e m : Nat) : Prop where
  leading : 2 ^ f.fracBits ≤ m ∨ e = 0
  sig_lt : m < 2 ^ f.precision

section

variable {f : FloatFormat}

theorem exists_canonical (f : FloatFormat) (b : Nat) : ∃ e m, Canonical f e m ∧ b = e * 2 ^ f.fracBits + m := by
  have hpow : 2 ^ f.precision = 2 ^ f.fracBits + 2 ^ f.fracBits := by rw [precision_eq, Nat.two_pow_succ]
  have hb := Nat.div_add_mod' b (2 ^ f.fracBits)
  have hr := Nat.mod_lt b (Nat.two_pow_pos f.fracBits)
  rcases hq : b / 2 ^ f.fracBits with _ | e
  · rw [hq, Nat.zero_mul] at hb
    exact ⟨0, b, ⟨.inr rfl, by omega⟩, by rw [Nat.zero_mul, Nat.zero_add]⟩
  · rw [hq, Nat.succ_mul] at hb
    exact ⟨e, 2 ^ f.fracBits + b % 2 ^ f.fracBits, ⟨.inl (Nat.le_add_right _ _), by omega⟩, by omega⟩

namespace Canonical

variable {e m : Nat} (h : Canonical f e m)

include h

theorem value : magnitude f (e * 2 ^ f.fracBits + m) = m * ulp f e := by
  rcases Nat.lt_or_ge m (2 ^ f.fracBits) with hm | hm
  · obtain rfl := h.leading.resolve_left (Nat.not_le.2 hm)
    rw [Nat.zero_mul, Nat.zero_add, magnitude_subnormal f hm]
  · obtain ⟨r, rfl⟩ := Nat.exists_eq_add_of_le hm
    have hr := h.sig_lt
    rw [precision_eq, Nat.two_pow_succ] at hr
    rw [← Nat.add_assoc, ← Nat.succ_mul, magnitude_normal f e (Nat.lt_of_add_lt_add_left hr)]

/-- The next pattern is one more in the last place, also where it begins a binade. -/
theorem value_succ : magnitude f (e * 2 ^ f.fracBits + m + 1) = (m + 1) * ulp f e := by
  have hm := h.sig_lt
  rw [Nat.add_assoc]
  rcases Nat.lt_or_ge (m + 1) (2 ^ f.precision) with hlt | hge
  · have hnext : Canonical f e (m + 1) := ⟨h.leading.imp_left Nat.le_succ_of_le, hlt⟩
    rw [hnext.value, Nat.cast_succ]
  · have hcarry : m + 1 = 2 ^ f.fracBits + 2 ^ f.fracBits := by
      rw [← Nat.two_pow_succ, ← precision_eq]
      omega
    have hcast : (m : ℚ) + 1 = 2 ^ f.fracBits + 2 ^ f.fracBits := by exact_mod_cast hcarry
    rw [hcarry, hcast, ← Nat.add_assoc, ← Nat.succ_mul, ← Nat.succ_mul, magnitude_first, ulp_succ]
    ring

end Canonical

theorem magnitude_zero (f : FloatFormat) : magnitude f 0 = 0 := by
  rw [magnitude_subnormal f (Nat.two_pow_pos _), Nat.cast_zero, zero_mul]

theorem magnitude_infinity (f : FloatFormat) : magnitude f (infinityMagnitude f) = 2 ^ ((f.emax : ℤ) - f.bias) := by
  obtain ⟨e, he⟩ : ∃ e, f.emax = e + 1 := by cases f <;> exact ⟨_, rfl⟩
  rw [infinityMagnitude, he, magnitude_first, ulp, ← zpow_natCast, ← zpow_add₀ two_ne_zero]
  congr 1
  push_cast
  ring

theorem magnitude_strictMono (f : FloatFormat) : StrictMono (magnitude f) := by
  refine strictMono_nat_of_lt_succ fun b => ?_
  obtain ⟨e, m, h, rfl⟩ := exists_canonical f b
  rw [h.value, h.value_succ]
  exact mul_lt_mul_of_pos_right (lt_add_one _) (ulp_pos f e)

/-! ### The nearest pattern -/

/-- The nearest pattern is the one whose neighbours are not nearer: `v` lies between the points half way to them, and
on such a point only where the pattern is even. -/
theorem nearestEven_of_neighbours {v : ℚ} {b : Nat} (hb : b ≤ infinityMagnitude f)
    (below : ∀ a, a + 1 = b → magnitude f a + magnitude f b ≤ 2 * v ∧
      (magnitude f a + magnitude f b = 2 * v → b % 2 = 0))
    (above : b < infinityMagnitude f → 2 * v ≤ magnitude f b + magnitude f (b + 1) ∧
      (2 * v = magnitude f b + magnitude f (b + 1) → b % 2 = 0)) :
    NearestEven f v b := by
  have hmono := magnitude_strictMono f
  refine ⟨hb, fun c hc => ?_⟩
  rcases lt_trichotomy c b with hcb | rfl | hbc
  · obtain ⟨a, rfl⟩ := Nat.exists_eq_add_of_lt (Nat.zero_lt_of_lt hcb)
    rw [Nat.zero_add] at *
    obtain ⟨hle, heven⟩ := below a rfl
    have hca : magnitude f c ≤ magnitude f a := hmono.monotone (Nat.le_of_lt_succ hcb)
    have hstep : magnitude f a < magnitude f (a + 1) := hmono (Nat.lt_succ_self a)
    have hdist : |v - magnitude f c| = v - magnitude f c := abs_of_nonneg (by linarith)
    rw [hdist]
    refine ⟨abs_le.2 ⟨by linarith, by linarith⟩, fun heq _ => heven ?_⟩
    rcases abs_cases (v - magnitude f (a + 1)) with ⟨h, -⟩ | ⟨h, -⟩ <;> linarith
  · exact ⟨le_rfl, fun _ hne => absurd rfl hne⟩
  · obtain ⟨hle, heven⟩ := above (hbc.trans_le hc)
    have hbc' : magnitude f (b + 1) ≤ magnitude f c := hmono.monotone hbc
    have hstep : magnitude f b < magnitude f (b + 1) := hmono (Nat.lt_succ_self b)
    have hdist : |v - magnitude f c| = magnitude f c - v := by
      rw [abs_sub_comm]
      exact abs_of_nonneg (by linarith)
    rw [hdist]
    refine ⟨abs_le.2 ⟨by linarith, by linarith⟩, fun heq _ => heven ?_⟩
    rcases abs_cases (v - magnitude f b) with ⟨h, -⟩ | ⟨h, -⟩ <;> linarith

/-- A value between two neighbours goes up from their middle on, at the middle itself only where the lower is odd. -/
theorem nearestEven_of_between {v : ℚ} {lo : Nat} {up : Bool} (hlt : lo < infinityMagnitude f)
    (hlo : magnitude f lo ≤ v) (hhi : v < magnitude f (lo + 1))
    (hup : up = true → magnitude f lo + magnitude f (lo + 1) ≤ 2 * v ∧
      (magnitude f lo + magnitude f (lo + 1) = 2 * v → lo % 2 = 1))
    (hdown : up = false → 2 * v ≤ magnitude f lo + magnitude f (lo + 1) ∧
      (2 * v = magnitude f lo + magnitude f (lo + 1) → lo % 2 = 0)) :
    NearestEven f v (lo + up.toNat) := by
  have hmono := magnitude_strictMono f
  cases up with
  | false =>
    refine nearestEven_of_neighbours hlt.le (fun a ha => ?_) fun _ => hdown rfl
    have hstep : magnitude f a < magnitude f (lo + false.toNat) := hmono (ha ▸ Nat.lt_succ_self a)
    rw [Bool.toNat_false, Nat.add_zero] at *
    exact ⟨by linarith, fun heq => by linarith⟩
  | true =>
    obtain ⟨hle, hodd⟩ := hup rfl
    have hstep : magnitude f (lo + 1) < magnitude f (lo + 1 + 1) := hmono (Nat.lt_succ_self _)
    refine nearestEven_of_neighbours hlt (fun a ha => ?_) fun _ => ?_
    · obtain rfl : a = lo := Nat.succ_injective ha
      exact ⟨hle, fun heq => by rw [Nat.add_mod, hodd heq, Bool.toNat_true]⟩
    · rw [Bool.toNat_true]
      exact ⟨by linarith, fun heq => by linarith⟩

end

end Sys2Proof.Machine
end

section
/-! The rounder of ASSEMBLE (44_assembler.md R83): the pattern it gives is the sign and a number below it, and
that number is the one nearest to the value it rounds. -/

namespace Sys2Proof.Machine

/-! ### Rounding up (44_assembler.md R89) -/

/-- Whether a significand cut at bit `sh` is rounded up; `below`: whether anything stands below its bit 0. -/
def roundsUp (sig sh : Nat) (below : Bool) : Bool :=
  sig.testBit (sh - 1) && (sig % 2 ^ (sh - 1) != 0 || below || (sig >>> sh).testBit 0)

section

variable {sig sh : Nat} {below : Bool}

theorem roundsUp_succ_iff : roundsUp sig (sh + 1) below = true ↔ sig / 2 ^ sh % 2 = 1 ∧
    (sig % 2 ^ sh ≠ 0 ∨ below = true ∨ sig / 2 ^ (sh + 1) % 2 = 1) := by
  simp [roundsUp, Nat.testBit_eq_decide_div_mod_eq, Nat.shiftRight_eq_div_pow, or_assoc]

/-- A significand as the kept bits, the round bit and the bits below it. -/
theorem sig_eq_kept_round_rest (sig sh : Nat) :
    sig = (2 * (sig / 2 ^ (sh + 1)) + sig / 2 ^ sh % 2) * 2 ^ sh + sig % 2 ^ sh := by
  rw [pow_succ, ← Nat.div_div_eq_div_mul, Nat.div_add_mod, Nat.div_add_mod']

variable {d : ℚ}

/-- The exact significand lies between the kept value and the next. -/
theorem kept_le_and_lt {n : Nat} (h0 : 0 ≤ d) (h1 : d < 1) :
    (sig / 2 ^ n : Nat) * 2 ^ n ≤ (sig + d : ℚ) ∧ (sig + d : ℚ) < ((sig / 2 ^ n : Nat) + 1) * 2 ^ n := by
  have hlow : ((sig / 2 ^ n : Nat) : ℚ) * 2 ^ n ≤ sig := by exact_mod_cast Nat.div_mul_le_self sig (2 ^ n)
  have hhigh : (sig + 1 : ℚ) ≤ ((sig / 2 ^ n : Nat) + 1) * 2 ^ n := by
    exact_mod_cast Nat.lt_mul_of_div_lt (Nat.lt_succ_self _) (Nat.two_pow_pos n)
  exact ⟨by linarith, by linarith⟩

/-- Rounded up: the exact significand is at least half way to the next kept value, half way only above an odd one. -/
theorem half_le_of_roundsUp (h0 : 0 ≤ d) (hd : below = false ↔ d = 0)
    (h : roundsUp sig (sh + 1) below = true) :
    (2 * (sig / 2 ^ (sh + 1) : Nat) + 1 : ℚ) * 2 ^ sh ≤ sig + d ∧
      ((2 * (sig / 2 ^ (sh + 1) : Nat) + 1 : ℚ) * 2 ^ sh = sig + d → sig / 2 ^ (sh + 1) % 2 = 1) := by
  obtain ⟨hround, hsticky⟩ := roundsUp_succ_iff.1 h
  have hsig : (sig : ℚ) = (2 * (sig / 2 ^ (sh + 1) : Nat) + 1) * 2 ^ sh + (sig % 2 ^ sh : Nat) := by
    exact_mod_cast hround ▸ sig_eq_kept_round_rest sig sh
  have hrest : (0 : ℚ) ≤ (sig % 2 ^ sh : Nat) := Nat.cast_nonneg _
  refine ⟨by linarith, fun htie => ?_⟩
  have hzero : ((sig % 2 ^ sh : Nat) : ℚ) = 0 := by linarith
  have hexact : below = false := hd.2 (by linarith)
  simpa [hexact, Nat.cast_eq_zero.1 hzero] using hsticky

/-- Not rounded up: the exact significand is at most half way to the next kept value, half way only above an
even one. -/
theorem le_half_of_not_roundsUp (h1 : d < 1) (hd : below = false ↔ d = 0)
    (h : roundsUp sig (sh + 1) below = false) :
    (sig + d : ℚ) ≤ (2 * (sig / 2 ^ (sh + 1) : Nat) + 1) * 2 ^ sh ∧
      ((sig + d : ℚ) = (2 * (sig / 2 ^ (sh + 1) : Nat) + 1) * 2 ^ sh → sig / 2 ^ (sh + 1) % 2 = 0) := by
  have hsig := sig_eq_kept_round_rest sig sh
  rcases Nat.mod_two_eq_zero_or_one (sig / 2 ^ sh) with hround | hround <;> rw [hround] at hsig
  · have hlt : sig + 1 ≤ (2 * (sig / 2 ^ (sh + 1)) + 1) * 2 ^ sh := by
      have hrest := Nat.mod_lt sig (Nat.two_pow_pos sh)
      rw [Nat.add_zero] at hsig
      rw [Nat.succ_mul]
      omega
    have hlt' : (sig + 1 : ℚ) ≤ (2 * (sig / 2 ^ (sh + 1) : Nat) + 1) * 2 ^ sh := by exact_mod_cast hlt
    exact ⟨by linarith, fun htie => by linarith⟩
  · rw [← Bool.not_eq_true, roundsUp_succ_iff] at h
    simp only [hround, true_and, not_or, not_not, Bool.not_eq_true, Nat.mod_two_ne_one] at h
    obtain ⟨hrest, hexact, heven⟩ := h
    rw [hrest, Nat.add_zero] at hsig
    have hsig' : (sig : ℚ) = (2 * (sig / 2 ^ (sh + 1) : Nat) + 1) * 2 ^ sh := by exact_mod_cast hsig
    rw [hd.1 hexact, add_zero]
    exact ⟨hsig'.le, fun _ => heven⟩

end

/-! ### The number below the sign -/

/-- The cut `sh` of step (5) (44_assembler.md R87): a subnormal's significand is cut higher. -/
def roundingShift (f : FloatFormat) (e : Int) : Nat := 128 - f.precision + (1 - e).toNat

/-- What the rounder gives below the sign, of a normalized significand with biased exponent `e`. A carry out of the kept
bits goes on into the exponent field, so it needs no case of its own. -/
def roundedMagnitude (f : FloatFormat) (sig : Nat) (e : Int) (below : Bool) : Nat :=
  if f.emax ≤ e then infinityMagnitude f
  else if e < 1 - f.precision then 0
  else (e.toNat - 1) * 2 ^ f.fracBits + sig / 2 ^ roundingShift f e + (roundsUp sig (roundingShift f e) below).toNat

/-- What ASSEMBLE gives below the sign, of any significand (44_assembler.md R84, R85). -/
def assembledMagnitude (f : FloatFormat) (sig : Nat) (be : Int) (below : Bool) : Nat :=
  if sig = 0 then 0 else roundedMagnitude f (sig <<< clz 128 sig) (be + sig.log2 + f.bias) below

theorem roundingShift_eq (f : FloatFormat) (e : Int) : roundingShift f e = 126 - f.fracBits + (1 - e).toNat + 1 := by
  cases f <;> simp only [roundingShift, FloatFormat.precision, FloatFormat.fracBits] <;> omega

/-- The kept bits of a normalized significand fill the precision where the value is normal. -/
theorem kept_bounds (f : FloatFormat) {sig : Nat} (e : Int) (hsig : 2 ^ 127 ≤ sig) (hsig' : sig < 2 ^ 128) :
    (1 ≤ e → 2 ^ f.fracBits ≤ sig / 2 ^ roundingShift f e) ∧ sig / 2 ^ roundingShift f e < 2 ^ f.precision := by
  constructor
  · intro he
    have hnormal : roundingShift f e = 127 - f.fracBits := by
      rw [roundingShift, precision_eq]
      omega
    rw [hnormal, Nat.le_div_iff_mul_le (Nat.two_pow_pos _), ← pow_add]
    cases f <;> exact hsig
  · have hshift : 128 - f.precision ≤ roundingShift f e := Nat.le_add_right _ _
    calc sig / 2 ^ roundingShift f e ≤ sig / 2 ^ (128 - f.precision) :=
          Nat.div_le_div_left (Nat.pow_le_pow_right Nat.two_pos hshift) (Nat.two_pow_pos _)
      _ < 2 ^ f.precision := by
          rw [Nat.div_lt_iff_lt_mul (Nat.two_pow_pos _), ← pow_add]
          cases f <;> exact hsig'

theorem signBits_eq (f : FloatFormat) (neg : Bool) : signBits f neg = neg.toNat * 2 ^ (f.width - 1) :=
  Nat.shiftLeft_eq _ _

theorem signBits_or (f : FloatFormat) (neg : Bool) {b : Nat} (hb : b < 2 ^ (f.width - 1)) :
    signBits f neg ||| b = signBits f neg + b :=
  (Nat.shiftLeft_add_eq_or_of_lt hb _).symm

theorem infinity_eq (f : FloatFormat) (neg : Bool) : infinity f neg = signBits f neg + infinityMagnitude f := by
  rw [infinity, Nat.shiftLeft_eq]
  exact signBits_or f neg (infinityMagnitude_lt f)

section

variable {f : FloatFormat} {e : Int} {m : Nat}

theorem canonical_of_biased (hlead : 1 ≤ e → 2 ^ f.fracBits ≤ m) (hm : m < 2 ^ f.precision) :
    Canonical f (e.toNat - 1) m :=
  ⟨(Int.lt_or_le 0 e).imp hlead fun he => by omega, hm⟩

/-- A finite pattern's number is below infinity, so that a carry at most reaches it. -/
theorem Canonical.lt_infinityMagnitude (h : Canonical f (e.toNat - 1) m) (he : e < f.emax) :
    (e.toNat - 1) * 2 ^ f.fracBits + m < infinityMagnitude f := by
  have hm := h.sig_lt
  have hemax : 2 ≤ f.emax := by cases f <;> decide
  have hexp : e.toNat - 1 + 2 ≤ f.emax := by omega
  rw [precision_eq, Nat.two_pow_succ] at hm
  have hmul := Nat.mul_le_mul_right (2 ^ f.fracBits) hexp
  rw [Nat.add_mul] at hmul
  rw [infinityMagnitude]
  omega

/-- The fields of a pattern, joined, are its sum. -/
theorem signBits_or_fields (neg : Bool) {n r : Nat} (hr : r < 2 ^ f.fracBits) (hn : n < f.emax) :
    signBits f neg ||| n <<< f.fracBits ||| r = signBits f neg + (n * 2 ^ f.fracBits + r) := by
  have hfields : n * 2 ^ f.fracBits + r < infinityMagnitude f :=
    calc n * 2 ^ f.fracBits + r < (n + 1) * 2 ^ f.fracBits := by rw [Nat.succ_mul]; omega
      _ ≤ infinityMagnitude f := Nat.mul_le_mul_right _ hn
  rw [Nat.or_assoc, ← Nat.shiftLeft_add_eq_or_of_lt hr, Nat.shiftLeft_eq]
  exact signBits_or f neg (hfields.trans (infinityMagnitude_lt f))

/-- A normal pattern (44_assembler.md R90): the carry out of the kept bits ends in the exponent field, or in infinity. -/
theorem packRounded_normal (neg : Bool) {up : Bool} {r : Nat} (h1 : 1 ≤ e) (he : e < f.emax)
    (hr : r < 2 ^ f.fracBits) : packRounded f neg e (2 ^ f.fracBits + r) up =
      signBits f neg + (e.toNat * 2 ^ f.fracBits + (r + up.toNat)) := by
  have hup := up.toNat_le
  have hpow : 2 ^ f.precision = 2 ^ f.fracBits + 2 ^ f.fracBits := by rw [precision_eq, Nat.two_pow_succ]
  rw [packRounded, if_pos h1]
  dsimp only
  by_cases hcarry : 2 ^ f.fracBits + r + up.toNat = 2 ^ f.precision
  · have hexp : (e + 1).toNat = e.toNat + 1 := by omega
    have hnext : e.toNat * 2 ^ f.fracBits + (r + up.toNat) = (e.toNat + 1) * 2 ^ f.fracBits := by
      rw [Nat.succ_mul]
      omega
    simp only [if_pos hcarry, hnext]
    split
    · have hemax : f.emax = e.toNat + 1 := by omega
      rw [infinity_eq, infinityMagnitude, hemax]
    · rw [Nat.sub_self, hexp, signBits_or_fields neg (Nat.two_pow_pos _) (by omega), Nat.add_zero]
  · simp only [if_neg hcarry]
    rw [if_neg (Int.not_le.2 he), signBits_or_fields neg (by omega) (by omega), Nat.add_assoc,
      Nat.add_sub_cancel_left]

/-- Steps (6) to (8) add the sign to the rounded number, whether it carries or not (44_assembler.md R89 to R91). -/
theorem packRounded_eq (neg : Bool) {up : Bool} (hlead : 1 ≤ e → 2 ^ f.fracBits ≤ m) (hm : m < 2 ^ f.precision)
    (he : e < f.emax) :
    packRounded f neg e m up = signBits f neg + ((e.toNat - 1) * 2 ^ f.fracBits + m + up.toNat) := by
  have hup := up.toNat_le
  have hlt := (canonical_of_biased hlead hm).lt_infinityMagnitude he
  rcases Int.lt_or_le e 1 with h1 | h1
  · have h0 : e.toNat - 1 = 0 := by omega
    rw [h0, Nat.zero_mul, Nat.zero_add] at hlt ⊢
    have hle : m + up.toNat ≤ infinityMagnitude f := by omega
    rw [packRounded, if_neg (Int.not_le.2 h1)]
    exact signBits_or f neg (hle.trans_lt (infinityMagnitude_lt f))
  · obtain ⟨n, hn⟩ : ∃ n, e.toNat = n + 1 := ⟨e.toNat - 1, by omega⟩
    obtain ⟨r, rfl⟩ := Nat.exists_eq_add_of_le (hlead h1)
    rw [precision_eq, Nat.two_pow_succ] at hm
    rw [packRounded_normal neg h1 he (Nat.lt_of_add_lt_add_left hm), hn, Nat.add_sub_cancel, Nat.succ_mul]
    simp only [Nat.add_assoc]

/-- The rounder gives the sign and, below it, the rounded number. -/
theorem roundNormalized_eq (f : FloatFormat) (neg : Bool) {sig : Nat} (e : Int) (rb sb : Bool)
    (hsig : 2 ^ 127 ≤ sig) (hsig' : sig < 2 ^ 128) :
    roundNormalized f neg sig e rb sb = signBits f neg + roundedMagnitude f sig e (rb || sb) := by
  have hshift : roundingShift f e > 128 ↔ e < 1 - f.precision := by
    have hp : f.precision ≤ 128 := by cases f <;> decide
    rw [roundingShift]
    omega
  have hup : (sig.testBit (roundingShift f e - 1) && ((sig % 2 ^ (roundingShift f e - 1) != 0 || rb || sb) ||
      (sig >>> roundingShift f e).testBit 0)) = roundsUp sig (roundingShift f e) (rb || sb) := by
    rw [roundsUp, Bool.or_assoc _ rb sb]
  rw [roundNormalized, roundedMagnitude]
  dsimp only
  rw [← roundingShift, hup]
  split
  · exact infinity_eq f neg
  · next he =>
    split
    · next hlarge => rw [if_pos (hshift.1 hlarge), Nat.add_zero]
    · next hsmall =>
      obtain ⟨hlead, hkept⟩ := kept_bounds f e hsig hsig'
      rw [if_neg (hshift.not.1 hsmall), ← packRounded_eq neg hlead hkept (Int.not_le.1 he),
        Nat.shiftRight_eq_div_pow]

end

theorem clz_eq_sub_log2 {sig : Nat} (hsig : sig ≠ 0) (hsig' : sig < 2 ^ 128) :
    (clz 128 sig : Int) = 127 - sig.log2 := by
  have hlog := (Nat.log2_lt hsig).2 hsig'
  rw [clz, bitlen, if_neg hsig]
  omega

/-- What ASSEMBLE gives: the sign and, below it, the number for the significand (44_assembler.md R83). -/
theorem assemble_eq (f : FloatFormat) (neg : Bool) {sig : Nat} (be : Int) (rb sb : Bool) (hsig' : sig < 2 ^ 128) :
    assemble f neg sig be rb sb = signBits f neg + assembledMagnitude f sig be (rb || sb) := by
  rw [assemble, assembledMagnitude]
  split
  · rfl
  · next hsig =>
    obtain ⟨hlow, hhigh⟩ := normalize_bounds hsig hsig'
    have hexp : be - clz 128 sig + 127 + f.bias = be + sig.log2 + f.bias := by
      rw [clz_eq_sub_log2 hsig hsig']
      ring
    dsimp only
    rw [hexp, roundNormalized_eq f neg _ rb sb hlow hhigh]

theorem roundedMagnitude_le (f : FloatFormat) {sig : Nat} (e : Int) (below : Bool) (hsig : 2 ^ 127 ≤ sig)
    (hsig' : sig < 2 ^ 128) : roundedMagnitude f sig e below ≤ infinityMagnitude f := by
  rw [roundedMagnitude]
  split
  · exact le_rfl
  · next he =>
    split
    · exact Nat.zero_le _
    · obtain ⟨hlead, hkept⟩ := kept_bounds f e hsig hsig'
      have hlt := (canonical_of_biased hlead hkept).lt_infinityMagnitude (Int.not_le.1 he)
      exact (Nat.add_le_add_left (Bool.toNat_le _) _).trans hlt

theorem assembledMagnitude_le (f : FloatFormat) {sig : Nat} (be : Int) (below : Bool) (hsig' : sig < 2 ^ 128) :
    assembledMagnitude f sig be below ≤ infinityMagnitude f := by
  rw [assembledMagnitude]
  split
  · exact Nat.zero_le _
  · next hsig => exact roundedMagnitude_le f _ below (normalize_bounds hsig hsig').1 (normalize_bounds hsig hsig').2

/-! ### The number is the nearest one -/

section

variable {f : FloatFormat} {sig : Nat} {e : Int}

/-- Bit `sh` of the significand is the last place of the pattern. -/
theorem two_pow_roundingShift_mul (f : FloatFormat) (e : Int) :
    (2 : ℚ) ^ roundingShift f e * 2 ^ (e - 127 - f.bias) = ulp f (e.toNat - 1) := by
  have hf : f.fracBits ≤ 126 := by cases f <;> decide
  rw [ulp, ← zpow_natCast, ← zpow_add₀ two_ne_zero, roundingShift_eq]
  congr 1
  omega

/-- Up to half of the smallest subnormal zero is the nearest (44_assembler.md R88). -/
theorem nearestEven_zero {v : ℚ} (hlt : 2 * v ≤ ulp f 0) : NearestEven f v 0 := by
  refine nearestEven_of_neighbours (Nat.zero_le _) (fun a ha => absurd ha (Nat.succ_ne_zero a)) fun _ => ?_
  rw [magnitude_zero, zero_add, zero_add, magnitude_subnormal f (Nat.one_lt_two_pow (by cases f <;> decide))]
  exact ⟨by rwa [Nat.cast_one, one_mul], fun _ => rfl⟩

/-- From 2^(Emax − bias) on infinity is the nearest (44_assembler.md R86). -/
theorem nearestEven_infinity {v : ℚ} (hv : 2 ^ ((f.emax : ℤ) - f.bias) ≤ v) :
    NearestEven f v (infinityMagnitude f) := by
  rw [← magnitude_infinity] at hv
  refine nearestEven_of_neighbours le_rfl (fun a ha => ?_) fun h => absurd h (lt_irrefl _)
  have hstep : magnitude f a < magnitude f (infinityMagnitude f) := magnitude_strictMono f (ha ▸ Nat.lt_succ_self a)
  exact ⟨by linarith, fun heq => by linarith⟩

variable {below : Bool} {d : ℚ} (hsig : 2 ^ 127 ≤ sig) (hsig' : sig < 2 ^ 128) (h0 : 0 ≤ d) (h1 : d < 1)
  (hd : below = false ↔ d = 0)

include hsig hsig' h0 h1 hd

/-- The rounder's number, where the leading bit does not settle it, is the kept bits or the next number. -/
theorem nearestEven_kept (he : e < f.emax) : NearestEven f ((sig + d) * 2 ^ (e - 127 - f.bias))
    ((e.toNat - 1) * 2 ^ f.fracBits + sig / 2 ^ roundingShift f e +
      (roundsUp sig (roundingShift f e) below).toNat) := by
  obtain ⟨hlead, hkept⟩ := kept_bounds f e hsig hsig'
  have hcanon := canonical_of_biased hlead hkept
  have hunit : (0 : ℚ) < 2 ^ (e - 127 - f.bias) := by positivity
  have hulp := two_pow_roundingShift_mul f e
  have heven := even_two_pow_fracBits f
  have hparity : ((e.toNat - 1) * 2 ^ f.fracBits + sig / 2 ^ roundingShift f e) % 2 =
      sig / 2 ^ roundingShift f e % 2 := by
    rw [Nat.add_mod, Nat.mul_mod, heven, Nat.mul_zero, Nat.zero_mod, Nat.zero_add, Nat.mod_mod]
  obtain ⟨n, hn⟩ : ∃ n, roundingShift f e = n + 1 := ⟨_, roundingShift_eq f e⟩
  rw [hn] at hcanon hulp hparity ⊢
  have hmiddle :
      (sig / 2 ^ (n + 1) : Nat) * ulp f (e.toNat - 1) + ((sig / 2 ^ (n + 1) : Nat) + 1) * ulp f (e.toNat - 1) =
        2 * ((2 * (sig / 2 ^ (n + 1) : Nat) + 1) * 2 ^ n * 2 ^ (e - 127 - f.bias)) := by
    rw [← hulp, pow_succ (2 : ℚ)]
    ring
  obtain ⟨hlow, hhigh⟩ := kept_le_and_lt (n := n + 1) (sig := sig) h0 h1
  refine nearestEven_of_between (hcanon.lt_infinityMagnitude he) ?_ ?_ (fun hup => ?_) fun hdown => ?_
  · rw [hcanon.value, ← hulp, ← mul_assoc]
    exact mul_le_mul_of_nonneg_right hlow hunit.le
  · rw [hcanon.value_succ, ← hulp, ← mul_assoc]
    exact mul_lt_mul_of_pos_right hhigh hunit
  · rw [hcanon.value, hcanon.value_succ, hparity, hmiddle, mul_le_mul_iff_right₀ two_pos, mul_le_mul_iff_left₀ hunit,
      mul_right_inj' two_ne_zero, mul_left_inj' hunit.ne']
    exact half_le_of_roundsUp h0 hd hup
  · rw [hcanon.value, hcanon.value_succ, hparity, hmiddle, mul_le_mul_iff_right₀ two_pos, mul_le_mul_iff_left₀ hunit,
      mul_right_inj' two_ne_zero, mul_left_inj' hunit.ne']
    exact le_half_of_not_roundsUp h1 hd hdown

/-- The rounder gives the pattern nearest to the value it rounds (44_assembler.md R93). -/
theorem nearestEven_roundedMagnitude :
    NearestEven f ((sig + d) * 2 ^ (e - 127 - f.bias)) (roundedMagnitude f sig e below) := by
  have hlow : (2 : ℚ) ^ (127 : ℤ) ≤ sig + d := by
    have : (2 : ℚ) ^ 127 ≤ sig := by exact_mod_cast hsig
    exact_mod_cast this.trans (le_add_of_nonneg_right h0)
  have hhigh : (sig + d : ℚ) ≤ 2 ^ (128 : ℤ) := by
    have : (sig + 1 : ℚ) ≤ 2 ^ 128 := by exact_mod_cast hsig'
    exact_mod_cast (add_le_add_right h1.le _).trans this
  have hunit : (0 : ℚ) < 2 ^ (e - 127 - f.bias) := by positivity
  rw [roundedMagnitude]
  split
  · next he =>
    refine nearestEven_infinity ?_
    calc (2 : ℚ) ^ ((f.emax : ℤ) - f.bias) ≤ 2 ^ (127 + (e - 127 - f.bias)) :=
          zpow_le_zpow_right₀ one_le_two (by omega)
      _ = 2 ^ (127 : ℤ) * 2 ^ (e - 127 - f.bias) := zpow_add₀ two_ne_zero _ _
      _ ≤ (sig + d) * 2 ^ (e - 127 - f.bias) := mul_le_mul_of_nonneg_right hlow hunit.le
  · next he =>
    split
    · next hsmall =>
      refine nearestEven_zero ?_
      rw [precision_eq] at hsmall
      calc 2 * ((sig + d) * 2 ^ (e - 127 - f.bias)) ≤ 2 * (2 ^ (128 : ℤ) * 2 ^ (e - 127 - f.bias)) := by gcongr
        _ = 2 ^ (1 + (128 + (e - 127 - f.bias))) := by
            rw [zpow_one_add₀ two_ne_zero, zpow_add₀ two_ne_zero]
        _ ≤ ulp f 0 := zpow_le_zpow_right₀ one_le_two (by push_cast at hsmall; omega)
    · exact nearestEven_kept hsig hsig' h0 h1 hd (Int.not_le.1 he)

end

/-- ASSEMBLE gives the pattern nearest to the value of a significand, with what stands below its bit 0 once it is
normalized (44_assembler.md R93, R84). -/
theorem nearestEven_assembledMagnitude (f : FloatFormat) {sig : Nat} {be : Int} {below : Bool} {d : ℚ}
    (hsig' : sig < 2 ^ 128) (hzero : sig ≠ 0 ∨ below = false) (h0 : 0 ≤ d) (h1 : d < 2 ^ (be - 127 + sig.log2))
    (hd : below = false ↔ d = 0) : NearestEven f (sig * 2 ^ be + d) (assembledMagnitude f sig be below) := by
  rw [assembledMagnitude]
  split
  · next hsig =>
    obtain rfl := hd.1 (hzero.resolve_left (not_not.2 hsig))
    rw [hsig, Nat.cast_zero, zero_mul, add_zero]
    exact nearestEven_zero (by simpa using (ulp_pos f 0).le)
  · next hsig =>
    obtain ⟨hlow, hhigh⟩ := normalize_bounds hsig hsig'
    have hclz := clz_eq_sub_log2 hsig hsig'
    have hplace : be + sig.log2 + f.bias - 127 - f.bias = be - clz 128 sig := by omega
    have hunit : (0 : ℚ) < 2 ^ (be - clz 128 sig : ℤ) := by positivity
    have hd' : d < 2 ^ (be - clz 128 sig : ℤ) := by
      rwa [hclz, ← sub_add]
    have hvalue : (sig * 2 ^ be + d : ℚ) =
        ((sig <<< clz 128 sig : Nat) + d / 2 ^ (be - clz 128 sig : ℤ)) * 2 ^ (be - clz 128 sig : ℤ) := by
      rw [add_mul, div_mul_cancel₀ _ hunit.ne', Nat.shiftLeft_eq, Nat.cast_mul, Nat.cast_pow, Nat.cast_ofNat,
        zpow_sub₀ two_ne_zero, zpow_natCast, mul_assoc, mul_div_cancel₀ _ (by positivity)]
    rw [hvalue, ← hplace]
    rw [← hplace] at hunit hd'
    exact nearestEven_roundedMagnitude hlow hhigh (div_nonneg h0 hunit.le) ((div_lt_one hunit).2 hd')
      (hd.trans (div_eq_zero_iff.trans (or_iff_left hunit.ne')).symm)

end Sys2Proof.Machine
end

section
/-! ASSEMBLE (44_assembler.md R83 to R93): what the command writes, and its statements. -/

namespace Sys2Proof.Machine

/-! ### The command -/

/-- What ASSEMBLE computes below the sign from P, BEXP, RB and SB of a state (44_assembler.md R83). -/
def State.assembled (s : State) (f : FloatFormat) : Nat :=
  assembledMagnitude f (s.wide .pHi .pLo) (s.signed .bexp) (s.flags.rb || s.flags.sb)

theorem State.assembled_le (s : State) (f : FloatFormat) : s.assembled f ≤ infinityMagnitude f :=
  assembledMagnitude_le f _ _ (s.wide_lt _ _)

/-- From `s` to `t` ASSEMBLE has completed with its sign and number in BITS, and left all else. -/
structure Assembles (f : FloatFormat) (s t : State) : Prop where
  exec : exec (.assemble f) s = .next t
  completes : Completes .ok [.bits] s t
  mem : SameMemory s t
  flags : t.flags = s.flags
  bits : (t.reg .bits).toNat = s.flags.n.toNat * 2 ^ (f.width - 1) + s.assembled f

section

variable {f : FloatFormat}

theorem two_pow_width (f : FloatFormat) : 2 ^ f.width = 2 * 2 ^ (f.width - 1) := by cases f <;> rfl

/-- A sign and a number up to infinity fit the width. -/
theorem sign_add_lt (neg : Bool) {b : Nat} (hb : b ≤ infinityMagnitude f) :
    neg.toNat * 2 ^ (f.width - 1) + b < 2 ^ f.width := by
  have hlt := hb.trans_lt (infinityMagnitude_lt f)
  have hsign := Nat.mul_le_mul_right (2 ^ (f.width - 1)) neg.toNat_le
  rw [two_pow_width]
  omega

theorem exists_assembles (f : FloatFormat) (s : State) : ∃ t, Assembles f s t := by
  have h := exec_assemble f s
  obtain ⟨hc, hmem⟩ := exec_frame h nofun
  have hwidth : 2 ^ f.width ≤ 2 ^ 64 := by cases f <;> decide
  refine ⟨_, h, hc, hmem, by simp, ?_⟩
  rw [State.reg_complete, State.reg_setPattern, if_pos rfl, assemble_eq f _ _ _ _ (s.wide_lt _ _), signBits_eq,
    BitVec.toNat_ofNat, ← State.assembled]
  exact Nat.mod_eq_of_lt ((sign_add_lt _ (s.assembled_le f)).trans_le hwidth)

namespace Assembles

variable {s t : State} (h : Assembles f s t)

include h

theorem bits_lt : (t.reg .bits).toNat < 2 ^ f.width := by
  rw [h.bits]
  exact sign_add_lt _ (s.assembled_le f)

theorem bits_div : (t.reg .bits).toNat / 2 ^ (f.width - 1) = s.flags.n.toNat := by
  have hlt := (s.assembled_le f).trans_lt (infinityMagnitude_lt f)
  rw [h.bits, Nat.add_comm, Nat.add_mul_div_right _ _ (Nat.two_pow_pos _), Nat.div_eq_of_lt hlt, Nat.zero_add]

theorem unsignedPattern_bits : unsignedPattern f (t.reg .bits).toNat = s.assembled f := by
  rw [unsignedPattern, h.bits, Nat.mul_add_mod_of_lt ((s.assembled_le f).trans_lt (infinityMagnitude_lt f))]

theorem getLsbD_bits : (t.reg .bits).getLsbD (f.width - 1) = s.flags.n := by
  rw [BitVec.getLsbD, Nat.testBit_eq_decide_div_mod_eq, h.bits_div]
  cases s.flags.n <;> rfl

end Assembles

/-! ### The cases of the number -/

theorem assembled_of_zero {s : State} (h : s.wide .pHi .pLo = 0) : s.assembled f = 0 := if_pos h

theorem assembled_of_overflow {s : State} (h : s.wide .pHi .pLo ≠ 0)
    (hexp : (f.emax : Int) ≤ s.signed .bexp + (s.wide .pHi .pLo).log2 + f.bias) :
    s.assembled f = infinityMagnitude f := by
  rw [State.assembled, assembledMagnitude, if_neg h, roundedMagnitude, if_pos hexp]

theorem assembled_of_underflow {s : State} (h : s.wide .pHi .pLo ≠ 0)
    (hexp : s.signed .bexp + (s.wide .pHi .pLo).log2 + f.bias < 1 - (f.precision : Int)) : s.assembled f = 0 := by
  have hp := precision_eq f
  rw [State.assembled, assembledMagnitude, if_neg h, roundedMagnitude, if_neg (by omega), if_pos hexp]

end

/-! ### The obligations -/

/-- Settles O47: the frame of the command, and a number up to infinity below the sign. -/
theorem assembleIsTotalAndGivesNoNan : Obligations.AssembleIsTotalAndGivesNoNan := by
  intro f s
  obtain ⟨t, ht⟩ := exists_assembles f s
  refine ⟨t, ht.exec, ht.completes, ht.flags, ht.mem, ht.bits_lt, ht.getLsbD_bits, ?_⟩
  rw [ht.unsignedPattern_bits]
  exact s.assembled_le f

/-- Settles O48: each range is a case of the rounder. -/
theorem assembleZeroOverflowUnderflow : Obligations.AssembleZeroOverflowUnderflow := by
  intro f s
  obtain ⟨t, ht⟩ := exists_assembles f s
  refine ⟨t, ht.exec, ht.bits_div, ?_⟩
  rw [ht.unsignedPattern_bits]
  exact ⟨assembled_of_zero, assembled_of_overflow, assembled_of_underflow⟩

/-- Settles O49: the number below the sign is the nearest one. -/
theorem assembleRoundsToNearestEven : Obligations.AssembleRoundsToNearestEven := by
  intro f s d hzero h0 h1 hd
  obtain ⟨t, ht⟩ := exists_assembles f s
  refine ⟨t, ht.exec, ?_⟩
  rw [ht.unsignedPattern_bits]
  rw [← Bool.or_eq_false_iff] at hzero hd
  exact nearestEven_assembledMagnitude f (s.wide_lt _ _) hzero h0 h1 hd

/-- 7/4 is a pattern's value. -/
theorem magnitude_seven_quarters : magnitude .binary64 0x3FFC000000000000 = 7 / 4 := by
  have h := magnitude_normal .binary64 1022 (r := 3 * 2 ^ 50) (by decide)
  have hulp : ulp .binary64 1022 = 1 / 2 ^ 52 := by norm_num [ulp, FloatFormat.bias, FloatFormat.fracBits]
  rw [hulp] at h
  norm_num [FloatFormat.fracBits] at h ⊢
  exact h

/-- Refutes O50: the significand 1 with SB set, be = 0 and δ = 3/4 stands for 7/4, a pattern's own value, and ASSEMBLE
gives the pattern of 1. -/
theorem not_assembleRoundsToNearestEvenUnnormalized : ¬ Obligations.AssembleRoundsToNearestEvenUnnormalized := by
  intro h
  let s := (State.reset.setReg .pLo 1).setRounding false true
  have hwide : s.wide .pHi .pLo = 1 := by decide
  have hbexp : s.signed .bexp = 0 := by decide
  have hassembled : s.assembled .binary64 = 0x3FF0000000000000 := by decide +kernel
  obtain ⟨t, hexec, hnearest⟩ := h .binary64 s (3 / 4) (by norm_num) (by rw [hbexp]; norm_num)
    (iff_of_false (by decide) (by norm_num))
  obtain ⟨u, hu⟩ := exists_assembles .binary64 s
  obtain rfl : u = t := by simpa [hu.exec] using hexec
  have hvalue : (1 : ℚ) + 3 / 4 = magnitude .binary64 0x3FFC000000000000 := by
    rw [magnitude_seven_quarters]
    norm_num
  rw [hu.unsignedPattern_bits, hassembled, hwide, hbexp, Nat.cast_one, zpow_zero, mul_one, hvalue] at hnearest
  have hle := (hnearest.2 0x3FFC000000000000 (by decide)).1
  rw [sub_self, abs_zero, abs_nonpos_iff, sub_eq_zero] at hle
  exact absurd ((magnitude_strictMono .binary64).injective hle) (by decide)

end Sys2Proof.Machine
end

section
/-! FORMAT (45_extract_format.md R103 to R106): the length of its text, and what the command does where the memory
completes an access to each byte of it. -/

namespace Sys2Proof.Machine

/-! ### The length of a text (45_extract_format.md R103) -/

/-- A fixed form with no point has digits, as X < COUNT; each other form has a byte of its own. -/
theorem length_renderDigits_pos (d : DecimalDigits) : 1 ≤ (renderDigits d).length := by
  unfold renderDigits
  dsimp only
  split
  · next hfixed =>
    unfold fixedText
    split
    · simp
      omega
    · simp
  · simp [exponentialText]
    omega

theorem length_formatText_pos (r : Pow5Rounding) (f : FloatFormat) (b : Nat) : 1 ≤ (formatText r f b).length := by
  unfold formatText
  dsimp only
  split
  · decide
  · decide
  · simp
  · rw [List.length_append]
    exact (length_renderDigits_pos _).trans (Nat.le_add_left _ _)

/-- Settles O58: the digits are at most 17, and each form adds at most 7 bytes to them. -/
theorem formatTextIsAtMost24Bytes : Obligations.FormatTextIsAtMost24Bytes :=
  fun r f b => ⟨length_formatText_pos r f b, length_formatText_le r f b⟩

/-! ### The command -/

theorem exec_format_of_portWrites {f : FloatFormat} {s : State}
    (h : (s.portWrites s.mem s.outputBase (s.outputText f)).2 = none) : exec (.format f) s =
      .next ((((s.setMem (memAfter (.format f) s)).setReg .len (BitVec.ofNat 64 (s.outputText f).length)).setReg .pos
        (s.textPos (s.outputText f).length)).complete .ok) := by
  obtain ⟨m, e⟩ : ∃ m, s.portWrites s.mem s.outputBase (s.outputText f) = (m, none) := ⟨_, Prod.ext rfl h⟩
  simp only [exec, execFormat, memAfter, e]

/-- From `s` to `t` FORMAT has completed with its text in memory, and left all else. -/
structure Formats (f : FloatFormat) (s t : State) : Prop where
  exec : exec (.format f) s = .next t
  completes : Completes .ok [.len, .pos] s t
  raced : t.raced = []
  flags : t.flags = s.flags
  len : t.reg .len = BitVec.ofNat 64 (s.outputText f).length
  pos : t.reg .pos = s.reg .addr + t.reg .len
  mem : Memory.wf t.mem = true
  written : ∀ j, (h : j < (s.outputText f).length) → raceAt s.raced (s.outputBase + j) = none →
    t.mem.read (s.outputBase + j) = (s.outputText f)[j]
  kept : ∀ a, (a < s.outputBase ∨ s.outputBase + (s.outputText f).length ≤ a) → t.mem.read a = s.mem.read a

/-- Where the memory completes each access, no write faults and all of the text is written. -/
theorem bytesWritten_of_access {f : FloatFormat} {s : State}
    (hacc : ∀ j < (s.outputText f).length, portAccess s.params (s.outputBase + j) = .ok ())
    (hwf : Memory.wf s.mem = true) : (s.portWrites s.mem s.outputBase (s.outputText f)).2 = none ∧
      s.bytesWritten f = (s.outputText f).length := by
  obtain ⟨-, -, -, hfault, -⟩ := s.portWrites_spec (s.outputText f) s.mem s.outputBase hwf
  have hnone : (s.portWrites s.mem s.outputBase (s.outputText f)).2 = none := by
    rw [Option.eq_none_iff_forall_ne_some]
    rintro ⟨j, e⟩ h
    obtain ⟨hj, herr⟩ := hfault j e h
    rw [hacc j hj] at herr
    cases herr
  exact ⟨hnone, by rw [State.bytesWritten, hnone, writesDone]⟩

theorem exists_formats {f : FloatFormat} {s : State} (hwf : Memory.wf s.mem = true)
    (hacc : ∀ j < (s.outputText f).length, portAccess s.params (s.outputBase + j) = .ok ()) :
    ∃ t, Formats f s t := by
  obtain ⟨hnone, hall⟩ := bytesWritten_of_access hacc hwf
  have hexec := exec_format_of_portWrites hnone
  have hread := read_of_format hwf hexec
  rw [hall] at hread
  refine ⟨_, hexec, completes_of_exec hexec fun r hr => ?_, by simp, by simp, by simp, ?_, ?_, fun j hj hrace => ?_,
    fun a ha => ?_⟩
  · simp_all
  · simp [State.textPos, State.unsigned, BitVec.ofNat_add]
  · exact memAfter_wf (.format f) hwf
  · rw [hread, if_pos (by omega), State.leftByte, hrace, Nat.add_sub_cancel_left, List.getD_eq_getElem _ _ hj]
  · rw [hread, if_neg (by omega)]

/-- Settles O56: no write faults, so that all of the text is written and nothing else. -/
theorem formatWritesItsText : Obligations.FormatWritesItsText := by
  intro f s hwf hacc
  obtain ⟨t, ht⟩ := exists_formats hwf hacc
  exact ⟨t, ht.exec, ht.completes, ht.flags, ht.len, ht.pos, ht.written, ht.kept⟩

end Sys2Proof.Machine
end

section
/-! EXTRACT (45_extract_format.md R94, R100): the fields of a pattern, the class they say, and what the command
writes. -/

namespace Sys2Proof.Machine

/-! ### Fields of a pattern (45_extract_format.md R94) -/

section

variable {f : FloatFormat} {b : Nat}

theorem two_pow_width_sub_one (f : FloatFormat) : 2 ^ (f.width - 1) = 2 ^ f.fracBits * (f.emax + 1) := by
  cases f <;> rfl

theorem emax_pos (f : FloatFormat) : 0 < f.emax := by cases f <;> decide

theorem unsignedPattern_mod_width (f : FloatFormat) (b : Nat) :
    unsignedPattern f (b % 2 ^ f.width) = unsignedPattern f b :=
  Nat.mod_mod_of_dvd _ (Nat.pow_dvd_pow 2 (Nat.sub_le _ _))

theorem patternSign_mod_width (f : FloatFormat) (b : Nat) : patternSign f (b % 2 ^ f.width) = patternSign f b := by
  have hw : f.width - 1 < f.width := by cases f <;> decide
  simp [patternSign, Nat.testBit_mod_two_pow, hw]

theorem patternExp_eq (f : FloatFormat) (b : Nat) : patternExp f b = unsignedPattern f b / 2 ^ f.fracBits := by
  rw [patternExp, unsignedPattern, two_pow_width_sub_one, Nat.mod_mul_right_div_self, Nat.shiftRight_eq_div_pow]

theorem patternFrac_eq (f : FloatFormat) (b : Nat) : patternFrac f b = unsignedPattern f b % 2 ^ f.fracBits := by
  rw [patternFrac, unsignedPattern, two_pow_width_sub_one, Nat.mod_mul_right_mod]

theorem unsignedPattern_lt (f : FloatFormat) (b : Nat) : unsignedPattern f b < (f.emax + 1) * 2 ^ f.fracBits := by
  rw [Nat.mul_comm, ← two_pow_width_sub_one]
  exact Nat.mod_lt _ (Nat.two_pow_pos _)

theorem decompose_of_zero (h : unsignedPattern f b = 0) : decompose f b = ⟨patternSign f b, .zero, 0, 0⟩ := by
  have hmax := (emax_pos f).ne
  simp [decompose, patternExp_eq, patternFrac_eq, h, hmax]

/-- From infinity on the exponent field is all ones, and the fraction tells infinity from NaN. -/
theorem decompose_of_infinity_le (h : infinityMagnitude f ≤ unsignedPattern f b) : decompose f b =
    ⟨patternSign f b, if unsignedPattern f b = infinityMagnitude f then .inf else .nan, 0, 0⟩ := by
  have hlt := unsignedPattern_lt f b
  obtain ⟨r, hr⟩ := Nat.exists_eq_add_of_le h
  rw [infinityMagnitude] at hr
  have hr' : r < 2 ^ f.fracBits := by
    rw [hr, Nat.succ_mul] at hlt
    omega
  have hexp : patternExp f b = f.emax := by
    rw [patternExp_eq, hr, Nat.add_comm, Nat.add_mul_div_right _ _ (Nat.two_pow_pos _), Nat.div_eq_of_lt hr',
      Nat.zero_add]
  have hfrac : patternFrac f b = r := by rw [patternFrac_eq, hr, Nat.mul_add_mod_of_lt hr']
  have hinf : unsignedPattern f b = infinityMagnitude f ↔ r = 0 := by
    rw [hr, infinityMagnitude]
    omega
  simp only [decompose, hexp, hfrac, if_true, hinf, ite_not]

/-- A finite nonzero pattern decomposes into its significand and the exponent of its last place. -/
theorem decompose_of_canonical {e m : Nat} (h : Canonical f e m) (hb : unsignedPattern f b = e * 2 ^ f.fracBits + m)
    (hm : m ≠ 0) (hfin : unsignedPattern f b < infinityMagnitude f) :
    decompose f b = ⟨patternSign f b, .finite, m, (e : Int) + 1 - f.bias - f.fracBits⟩ := by
  have hsig := h.sig_lt
  rw [precision_eq, Nat.two_pow_succ] at hsig
  have hexp : patternExp f b ≠ f.emax := by
    rw [patternExp_eq]
    exact ((Nat.div_lt_iff_lt_mul (Nat.two_pow_pos _)).2 hfin).ne
  rcases Nat.lt_or_ge m (2 ^ f.fracBits) with hlt | hge
  · obtain rfl := h.leading.resolve_left (Nat.not_le.2 hlt)
    rw [Nat.zero_mul, Nat.zero_add] at hb
    have hexp0 : patternExp f b = 0 := by rw [patternExp_eq, hb, Nat.div_eq_of_lt hlt]
    have hfrac : patternFrac f b = m := by rw [patternFrac_eq, hb, Nat.mod_eq_of_lt hlt]
    simp [decompose, hexp0, hfrac, hm, (emax_pos f).ne]
  · obtain ⟨r, rfl⟩ := Nat.exists_eq_add_of_le hge
    have hr : r < 2 ^ f.fracBits := Nat.lt_of_add_lt_add_left hsig
    rw [← Nat.add_assoc, ← Nat.succ_mul] at hb
    have hexp' : patternExp f b = e + 1 := by
      rw [patternExp_eq, hb, Nat.add_comm, Nat.add_mul_div_right _ _ (Nat.two_pow_pos _), Nat.div_eq_of_lt hr,
        Nat.zero_add]
    have hfrac : patternFrac f b = r := by rw [patternFrac_eq, hb, Nat.mul_add_mod_of_lt hr]
    rw [hexp'] at hexp
    simp [decompose, hexp', hfrac, hexp, Nat.add_comm r]

/-- A finite nonzero pattern as the extractor sees it: its class, its significand and its value. -/
structure FinitePattern (f : FloatFormat) (b e m : Nat) : Prop where
  canonical : Canonical f e m
  pattern : unsignedPattern f b = e * 2 ^ f.fracBits + m
  sig_ne_zero : m ≠ 0
  exp_lt : e + 1 < f.emax
  decompose_eq : decompose f b = ⟨patternSign f b, .finite, m, (e : Int) + 1 - f.bias - f.fracBits⟩

theorem exists_finitePattern (h0 : 0 < unsignedPattern f b) (hfin : unsignedPattern f b < infinityMagnitude f) :
    ∃ e m, FinitePattern f b e m := by
  obtain ⟨e, m, hc, hb⟩ := exists_canonical f (unsignedPattern f b)
  have hmax : 1 < f.emax := by cases f <;> decide
  have hm : m ≠ 0 := by
    rintro rfl
    rcases hc.leading with hlead | rfl
    · exact absurd hlead (Nat.not_le.2 (Nat.two_pow_pos _))
    · omega
  refine ⟨e, m, hc, hb, hm, ?_, decompose_of_canonical hc hb hm hfin⟩
  rcases hc.leading with hlead | rfl
  · rw [hb, infinityMagnitude] at hfin
    refine Nat.lt_of_mul_lt_mul_right (a := 2 ^ f.fracBits) ?_
    rw [Nat.succ_mul]
    omega
  · omega

theorem decompose_neg (f : FloatFormat) (b : Nat) : (decompose f b).neg = patternSign f b := by
  unfold decompose
  dsimp only
  split_ifs <;> rfl

/-- The class that the fields say, by the number below the sign (45_extract_format.md R94). -/
theorem decompose_cls (f : FloatFormat) (b : Nat) : (decompose f b).cls =
    if unsignedPattern f b = 0 then .zero else if unsignedPattern f b < infinityMagnitude f then .finite
    else if unsignedPattern f b = infinityMagnitude f then .inf else .nan := by
  rcases Nat.eq_zero_or_pos (unsignedPattern f b) with h0 | h0
  · rw [decompose_of_zero h0, if_pos h0]
  · rw [if_neg h0.ne']
    rcases Nat.lt_or_ge (unsignedPattern f b) (infinityMagnitude f) with hfin | hinf
    · obtain ⟨e, m, h⟩ := exists_finitePattern h0 hfin
      rw [h.decompose_eq, if_pos hfin]
    · rw [decompose_of_infinity_le hinf, if_neg (Nat.not_lt.2 hinf)]

theorem decompose_cls_eq_finite_iff (f : FloatFormat) (b : Nat) : (decompose f b).cls = .finite ↔
    0 < unsignedPattern f b ∧ unsignedPattern f b < infinityMagnitude f := by
  rw [decompose_cls]
  split_ifs <;> simp <;> omega

end

/-! ### The command -/

section

variable {f : FloatFormat} {s : State}

theorem State.unsignedPattern_pattern (s : State) (f : FloatFormat) :
    unsignedPattern f (s.pattern f) = unsignedPattern f (s.reg .bits).toNat :=
  unsignedPattern_mod_width f _

/-- The sign bit of BITS. -/
theorem State.patternSign_pattern (s : State) (f : FloatFormat) :
    patternSign f (s.pattern f) = (s.reg .bits).getLsbD (f.width - 1) :=
  patternSign_mod_width f _

/-- The decimal digits of the pattern in BITS: those of R98 for a finite nonzero one, else zeros (R100). -/
def State.extracted (s : State) (f : FloatFormat) : DecimalDigits :=
  if (decompose f (s.pattern f)).cls = .finite then
    decimalDigits s.params.rounding (decompose f (s.pattern f)).m (decompose f (s.pattern f)).e2
  else ⟨0, 0, 0⟩

theorem exec_extract (f : FloatFormat) (s : State) : exec (.extract f) s =
    .next (((((s.setReg .mant (BitVec.ofNat 64 (s.extracted f).number)).setReg .count
      (BitVec.ofNat 64 (s.extracted f).count)).setReg .exp10 (signedWord (s.extracted f).exp10)).setClass
      (decompose f (s.pattern f)).neg (decompose f (s.pattern f)).cls).complete .ok) := (rfl)

/-- From `s` to `t` EXTRACT has completed with the sign, the class and the digits of BITS, and left all else. -/
structure Extracts (f : FloatFormat) (s t : State) : Prop where
  exec : exec (.extract f) s = .next t
  completes : Completes .ok [.mant, .count, .exp10] s t
  mem : SameMemory s t
  flags : t.flags =
    { s.flags with n := (s.reg .bits).getLsbD (f.width - 1), cls := (decompose f (s.pattern f)).cls }
  mant : t.reg .mant = BitVec.ofNat 64 (s.extracted f).number
  count : t.reg .count = BitVec.ofNat 64 (s.extracted f).count
  exp10 : t.reg .exp10 = signedWord (s.extracted f).exp10

theorem exists_extracts (f : FloatFormat) (s : State) : ∃ t, Extracts f s t := by
  have h := exec_extract f s
  obtain ⟨hc, hmem⟩ := exec_frame h nofun
  refine ⟨_, h, hc, hmem, ?_, by simp, by simp, by simp⟩
  rw [← s.patternSign_pattern f, ← decompose_neg]
  simp

theorem State.extracted_of_not_finite
    (h : unsignedPattern f (s.reg .bits).toNat = 0 ∨ infinityMagnitude f ≤ unsignedPattern f (s.reg .bits).toNat) :
    s.extracted f = ⟨0, 0, 0⟩ := by
  refine if_neg ?_
  rw [decompose_cls_eq_finite_iff, State.unsignedPattern_pattern]
  omega

/-- Settles O54: the class is what the fields say, and the digits of a pattern that is not finite nonzero are zeros. -/
theorem extractClassifiesThePattern : Obligations.ExtractClassifiesThePattern := by
  intro f s
  obtain ⟨t, ht⟩ := exists_extracts f s
  refine ⟨t, ht.exec, ht.completes, ht.mem, ?_, fun h => ?_⟩
  · rw [ht.flags, decompose_cls, State.unsignedPattern_pattern]
  · rw [ht.mant, ht.count, ht.exp10, State.extracted_of_not_finite h]
    exact ⟨rfl, rfl, rfl⟩

end

end Sys2Proof.Machine
end

section
/-! The digit extractor (45_extract_format.md R95 to R99): its estimate of the leading-digit exponent, what one pass
gives, and that the digits are the value to 17 significant digits. -/

namespace Sys2Proof.Machine

/-! ### The estimate (45_extract_format.md R95) -/

/-- The estimate of the decade in which 2^b lies. -/
def decadeOf (b : Int) : Int := b * 78913 / 2 ^ 18

/-- The shift floors as the division does. -/
theorem estimateExp10_eq (m : Nat) (e2 : Int) : estimateExp10 m e2 = decadeOf (bitlen m - 1 + e2) := by
  unfold estimateExp10 decadeOf
  generalize ((bitlen m : Int) - 1 + e2) * 78913 = n
  cases n with
  | ofNat n => exact Int.shiftRight_eq_div_pow (.ofNat n) 18
  | negSucc n => exact Int.shiftRight_eq_div_pow (.negSucc n) 18

/-- The exponents of the leading bit of a finite binary64 value, and so of every finite value. -/
def LeadingExponent (b : Int) : Prop := -1074 ≤ b ∧ b ≤ 1023

theorem decadeOf_bounds {b : Int} (h : LeadingExponent b) : -324 ≤ decadeOf b ∧ decadeOf b ≤ 307 := by
  obtain ⟨hlo, hhi⟩ := h
  rw [decadeOf]
  omega

/-- The estimate holds of each leading exponent, evaluated at b = n − 1074 with both sides made natural numbers. -/
theorem decadeOf_table : ∀ n ∈ List.range 2098,
    10 ^ (decadeOf ((n : Int) - 1074) + 324).toNat * 2 ^ 1074 ≤ 2 ^ n * 10 ^ 324 ∧
      2 ^ n * 10 ^ 324 ≤ 10 ^ ((decadeOf ((n : Int) - 1074) + 324).toNat + 1) * 2 ^ 1074 := by
  decide +kernel

/-- The estimate is never too high, and too low by one at most. -/
theorem ten_zpow_decadeOf {b : Int} (h : LeadingExponent b) :
    (10 : ℚ) ^ decadeOf b ≤ 2 ^ b ∧ (2 : ℚ) ^ b ≤ 10 ^ (decadeOf b + 1) := by
  obtain ⟨hdecade, -⟩ := decadeOf_bounds h
  obtain ⟨hlo, hhi⟩ := h
  obtain ⟨n, hn⟩ : ∃ n : Nat, b = n - 1074 := ⟨(b + 1074).toNat, by omega⟩
  obtain ⟨d, hd⟩ : ∃ d : Nat, decadeOf b = d - 324 := ⟨(decadeOf b + 324).toNat, by omega⟩
  have htable := decadeOf_table n (List.mem_range.2 (by omega))
  rw [← hn, hd, sub_add_cancel, Int.toNat_natCast] at htable
  have hten (k : Nat) : (10 : ℚ) ^ ((k : ℤ) - 324) = 10 ^ k / 10 ^ 324 := by
    rw [zpow_sub₀ (by norm_num), zpow_natCast]
    rfl
  have htwo : (2 : ℚ) ^ ((n : ℤ) - 1074) = 2 ^ n / 2 ^ 1074 := by
    rw [zpow_sub₀ (by norm_num), zpow_natCast]
    rfl
  have hsucc : (d : ℤ) - 324 + 1 = (d + 1 : Nat) - 324 := by omega
  rw [hd, hn, hsucc, hten, hten, htwo, div_le_div_iff₀ (by positivity) (by positivity),
    div_le_div_iff₀ (by positivity) (by positivity)]
  exact_mod_cast htable

/-- A value lies between its leading bit and the double of that. -/
theorem value_bounds_of_bitlen {m : Nat} (hm : m ≠ 0) (e2 : Int) :
    (2 : ℚ) ^ ((bitlen m : ℤ) - 1 + e2) ≤ m * 2 ^ e2 ∧
      (m : ℚ) * 2 ^ e2 < 2 * 2 ^ ((bitlen m : ℤ) - 1 + e2) := by
  obtain ⟨hlow, hhigh⟩ := bitlen_spec hm
  obtain ⟨n, hn⟩ : ∃ n, bitlen m = n + 1 := ⟨_, (Nat.sub_add_cancel (bitlen_pos hm)).symm⟩
  rw [hn, Nat.add_sub_cancel] at hlow
  rw [hn, pow_succ'] at hhigh
  rw [hn, Nat.cast_succ, add_sub_cancel_right, zpow_add₀ two_ne_zero, zpow_natCast, ← mul_assoc]
  exact ⟨by gcongr; exact_mod_cast hlow, by gcongr; exact_mod_cast hhigh⟩

/-- The estimate of a value's leading-digit exponent: the value reaches it, and not the double of the next. -/
theorem estimateExp10_spec {m : Nat} {e2 : Int} (hm : m ≠ 0) (h : LeadingExponent (bitlen m - 1 + e2)) :
    (10 : ℚ) ^ estimateExp10 m e2 ≤ m * 2 ^ e2 ∧ (m : ℚ) * 2 ^ e2 < 2 * 10 ^ (estimateExp10 m e2 + 1) := by
  obtain ⟨hlow, hhigh⟩ := value_bounds_of_bitlen hm e2
  obtain ⟨hten, hten'⟩ := ten_zpow_decadeOf h
  rw [estimateExp10_eq]
  exact ⟨hten.trans hlow, hhigh.trans_le (mul_le_mul_of_nonneg_left hten' zero_le_two)⟩

/-! ### One pass (45_extract_format.md R96) -/

/-- SCALE's error in nine multiplications, under either rounding of the ROM. -/
theorem scale_near (r : Pow5Rounding) {m : Nat} {q : Int} (hm : m ≠ 0) (hlt : m < 2 ^ 64)
    (hq : q.natAbs ≤ scaleRange) : |(scale r m q).value - m * 10 ^ q| ≤ m * 10 ^ q / 2 ^ 120 := by
  obtain ⟨-, hlow, hhigh⟩ := scale_approximates r hm hlt hq
  have hj := multiplications_le q.natAbs
  have hkept : 1 - 1 / 2 ^ 120 ≤ keptPart ^ multiplications q.natAbs :=
    calc 1 - 1 / 2 ^ 120 ≤ keptPart ^ pow5Entries := by norm_num [keptPart, pow5Entries]
      _ ≤ _ := pow_le_pow_of_le_one keptPart_pos.le (by norm_num [keptPart]) hj
  have hexcess : entryExcess r ^ multiplications q.natAbs ≤ 1 + 1 / 2 ^ 120 :=
    calc _ ≤ entryExcess r ^ pow5Entries := pow_le_pow_right₀ (one_le_entryExcess r) hj
      _ ≤ 1 + 1 / 2 ^ 120 := by cases r <;> norm_num [entryExcess, pow5Entries]
  have hv : (0 : ℚ) ≤ m * 10 ^ q := by positivity
  have hlow' := (mul_le_mul_of_nonneg_left hkept hv).trans hlow
  have hhigh' := hhigh.trans (mul_le_mul_of_nonneg_left hexcess hv)
  rw [abs_le]
  constructor <;> linarith

/-- A cut rounded half up is half a unit off at most. -/
theorem cut_near (sig n : Nat) :
    |((sig >>> (n + 1) + (sig.testBit n).toNat : Nat) : ℚ) - sig * 2 ^ (-((n + 1 : Nat) : ℤ))| ≤ 1 / 2 := by
  have hsig : (sig : ℚ) =
      (2 * (sig / 2 ^ (n + 1) : Nat) + (sig / 2 ^ n % 2 : Nat)) * 2 ^ n + (sig % 2 ^ n : Nat) := by
    exact_mod_cast sig_eq_kept_round_rest sig n
  have hround : ((sig / 2 ^ n % 2 : Nat) : ℚ) ≤ 1 := by
    exact_mod_cast Nat.le_of_lt_succ (Nat.mod_lt _ two_pos)
  have hrest : ((sig % 2 ^ n : Nat) : ℚ) ≤ 2 ^ n := by
    exact_mod_cast (Nat.mod_lt _ (Nat.two_pow_pos n)).le
  have hround0 : (0 : ℚ) ≤ (sig / 2 ^ n % 2 : Nat) := Nat.cast_nonneg _
  have hrest0 : (0 : ℚ) ≤ (sig % 2 ^ n : Nat) := Nat.cast_nonneg _
  rw [Nat.toNat_testBit, Nat.shiftRight_eq_div_pow, zpow_neg, zpow_natCast, ← div_eq_mul_inv, Nat.cast_add]
  generalize ((sig / 2 ^ n % 2 : Nat) : ℚ) = bit at *
  generalize ((sig % 2 ^ n : Nat) : ℚ) = rest at *
  generalize ((sig / 2 ^ (n + 1) : Nat) : ℚ) = kept at *
  have hdiff : kept + bit - sig / 2 ^ (n + 1) = bit / 2 - rest / 2 ^ n / 2 := by
    rw [hsig, pow_succ]
    field_simp
    ring
  have hfrac : rest / 2 ^ n ≤ 1 := (div_le_one (by positivity)).2 hrest
  have hfrac0 : 0 ≤ rest / 2 ^ n := by positivity
  rw [hdiff, abs_le]
  constructor <;> linarith

/-- A pass gives the value × 10^(16−k) to the nearest integer, but for SCALE's error. -/
theorem extractPass_near (r : Pow5Rounding) {m : Nat} {e2 k : Int} (hm : m ≠ 0) (hlt : m < 2 ^ 64)
    (hk : (16 - k).natAbs ≤ scaleRange) (hle : (m : ℚ) * 2 ^ e2 * 10 ^ (16 - k) ≤ 2 * 10 ^ 17) :
    |(extractPass r m e2 k : ℚ) - m * 2 ^ e2 * 10 ^ (16 - k)| ≤ 1 / 2 + 1 / 2 ^ 60 := by
  have hnear := scale_near r hm hlt hk
  have hnorm := (scale_approximates r hm hlt hk).normalized.le_sig
  rw [extractPass]
  generalize scale r m (16 - k) = x at *
  have htwo : (0 : ℚ) < 2 ^ e2 := by positivity
  have hcut : x.value * 2 ^ e2 = x.sig * 2 ^ (x.exp + e2) := by
    rw [Scaled.value, mul_assoc, ← zpow_add₀ two_ne_zero]
  have herr : |x.sig * 2 ^ (x.exp + e2) - (m : ℚ) * 2 ^ e2 * 10 ^ (16 - k)| ≤ 1 / 2 ^ 60 := by
    have hmul := mul_le_mul_of_nonneg_right hnear htwo.le
    rw [← hcut]
    calc _ = |x.value - m * 10 ^ (16 - k)| * 2 ^ e2 := by
          rw [← abs_of_pos htwo, ← abs_mul, abs_of_pos htwo]
          congr 1
          ring
      _ ≤ m * 10 ^ (16 - k) / 2 ^ 120 * 2 ^ e2 := hmul
      _ = m * 2 ^ e2 * 10 ^ (16 - k) / 2 ^ 120 := by ring
      _ ≤ 2 * 10 ^ 17 / 2 ^ 120 := by gcongr
      _ ≤ 1 / 2 ^ 60 := by norm_num
  have hneg : x.exp + e2 < 0 := by
    by_contra hge
    have hone : (1 : ℚ) ≤ 2 ^ (x.exp + e2) := one_le_zpow₀ one_le_two (Int.not_lt.1 hge)
    have hsig : (2 : ℚ) ^ 127 ≤ x.sig := by exact_mod_cast hnorm
    have hlow := mul_le_mul hsig hone zero_le_one (by positivity)
    have hhigh := (abs_le.1 herr).2
    linarith
  obtain ⟨n, hn⟩ : ∃ n : Nat, x.exp + e2 = -((n + 1 : Nat) : ℤ) := ⟨(-(x.exp + e2) - 1).toNat, by omega⟩
  rw [hn] at herr ⊢
  rw [neg_neg, Int.toNat_natCast, Nat.add_sub_cancel]
  exact (abs_sub_le _ _ _).trans (add_le_add (cut_near x.sig n) herr)

/-! ### The passes (45_extract_format.md R96, R97, R99) -/

/-- `D × 10^(k−16)` is `v` to 17 significant digits, but for SCALE's error. -/
structure HasDigits (v : ℚ) (D : Nat) (k : Int) : Prop where
  le : 10 ^ 16 ≤ D
  lt : D < 10 ^ 17
  near : |(D : ℚ) - v * 10 ^ (16 - k)| ≤ 1 / 2 + 1 / 2 ^ 60

section

variable {r : Pow5Rounding} {m : Nat} {e2 k : Int}

theorem extractLoop_of_fits {n d : Nat} (hlo : 10 ^ 16 ≤ extractPass r m e2 k)
    (hhi : extractPass r m e2 k < 10 ^ 17) :
    extractLoop r m e2 (n + 1) d k = (extractPass r m e2 k, k) := by
  rw [extractLoop]
  exact (if_neg (Nat.not_le.2 hhi)).trans (if_neg (Nat.not_lt.2 hlo))

theorem extractLoop_of_overflow {n d : Nat} (h : 10 ^ 17 ≤ extractPass r m e2 k) :
    extractLoop r m e2 (n + 1) d k = extractLoop r m e2 n (extractPass r m e2 k) (k + 1) := by
  rw [extractLoop]
  exact if_pos h

/-- A pass of a value that has 17 digits before the point, but for what rounds up to them, gives no fewer. -/
theorem le_extractPass {T : ℚ} (hT : 10 ^ 16 - 1 / 4 ≤ T)
    (hnear : |(extractPass r m e2 k : ℚ) - T| ≤ 1 / 2 + 1 / 2 ^ 60) : 10 ^ 16 ≤ extractPass r m e2 k := by
  have hlow := (abs_le.1 hnear).1
  have hgt : ((10 ^ 16 : Nat) : ℚ) < (extractPass r m e2 k + 1 : Nat) := by
    rw [Nat.cast_succ, Nat.cast_pow, Nat.cast_ofNat]
    linarith
  exact Nat.le_of_lt_succ (Nat.cast_lt.1 hgt)

variable (hm : m ≠ 0) (hlt : m < 2 ^ 64) (hb : LeadingExponent (bitlen m - 1 + e2))
include hm hlt hb

/-- The extractor's number: the first pass has its 17 digits, or with one digit more the second has them. -/
theorem extractNumber_hasDigits (r : Pow5Rounding) :
    HasDigits (m * 2 ^ e2) (extractNumber r m e2).1 (extractNumber r m e2).2 ∧
      -324 ≤ (extractNumber r m e2).2 ∧ (extractNumber r m e2).2 ≤ 308 := by
  obtain ⟨hlow, hhigh⟩ := estimateExp10_spec hm hb
  obtain ⟨hk, hk'⟩ := decadeOf_bounds hb
  rw [← estimateExp10_eq] at hk hk'
  rw [extractNumber]
  generalize estimateExp10 m e2 = k at *
  have hten (j : ℤ) : (0 : ℚ) < 10 ^ j := by positivity
  have hshift : (m : ℚ) * 2 ^ e2 * 10 ^ (16 - k) = 10 * (m * 2 ^ e2 * 10 ^ (16 - (k + 1))) := by
    rw [show 16 - k = 1 + (16 - (k + 1)) by ring, zpow_one_add₀ (by norm_num)]
    ring
  have hfirst : (10 : ℚ) ^ 16 ≤ m * 2 ^ e2 * 10 ^ (16 - k) := by
    have hmul := mul_le_mul_of_nonneg_right hlow (hten (16 - k)).le
    rwa [← zpow_add₀ (by norm_num), add_sub_cancel] at hmul
  have hsecond : (m : ℚ) * 2 ^ e2 * 10 ^ (16 - (k + 1)) ≤ 2 * 10 ^ 16 := by
    have hmul := mul_le_mul_of_nonneg_right hhigh.le (hten (16 - (k + 1))).le
    rwa [mul_assoc 2, ← zpow_add₀ (by norm_num), add_sub_cancel] at hmul
  have hnear := extractPass_near r hm hlt (k := k) (by rw [scaleRange]; omega) (by linarith)
  have hle := le_extractPass (by linarith) hnear
  rcases Nat.lt_or_ge (extractPass r m e2 k) (10 ^ 17) with hfits | hover
  · rw [extractLoop_of_fits hle hfits]
    exact ⟨⟨hle, hfits, hnear⟩, hk, hk'.trans (by decide)⟩
  · have hover' : (10 : ℚ) ^ 17 ≤ extractPass r m e2 k := by exact_mod_cast hover
    have hcarry := (abs_le.1 hnear).2
    have hnear' := extractPass_near r hm hlt (e2 := e2) (k := k + 1) (by rw [scaleRange]; omega) (by linarith)
    have hle' := le_extractPass (by linarith) hnear'
    have hfits : extractPass r m e2 (k + 1) < 10 ^ 17 := by
      have hup := (abs_le.1 hnear').2
      have hlt : (extractPass r m e2 (k + 1) : ℚ) < (10 ^ 17 : Nat) := by
        rw [Nat.cast_pow, Nat.cast_ofNat]
        linarith
      exact Nat.cast_lt.1 hlt
    rw [extractLoop_of_overflow hover, extractLoop_of_fits hle' hfits]
    exact ⟨⟨hle', hfits, hnear'⟩, by omega, by omega⟩

end

end Sys2Proof.Machine
end

section
/-! The decimal digits of a finite nonzero pattern (45_extract_format.md R98): the trailing zeros removed, and what
EXTRACT answers. -/

namespace Sys2Proof.Machine

/-! ### Trailing zeros -/

/-- All trailing zeros of a number of at most `n` digits are removed, and counted. -/
theorem stripZeros_spec {n d : Nat} (hd : d ≠ 0) (hlt : d < 10 ^ n) :
    d = (stripZeros n d).1 * 10 ^ (stripZeros n d).2 ∧ (stripZeros n d).1 % 10 ≠ 0 ∧ (stripZeros n d).2 < n := by
  induction n generalizing d with
  | zero => exact absurd (Nat.lt_one_iff.1 hlt) hd
  | succ n ih =>
    rw [stripZeros]
    split
    · next hzero =>
      have hdvd : d = d / 10 * 10 := by omega
      obtain ⟨heq, hlast, hcount⟩ := ih (d := d / 10) (by omega) (by rw [pow_succ] at hlt; omega)
      refine ⟨?_, hlast, Nat.succ_lt_succ hcount⟩
      rw [pow_succ, ← mul_assoc, ← heq]
      exact hdvd
    · next hlast => exact ⟨by rw [pow_zero, mul_one], hlast, Nat.succ_pos n⟩

/-! ### The digits -/

/-- `d` holds the digits of `v` to 17 significant digits, but for SCALE's error: the first and the last are not zero,
and the first is that of `10^X`. -/
structure IsDecimal (v : ℚ) (d : DecimalDigits) : Prop where
  count_pos : 1 ≤ d.count
  count_le : d.count ≤ 17
  le_number : 10 ^ (d.count - 1) ≤ d.number
  number_lt : d.number < 10 ^ d.count
  last : d.number % 10 ≠ 0
  le_exp10 : -324 ≤ d.exp10
  exp10_le : d.exp10 ≤ 308
  near : |(d.number : ℚ) * 10 ^ (d.exp10 + 1 - d.count) - v| ≤ (1 / 2 + 1 / 2 ^ 60) * 10 ^ (d.exp10 - 16)

/-- A 17-digit number without its trailing zeros is the digits. -/
theorem IsDecimal.of_hasDigits {v : ℚ} {D : Nat} {k : Int} (h : HasDigits v D k) (hlo : -324 ≤ k)
    (hhi : k ≤ 308) :
    IsDecimal v ⟨(stripZeros extractDigits D).1, extractDigits - (stripZeros extractDigits D).2, k⟩ := by
  obtain ⟨hle, hlt, hnear⟩ := h
  rw [extractDigits]
  obtain ⟨heq, hlast, hcount⟩ := stripZeros_spec (by omega) hlt
  generalize stripZeros 17 D = z at *
  obtain ⟨N, t⟩ := z
  dsimp only at *
  obtain ⟨c, hc, hcount'⟩ : ∃ c, c + t = 16 ∧ 17 - t = c + 1 := ⟨16 - t, by omega, by omega⟩
  rw [hcount']
  have hpos := Nat.pow_pos (n := t) (Nat.succ_pos 9)
  rw [heq] at hle hlt
  refine ⟨Nat.le_add_left 1 c, show c + 1 ≤ 17 by omega, ?_, ?_, hlast, hlo, hhi, ?_⟩
  · rw [← hc, pow_add] at hle
    exact Nat.le_of_mul_le_mul_right hle hpos
  · rw [show 17 = c + 1 + t by omega, pow_add] at hlt
    exact Nat.lt_of_mul_lt_mul_right hlt
  · have hunit : (0 : ℚ) < 10 ^ (k - 16) := by positivity
    have hexp : k + 1 - ((c + 1 : Nat) : ℤ) = t + (k - 16) := by omega
    have hinv : (10 : ℚ) ^ (16 - k) * 10 ^ (k - 16) = 1 := by
      rw [← zpow_add₀ (by norm_num), sub_add_sub_cancel, sub_self, zpow_zero]
    have hdiff : (N : ℚ) * 10 ^ (k + 1 - ((c + 1 : Nat) : ℤ)) - v =
        ((N * 10 ^ t : Nat) - v * 10 ^ (16 - k)) * 10 ^ (k - 16) := by
      rw [hexp, zpow_add₀ (by norm_num), zpow_natCast, sub_mul, mul_assoc v, hinv]
      push_cast
      ring
    rw [hdiff, abs_mul, abs_of_pos hunit, ← heq]
    exact mul_le_mul_of_nonneg_right hnear hunit.le

theorem decimalDigits_isDecimal (r : Pow5Rounding) {m : Nat} {e2 : Int} (hm : m ≠ 0) (hlt : m < 2 ^ 64)
    (hb : LeadingExponent (bitlen m - 1 + e2)) : IsDecimal (m * 2 ^ e2) (decimalDigits r m e2) := by
  obtain ⟨hdigits, hlo, hhi⟩ := extractNumber_hasDigits hm hlt hb r
  exact .of_hasDigits hdigits hlo hhi

/-! ### The digits of a pattern -/

namespace FinitePattern

variable {f : FloatFormat} {b e m : Nat} (h : FinitePattern f b e m)
include h

theorem sig_lt : m < 2 ^ 64 :=
  h.canonical.sig_lt.trans (by cases f <;> decide)

theorem leadingExponent : LeadingExponent (bitlen m - 1 + ((e : Int) + 1 - f.bias - f.fracBits)) := by
  have hpos := bitlen_pos h.sig_ne_zero
  have hle := bitlen_le h.canonical.sig_lt
  have hexp := h.exp_lt
  unfold LeadingExponent
  cases f <;> simp only [FloatFormat.bias, FloatFormat.fracBits, FloatFormat.precision, FloatFormat.emax] at * <;> omega

theorem magnitude_eq :
    magnitude f (unsignedPattern f b) = m * 2 ^ ((e : ℤ) + 1 - f.bias - f.fracBits) := by
  rw [h.pattern, h.canonical.value, ulp]

theorem isDecimal (r : Pow5Rounding) :
    IsDecimal (magnitude f (unsignedPattern f b)) (decimalDigits r (decompose f b).m (decompose f b).e2) := by
  rw [h.magnitude_eq, h.decompose_eq]
  exact decimalDigits_isDecimal r h.sig_ne_zero h.sig_lt h.leadingExponent

end FinitePattern

theorem State.extracted_of_finite {f : FloatFormat} {s : State} (h : (decompose f (s.pattern f)).cls = .finite) :
    s.extracted f = decimalDigits s.params.rounding (decompose f (s.pattern f)).m (decompose f (s.pattern f)).e2 :=
  if_pos h

/-! ### The command -/

section

variable {f : FloatFormat} {s t : State}

theorem State.extracted_isDecimal (h0 : 0 < unsignedPattern f (s.reg .bits).toNat)
    (hfin : unsignedPattern f (s.reg .bits).toNat < infinityMagnitude f) :
    IsDecimal (magnitude f (unsignedPattern f (s.reg .bits).toNat)) (s.extracted f) := by
  rw [← s.unsignedPattern_pattern f] at h0 hfin ⊢
  obtain ⟨e, m, h⟩ := exists_finitePattern h0 hfin
  rw [State.extracted_of_finite (by rw [h.decompose_eq])]
  exact h.isDecimal _

/-- The digits fit their registers. -/
theorem Extracts.unsigned_of_isDecimal {v : ℚ} (h : Extracts f s t) (hd : IsDecimal v (s.extracted f)) :
    t.unsigned .mant = (s.extracted f).number ∧ t.unsigned .count = (s.extracted f).count ∧
      t.signed .exp10 = (s.extracted f).exp10 := by
  have hcount := hd.count_le
  have hnumber := hd.number_lt.trans_le (Nat.pow_le_pow_right (Nat.succ_pos 9) hcount)
  have hlo := hd.le_exp10
  have hhi := hd.exp10_le
  rw [State.unsigned, State.unsigned, State.signed, h.mant, h.count, h.exp10, BitVec.toNat_ofNat, BitVec.toNat_ofNat]
  exact ⟨Nat.mod_eq_of_lt (hnumber.trans (by decide)), Nat.mod_eq_of_lt (by omega),
    toInt_signedWord (by omega) (by omega)⟩

/-- Settles O55: the extractor's number has 17 digits, and its trailing zeros are removed. -/
theorem extractedDigitsAreTheValueToSeventeenDigits : Obligations.ExtractedDigitsAreTheValueToSeventeenDigits := by
  intro f s u h0 hfin
  obtain ⟨t, ht⟩ := exists_extracts f s
  have hd := State.extracted_isDecimal h0 hfin
  obtain ⟨hmant, hcount, hexp⟩ := ht.unsigned_of_isDecimal hd
  refine ⟨t, ht.exec, by rw [ht.completes.status], ?_⟩
  rw [hmant, hcount, hexp]
  exact ⟨hd.count_pos, hd.count_le, hd.le_number, hd.number_lt, hd.last, hd.near⟩

end

end Sys2Proof.Machine
end

section
/-! The text of a number as a literal of the grammar (45_extract_format.md R102, 42_scanner.md R68), and the literal's
values. -/

namespace Sys2Proof.Machine

/-! ### The digits of a number -/

theorem digitsNumber_digitsOf (n : Nat) : digitsNumber (digitsOf n) = n := by
  rw [digitsNumber, digitsOf, List.reverse_reverse, Nat.ofDigits_digits]

theorem digitsOf_lt_ten (n : Nat) : ∀ d ∈ digitsOf n, d < 10 := fun _ hd =>
  Nat.digits_lt_base (by decide) (List.mem_reverse.1 hd)

theorem digitsOf_ne_nil {n : Nat} (h : n ≠ 0) : digitsOf n ≠ [] := by
  rw [digitsOf, List.reverse_ne_nil_iff]
  exact Nat.digits_ne_nil_iff_ne_zero.2 h

theorem isDigits_digitsOf {n : Nat} (h : n ≠ 0) : isDigits (digitsOf n) = true :=
  isDigits_iff.2 ⟨digitsOf_ne_nil h, digitsOf_lt_ten n⟩

/-- The first digit is not zero. -/
theorem head?_digitsOf {n : Nat} (h : n ≠ 0) : (digitsOf n).head? ≠ some 0 := by
  rw [digitsOf, List.head?_reverse, List.getLast?_eq_getLast_of_ne_nil (Nat.digits_ne_nil_iff_ne_zero.2 h)]
  exact fun h0 => Nat.getLast_digit_ne_zero 10 h (Option.some.inj h0)

theorem length_digitsOf {n c : Nat} (hlo : 10 ^ c ≤ n) (hhi : n < 10 ^ (c + 1)) : (digitsOf n).length = c + 1 := by
  rw [digitsOf, List.length_reverse]
  exact Nat.le_antisymm ((Nat.digits_length_le_iff (by decide) n).2 hhi)
    ((Nat.lt_digits_length_iff (by decide) n).2 hlo)

/-- The formatter's digits of a number, where it is given as many as the number has. -/
theorem digitBytes_eq {n c : Nat} (hlo : 10 ^ c ≤ n) (hhi : n < 10 ^ (c + 1)) :
    digitBytes (c + 1) n = digitsText (digitsOf n) := by
  have hlen := length_digitsOf hlo hhi
  refine List.ext_getElem (by simp [hlen]) fun i hi _ => ?_
  rw [length_digitBytes] at hi
  have hlen' : (Nat.digits 10 n).length = c + 1 := by rw [← hlen, digitsOf, List.length_reverse]
  have hdigit := Nat.getD_digits n (c - i) (b := 10) (by decide)
  rw [List.getD_eq_getElem _ _ (by omega)] at hdigit
  simp only [digitBytes, digitsText, digitsOf, List.getElem_map, List.getElem_range, List.getElem_reverse, hlen',
    Nat.add_sub_cancel, hdigit]

/-- The exponent of a text is written with no leading zeros. -/
theorem decimalBytes_eq {n : Nat} (h0 : n ≠ 0) (h : n < 1000) : decimalBytes n = digitsText (digitsOf n) := by
  rw [decimalBytes]
  split_ifs with h1 h2
  · exact digitBytes_eq (c := 0) (by omega) (by omega)
  · exact digitBytes_eq (c := 1) (by omega) (by omega)
  · exact digitBytes_eq (c := 2) (by omega) (by omega)

/-! ### The literal -/

/-- The fraction part that the digits `ds` make after the point: none where there are none. -/
def fractionOf (ds : List Nat) : Option (List Nat) := if ds = [] then none else some ds

/-- The exponent part of a text: always signed, and marked with 'e'. -/
def exponentOf (x : Int) : ExponentPart := ⟨false, some (decide (x < 0)), digitsOf x.natAbs⟩

/-- The literal of the text that R102 gives the digits `ds` and the leading-digit exponent `x`. -/
def numberLiteral (neg : Bool) (ds : List Nat) (x : Int) : Literal :=
  if -4 ≤ x ∧ x < ds.length then
    if 0 ≤ x then ⟨neg, ds.take (x.toNat + 1), fractionOf (ds.drop (x.toNat + 1)), none⟩
    else ⟨neg, [0], some (List.replicate (-x - 1).toNat 0 ++ ds), none⟩
  else ⟨neg, ds.take 1, fractionOf (ds.drop 1), some (exponentOf x)⟩

theorem digitsText_replicate_zero (n : Nat) : digitsText (List.replicate n 0) = List.replicate n chZero := by
  rw [digitsText, List.map_replicate]
  rfl

theorem digitsText_append (as bs : List Nat) : digitsText (as ++ bs) = digitsText as ++ digitsText bs :=
  List.map_append

theorem fracText_fractionOf_drop (ds : List Nat) (n : Nat) :
    fracText (fractionOf (ds.drop n)) = if n < ds.length then chDot :: digitsText (ds.drop n) else [] := by
  rw [fractionOf]
  by_cases h : n < ds.length
  · rw [if_neg (by simpa using h), if_pos h, fracText]
  · rw [if_pos (by simpa using h), if_neg h, fracText]

theorem getD_fractionOf (ds : List Nat) : (fractionOf ds).getD [] = ds := by
  rw [fractionOf]
  split
  · next h => exact h.symm
  · rfl

theorem expText_exponentOf (x : Int) : expText (some (exponentOf x)) =
    chLowerE :: (if x < 0 then chMinus else chPlus) :: digitsText (digitsOf x.natAbs) := by
  by_cases h : x < 0 <;> simp [exponentOf, expText, expMarker, expSignText, h]

theorem text_numberLiteral (neg : Bool) (ds : List Nat) (x : Int) :
    (numberLiteral neg ds x).text = numberText neg ds x := by
  rw [Literal.text_eq, numberLiteral, numberText]
  split
  · split
    · next hfixed hx =>
      have hiff : x + 1 < ds.length ↔ x.toNat + 1 < ds.length := by omega
      simp only [fracText_fractionOf_drop, expText, List.append_nil, List.append_assoc, hiff]
    · simp [fracText, expText, digitsText_append, digitsText_replicate_zero]
      rfl
  · rw [fracText_fractionOf_drop, expText_exponentOf]
    simp only [List.append_assoc]

/-- The form is exponential exactly where the literal has an exponent part. -/
theorem exp_numberLiteral_eq_none_iff (neg : Bool) (ds : List Nat) (x : Int) :
    (numberLiteral neg ds x).exp = none ↔ -4 ≤ x ∧ x < ds.length := by
  rw [numberLiteral]
  split_ifs <;> simp [*]

theorem neg_numberLiteral (neg : Bool) (ds : List Nat) (x : Int) : (numberLiteral neg ds x).neg = neg := by
  rw [numberLiteral]
  split_ifs <;> rfl

/-! ### The literal's values -/

theorem significantDigits_replicate_zero (n : Nat) (ds : List Nat) :
    significantDigits (List.replicate n 0 ++ ds) = significantDigits ds := by
  induction n with
  | zero => rfl
  | succ n ih => rw [← ih]; rfl

/-- The exponent part stands for the exponent, whose sign it writes out. -/
theorem expPartValue_exponentOf (x : Int) : expPartValue (some (exponentOf x)) = x := by
  simp only [expPartValue, exponentOf, Option.some.injEq, decide_eq_true_eq, digitsNumber_digitsOf]
  split <;> omega

section

variable {ds : List Nat}

/-- The significant digits of the literal are the digits it was made from. -/
theorem significant_numberLiteral (neg : Bool) (x : Int) (hhead : ds.head? ≠ some 0) :
    (numberLiteral neg ds x).significant = ds := by
  rw [Literal.significant_eq, Literal.fracDigits, numberLiteral]
  split_ifs
  · rw [getD_fractionOf, List.take_append_drop, significantDigits_of_head hhead]
  · rw [Option.getD_some, ← List.replicate_one, significantDigits_replicate_zero, significantDigits_replicate_zero,
      significantDigits_of_head hhead]
  · rw [getD_fractionOf, List.take_append_drop, significantDigits_of_head hhead]

variable (hds : isDigits ds = true)
include hds

/-- The literal's exponent is that of the last digit. -/
theorem exponent_numberLiteral (neg : Bool) (x : Int) :
    (numberLiteral neg ds x).expValue - (numberLiteral neg ds x).fracDigits.length = x + 1 - ds.length := by
  have hpos := List.length_pos_iff.2 (isDigits_iff.1 hds).1
  rw [Literal.expValue_eq, Literal.fracDigits, numberLiteral]
  split_ifs
  · rw [getD_fractionOf, List.length_drop, expPartValue]
    omega
  · rw [Option.getD_some, List.length_append, List.length_replicate, expPartValue]
    omega
  · rw [getD_fractionOf, List.length_drop, expPartValue_exponentOf]
    omega

theorem isDigits_take (n : Nat) : isDigits (ds.take (n + 1)) = true := by
  obtain ⟨hne, hlt⟩ := isDigits_iff.1 hds
  exact isDigits_iff.2 ⟨by simpa using hne, fun d hd => hlt d (List.mem_of_mem_take hd)⟩

theorem isDigits_of_fractionOf_drop {n : Nat} {fs : List Nat} (h : fractionOf (ds.drop n) = some fs) :
    isDigits fs = true := by
  rw [fractionOf] at h
  split at h
  · cases h
  · next hne =>
    obtain rfl := Option.some.inj h
    exact isDigits_iff.2 ⟨hne, fun d hd => (isDigits_iff.1 hds).2 d (List.mem_of_mem_drop hd)⟩

theorem isDigits_replicate_zero_append (n : Nat) : isDigits (List.replicate n 0 ++ ds) = true := by
  obtain ⟨hne, hlt⟩ := isDigits_iff.1 hds
  refine isDigits_iff.2 ⟨List.append_ne_nil_of_right_ne_nil _ hne, fun d hd => ?_⟩
  rcases List.mem_append.1 hd with hd | hd
  · rw [List.eq_of_mem_replicate hd]
    decide
  · exact hlt d hd

theorem wf_numberLiteral (neg : Bool) (x : Int) (hhead : ds.head? ≠ some 0) :
    (numberLiteral neg ds x).wf = true := by
  have hpos := List.length_pos_iff.2 (isDigits_iff.1 hds).1
  have htake (n : Nat) : (ds.take (n + 1)).head? ≠ some 0 := by
    rwa [List.head?_take, if_neg (Nat.succ_ne_zero n)]
  rw [Literal.wf_iff, numberLiteral]
  split_ifs
  · exact ⟨⟨isDigits_take hds _, .inr (htake _)⟩, fun _ => isDigits_of_fractionOf_drop hds, nofun⟩
  · exact ⟨⟨rfl, .inl rfl⟩, fun _ h => Option.some.inj h ▸ isDigits_replicate_zero_append hds _, nofun⟩
  · exact ⟨⟨isDigits_take hds 0, .inr (htake 0)⟩, fun _ => isDigits_of_fractionOf_drop hds,
      fun _ h => Option.some.inj h ▸ isDigits_digitsOf (by omega)⟩

end

/-! ### Markers in a literal's bytes -/

theorem not_mem_digitsText {c : Byte} (hc : isDigit (some c) = false) {ds : List Nat} (hds : ∀ d ∈ ds, d < 10) :
    c ∉ digitsText ds := by
  intro h
  obtain ⟨d, hd, rfl⟩ := List.mem_map.1 h
  rw [isDigit_digitByte (hds d hd)] at hc
  cases hc

/-- A literal holds an exponent marker exactly where it has an exponent part. -/
theorem Literal.exp_eq_none_iff {l : Literal} (hwf : l.wf = true) :
    l.exp = none ↔ chLowerE ∉ l.text ∧ chUpperE ∉ l.text := by
  obtain ⟨⟨hint, -⟩, hfrac, -⟩ := wf_iff.1 hwf
  have hbefore (upper : Bool) : expMarker upper ∉ signText l.neg ++ digitsText l.int ++ fracText l.frac := by
    have hdigit := isDigit_expMarker upper
    have hsign : expMarker upper ∉ signText l.neg := by cases upper <;> cases l.neg <;> decide
    have hfracText : expMarker upper ∉ fracText l.frac := by
      cases hfr : l.frac with
      | none => exact List.not_mem_nil
      | some fs =>
        have hfs := not_mem_digitsText hdigit (isDigits_iff.1 (hfrac fs hfr)).2
        simp [fracText, expMarker_ne_chDot, hfs]
    simp [hsign, hfracText, not_mem_digitsText hdigit (isDigits_iff.1 hint).2]
  rw [text_eq]
  cases hex : l.exp with
  | none => simpa only [expText, List.append_nil, true_iff] using ⟨hbefore false, hbefore true⟩
  | some x =>
    refine iff_of_false nofun fun h => ?_
    cases hup : x.upper <;> simp [expText, expMarker, hup] at h

end Sys2Proof.Machine
end

section
/-! The text FORMAT writes (45_extract_format.md R102): what it is of each class of patterns, and that of a finite
nonzero pattern as a number's. -/

namespace Sys2Proof.Machine

section

variable {v : ℚ} {d : DecimalDigits} (h : IsDecimal v d)

include h

theorem IsDecimal.number_ne_zero : d.number ≠ 0 := fun h0 => h.last (by rw [h0])

theorem IsDecimal.length_digitsOf : (digitsOf d.number).length = d.count := by
  have hlow := h.le_number
  have hhigh := h.number_lt
  obtain ⟨c, hc⟩ := Nat.exists_eq_add_of_le' h.count_pos
  rw [hc] at hlow hhigh ⊢
  exact Machine.length_digitsOf hlow hhigh

theorem IsDecimal.digitBytes_eq : digitBytes d.count d.number = digitsText (digitsOf d.number) := by
  have hlow := h.le_number
  have hhigh := h.number_lt
  obtain ⟨c, hc⟩ := Nat.exists_eq_add_of_le' h.count_pos
  rw [hc] at hlow hhigh ⊢
  exact Machine.digitBytes_eq hlow hhigh

/-- The formatter's text of the digits is the number's. -/
theorem IsDecimal.renderDigits_eq (neg : Bool) :
    signText neg ++ renderDigits d = numberText neg (digitsOf d.number) d.exp10 := by
  have hpos := h.count_pos
  have hlo := h.le_exp10
  have hhi := h.exp10_le
  have hcount := h.length_digitsOf
  rw [renderDigits, numberText, h.digitBytes_eq, ← hcount]
  congr 1
  split
  · next hfixed =>
    rw [fixedText]
    split
    · next hx =>
      have hiff : d.exp10.toNat + 1 < (digitsOf d.number).length ↔ d.exp10 + 1 < (digitsOf d.number).length := by
        omega
      simp only [digitsText, List.map_take, List.map_drop, List.length_map, hiff]
    · rfl
  · rw [exponentialText, decimalBytes_eq (by omega) (by omega)]
    simp [digitsText]

end

variable {f : FloatFormat} {s t : State}

theorem State.outputText_of_finite (h0 : 0 < unsignedPattern f (s.reg .bits).toNat)
    (hfin : unsignedPattern f (s.reg .bits).toNat < infinityMagnitude f) : s.outputText f =
      numberText ((s.reg .bits).getLsbD (f.width - 1)) (digitsOf (s.extracted f).number) (s.extracted f).exp10 := by
  rw [← (State.extracted_isDecimal h0 hfin).renderDigits_eq]
  rw [← s.unsignedPattern_pattern f] at h0 hfin
  have hcls := (decompose_cls_eq_finite_iff f _).2 ⟨h0, hfin⟩
  rw [State.extracted_of_finite hcls, State.outputText, formatText, hcls, decompose_neg, State.patternSign_pattern]

theorem State.outputText_of_zero (h : unsignedPattern f (s.reg .bits).toNat = 0) :
    s.outputText f = signText ((s.reg .bits).getLsbD (f.width - 1)) ++ [chZero] := by
  rw [← s.unsignedPattern_pattern f] at h
  rw [State.outputText, formatText, decompose_of_zero h, ← s.patternSign_pattern f]

theorem State.outputText_of_infinity_le (h : infinityMagnitude f ≤ unsignedPattern f (s.reg .bits).toNat) :
    s.outputText f = nullText := by
  rw [← s.unsignedPattern_pattern f] at h
  rw [State.outputText, formatText, decompose_of_infinity_le h]
  split_ifs <;> rfl

/-- Settles O59: the digits are written as a number's text, which is a literal with an exponent part or with none. -/
theorem formatOfSpecialValues : Obligations.FormatOfSpecialValues := by
  intro f s u
  refine ⟨State.outputText_of_infinity_le, fun h => ?_, fun h0 hfin => ?_⟩
  · rw [State.outputText_of_zero h]
    split <;> simp [*] <;> rfl
  · obtain ⟨t, ht⟩ := exists_extracts f s
    have hd := State.extracted_isDecimal h0 hfin
    obtain ⟨hmant, hcount, hexp⟩ := ht.unsigned_of_isDecimal hd
    have hne := hd.number_ne_zero
    have hwf := wf_numberLiteral (isDigits_digitsOf hne) t.flags.n (s.extracted f).exp10 (head?_digitsOf hne)
    have htext : s.outputText f = numberText t.flags.n (digitsOf (s.extracted f).number) (s.extracted f).exp10 := by
      rw [State.outputText_of_finite h0 hfin, ht.flags]
    refine ⟨t, ht.exec, ?_⟩
    rw [hmant, hcount, hexp]
    refine ⟨hd.length_digitsOf, htext, ?_⟩
    rw [htext, ← text_numberLiteral, ← Literal.exp_eq_none_iff hwf, exp_numberLiteral_eq_none_iff,
      hd.length_digitsOf]

end Sys2Proof.Machine
end

section
/-! The round trip of a finite pattern's digits (46_api.md R113): they lie so near to the pattern's value that scaling
and rounding them gives the pattern back. -/

namespace Sys2Proof.Machine

/-! ### The gap between neighbours -/

section

variable {f : FloatFormat}

/-- Two patterns differ by at least the part 2^−p of the greater. -/
theorem magnitude_le_mul_gap {a b : Nat} (h : a < b) :
    magnitude f b ≤ 2 ^ f.precision * (magnitude f b - magnitude f a) := by
  obtain ⟨c, rfl⟩ := Nat.exists_eq_add_of_le' (Nat.zero_lt_of_lt h)
  obtain ⟨e, m, hc, rfl⟩ := exists_canonical f c
  have hle : magnitude f a ≤ m * ulp f e := hc.value ▸ (magnitude_strictMono f).monotone (Nat.le_of_lt_succ h)
  have hsig : (m + 1 : ℚ) ≤ 2 ^ f.precision := by exact_mod_cast hc.sig_lt
  have hgap : ulp f e ≤ (m + 1) * ulp f e - magnitude f a := by linarith
  rw [hc.value_succ]
  exact mul_le_mul hsig hgap (ulp_pos f e).le (by positivity)

/-- The pattern nearest to a value that lies within 2^−(p+1) of a pattern, relative to it, is that pattern. -/
theorem eq_of_nearestEven_of_near {w : ℚ} {b u : Nat} (h : NearestEven f w b) (hu : u ≤ infinityMagnitude f)
    (hnear : 2 ^ f.precision * (2 * |w - magnitude f u|) < magnitude f u) : b = u := by
  by_contra hne
  obtain ⟨-, hnearest⟩ := h
  obtain ⟨hle, -⟩ := hnearest u hu
  have hdist : |magnitude f b - magnitude f u| ≤ 2 * |w - magnitude f u| := by
    have htri := abs_sub_le (magnitude f b) w (magnitude f u)
    rw [abs_sub_comm (magnitude f b) w] at htri
    linarith
  have hgap : magnitude f u ≤ 2 ^ f.precision * |magnitude f b - magnitude f u| := by
    rcases Nat.lt_or_gt_of_ne hne with hlt | hlt
    · rw [abs_sub_comm]
      exact (magnitude_le_mul_gap hlt).trans (mul_le_mul_of_nonneg_left (le_abs_self _) (by positivity))
    · exact ((magnitude_strictMono f hlt).le.trans (magnitude_le_mul_gap hlt)).trans
        (mul_le_mul_of_nonneg_left (le_abs_self _) (by positivity))
  have hmul := mul_le_mul_of_nonneg_left hdist (show (0 : ℚ) ≤ 2 ^ f.precision by positivity)
  linarith

/-! ### Scaling and rounding the digits -/

/-- What RB and SB may stand for below bit 0 of a scaled significand: nothing, or half of its unit. -/
def Scaled.rest (x : Scaled) : ℚ := if (x.rb || x.sb) = false then 0 else 2 ^ (x.exp - 1)

theorem Scaled.rest_nonneg (x : Scaled) : 0 ≤ x.rest := by
  unfold Scaled.rest
  positivity

/-- The rest is small against a normalized value. -/
theorem Scaled.Normalized.rest_le {x : Scaled} (h : x.Normalized) : x.rest ≤ x.value / 2 ^ 127 := by
  have hsig : (2 : ℚ) ^ 127 ≤ x.sig := by exact_mod_cast h.le_sig
  have hunit : (0 : ℚ) < 2 ^ x.exp := by positivity
  have hhalf : (2 : ℚ) ^ (x.exp - 1) ≤ 2 ^ x.exp := zpow_le_zpow_right₀ one_le_two (by omega)
  have hvalue : (2 : ℚ) ^ x.exp ≤ x.value / 2 ^ 127 := by
    rw [Scaled.value, le_div_iff₀ (by positivity), mul_comm]
    exact mul_le_mul_of_nonneg_right hsig hunit.le
  unfold Scaled.rest
  split
  · exact hunit.le.trans hvalue
  · exact hhalf.trans hvalue

/-- ASSEMBLE of a normalized scaled value gives the pattern nearest to it, the rest included. -/
theorem Scaled.Normalized.nearestEven {x : Scaled} (h : x.Normalized) (f : FloatFormat) :
    NearestEven f (x.value + x.rest) (assembledMagnitude f x.sig x.exp (x.rb || x.sb)) := by
  have hsig : x.sig ≠ 0 := by have := h.le_sig; omega
  have hlog : x.sig.log2 = 127 :=
    (Nat.log2_eq_iff hsig).2 ⟨h.le_sig, h.sig_lt⟩
  have hlt : x.rest < 2 ^ (x.exp - 127 + x.sig.log2) := by
    have hunit : (0 : ℚ) < 2 ^ x.exp := by positivity
    rw [hlog, Nat.cast_ofNat, sub_add_cancel, Scaled.rest]
    split
    · exact hunit
    · exact zpow_lt_zpow_right₀ one_lt_two (by omega)
  refine nearestEven_assembledMagnitude f h.sig_lt (.inl hsig) x.rest_nonneg hlt ?_
  have hpow : (2 : ℚ) ^ (x.exp - 1) ≠ 0 := by positivity
  rw [Scaled.rest]
  split <;> simp [*]

end

/-- The digits of a value reach the decade of its first digit. -/
theorem IsDecimal.ten_zpow_le {v : ℚ} {d : DecimalDigits} (h : IsDecimal v d) :
    (10 : ℚ) ^ d.exp10 ≤ d.number * 10 ^ (d.exp10 + 1 - d.count) := by
  obtain ⟨c, hc⟩ := Nat.exists_eq_add_of_le' h.count_pos
  have hnumber := h.le_number
  rw [hc, Nat.add_sub_cancel] at hnumber
  have hnumber' : (10 : ℚ) ^ c ≤ d.number := by exact_mod_cast hnumber
  calc (10 : ℚ) ^ d.exp10 = 10 ^ c * 10 ^ (d.exp10 + 1 - d.count) := by
        rw [← zpow_natCast, ← zpow_add₀ (by norm_num), hc]
        congr 1
        push_cast
        ring
    _ ≤ _ := by gcongr

theorem IsDecimal.scale_spec {v : ℚ} {d : DecimalDigits} (h : IsDecimal v d) (r : Pow5Rounding) :
    (scale r d.number (d.exp10 + 1 - d.count)).Normalized ∧
      |(scale r d.number (d.exp10 + 1 - d.count)).value - d.number * 10 ^ (d.exp10 + 1 - d.count)| ≤
        d.number * 10 ^ (d.exp10 + 1 - d.count) / 2 ^ 120 := by
  have hne := h.number_ne_zero
  obtain ⟨-, hcount, -, hnumber, -, hlo, hhi, -⟩ := h
  have hlt : d.number < 2 ^ 64 :=
    (hnumber.trans_le (Nat.pow_le_pow_right (Nat.succ_pos 9) hcount)).trans (by decide)
  have hq : (d.exp10 + 1 - d.count).natAbs ≤ scaleRange := by
    rw [scaleRange]
    omega
  exact ⟨(scale_approximates r hne hlt hq).normalized, scale_near r hne hlt hq⟩

/-- 17 digits lie within 15/16 × 2^−54 of the value, relative to them, and leave room for the scaler's error. -/
theorem IsDecimal.near_relative {v : ℚ} {d : DecimalDigits} (h : IsDecimal v d) :
    |(d.number : ℚ) * 10 ^ (d.exp10 + 1 - d.count) - v| ≤
      d.number * 10 ^ (d.exp10 + 1 - d.count) * (15 / 16 / 2 ^ 54 - 1 / 2 ^ 110) := by
  have hten := h.ten_zpow_le
  have hdigits := h.near
  rw [zpow_sub₀ (by norm_num) d.exp10 16, zpow_ofNat] at hdigits
  have hp : (0 : ℚ) < 10 ^ d.exp10 := by positivity
  generalize (d.number : ℚ) * 10 ^ (d.exp10 + 1 - d.count) = w at *
  have hunit : (10 : ℚ) ^ d.exp10 / 10 ^ 16 ≤ w / 10 ^ 16 := by gcongr
  exact hdigits.trans (by linarith)

/-- 17 digits tell a pattern of at most 53 bits from its neighbours: scaled and assembled they give it back. -/
theorem IsDecimal.assembledMagnitude_eq {f : FloatFormat} {u : Nat} {d : DecimalDigits}
    (h : IsDecimal (magnitude f u) d) (hu : u ≤ infinityMagnitude f) (r : Pow5Rounding) {x : Scaled}
    (hx : scale r d.number (d.exp10 + 1 - d.count) = x) : assembledMagnitude f x.sig x.exp (x.rb || x.sb) = u := by
  obtain ⟨hnorm, hscale⟩ := h.scale_spec r
  have hdigits := h.near_relative
  have hpos : (0 : ℚ) < d.number * 10 ^ (d.exp10 + 1 - d.count) :=
    (show (0 : ℚ) < 10 ^ d.exp10 by positivity).trans_le h.ten_zpow_le
  rw [hx] at hnorm hscale
  have hrest := hnorm.rest_le
  have hrest0 := x.rest_nonneg
  refine eq_of_nearestEven_of_near (hnorm.nearestEven f) hu ?_
  generalize (d.number : ℚ) * 10 ^ (d.exp10 + 1 - d.count) = w at *
  generalize magnitude f u = v at *
  have hprec : (2 : ℚ) ^ f.precision ≤ 2 ^ 53 := by cases f <;> norm_num [FloatFormat.precision]
  have herr : |x.value + x.rest - v| ≤ w * (15 / 16 / 2 ^ 54) := by
    rw [abs_le] at hdigits hscale ⊢
    constructor <;> linarith
  have hv := (abs_le.1 hdigits).2
  calc 2 ^ f.precision * (2 * |x.value + x.rest - v|) ≤ 2 ^ 53 * (2 * (w * (15 / 16 / 2 ^ 54))) := by gcongr
    _ < v := by linarith

/-! ### PARSE's pattern -/

theorem literalPattern_zero (r : Pow5Rounding) (f : FloatFormat) (neg : Bool) (e : Int) (n : Nat) :
    literalPattern r f ⟨neg, 0, e, n⟩ = signBits f neg := by
  rw [literalPattern, scale_zero, assemble, if_pos rfl]

theorem IsDecimal.literalPattern_eq {f : FloatFormat} {u : Nat} {d : DecimalDigits} (h : IsDecimal (magnitude f u) d)
    (hu : u ≤ infinityMagnitude f) (r : Pow5Rounding) (neg : Bool) (n : Nat) :
    literalPattern r f ⟨neg, d.number, d.exp10 + 1 - d.count, n⟩ = signBits f neg + u := by
  rw [literalPattern, assemble_eq f neg _ _ _ (h.scale_spec r).1.sig_lt, h.assembledMagnitude_eq hu r rfl]

end Sys2Proof.Machine
end

section
/-! FORMAT's text of a finite pattern read back (45_extract_format.md R102, 46_api.md R113): the literal it is, SCAN and
PARSE of it, and FORMAT of what PARSE gave. -/

namespace Sys2Proof.Machine

/-! ### The literal of a finite pattern -/

section

variable {f : FloatFormat} {s : State}

/-- The literal that FORMAT writes of a finite pattern: '0' with its sign, or its digits. -/
def State.outputLiteral (s : State) (f : FloatFormat) : Literal :=
  if unsignedPattern f (s.reg .bits).toNat = 0 then ⟨(s.reg .bits).getLsbD (f.width - 1), [0], none, none⟩
  else numberLiteral ((s.reg .bits).getLsbD (f.width - 1)) (digitsOf (s.extracted f).number) (s.extracted f).exp10

theorem State.outputLiteral_of_zero (h : unsignedPattern f (s.reg .bits).toNat = 0) :
    s.outputLiteral f = ⟨(s.reg .bits).getLsbD (f.width - 1), [0], none, none⟩ := if_pos h

theorem State.outputLiteral_of_pos (h : 0 < unsignedPattern f (s.reg .bits).toNat) : s.outputLiteral f =
    numberLiteral ((s.reg .bits).getLsbD (f.width - 1)) (digitsOf (s.extracted f).number) (s.extracted f).exp10 :=
  if_neg h.ne'

theorem State.neg_outputLiteral (s : State) (f : FloatFormat) :
    (s.outputLiteral f).neg = (s.reg .bits).getLsbD (f.width - 1) := by
  rw [State.outputLiteral]
  split
  · rfl
  · exact neg_numberLiteral _ _ _

/-- A number's literal has the number for its mantissa, and the exponent of its last digit. -/
theorem IsDecimal.scanned_numberLiteral {v : ℚ} {d : DecimalDigits} (h : IsDecimal v d) (neg : Bool) :
    (numberLiteral neg (digitsOf d.number) d.exp10).mant = d.number ∧
      (numberLiteral neg (digitsOf d.number) d.exp10).exp10 = d.exp10 + 1 - d.count := by
  have hne := h.number_ne_zero
  have hlen := h.length_digitsOf
  have hcount := h.count_le
  have hsig := significant_numberLiteral neg d.exp10 (head?_digitsOf hne)
  have hexp := exponent_numberLiteral (isDigits_digitsOf hne) neg d.exp10
  have hshort : (numberLiteral neg (digitsOf d.number) d.exp10).significant.length ≤ 17 := by
    rwa [hsig, hlen]
  constructor
  · rw [Literal.mant, List.take_of_length_le hshort, hsig, digitsNumber_digitsOf]
  · have hlo := h.le_exp10
    have hhi := h.exp10_le
    rw [Literal.exp10_of_length_le hshort (by rw [hexp, abs_le]; omega), hexp, hlen]

/-- A pattern is its sign and the number below it. -/
theorem State.pattern_eq (s : State) (f : FloatFormat) : s.pattern f =
    signBits f ((s.reg .bits).getLsbD (f.width - 1)) + unsignedPattern f (s.reg .bits).toNat := by
  rw [State.pattern, State.unsigned, two_pow_width, Nat.mul_comm 2, Nat.mod_mul, signBits_eq, BitVec.getLsbD,
    Nat.toNat_testBit, unsignedPattern, Nat.add_comm, Nat.mul_comm (2 ^ _)]

variable (hfin : unsignedPattern f (s.reg .bits).toNat < infinityMagnitude f)
include hfin

theorem State.wf_outputLiteral : (s.outputLiteral f).wf = true := by
  rcases Nat.eq_zero_or_pos (unsignedPattern f (s.reg .bits).toNat) with h0 | h0
  · rw [State.outputLiteral_of_zero h0]
    rfl
  · have hne := (State.extracted_isDecimal h0 hfin).number_ne_zero
    rw [State.outputLiteral_of_pos h0]
    exact wf_numberLiteral (isDigits_digitsOf hne) _ _ (head?_digitsOf hne)

theorem State.text_outputLiteral : (s.outputLiteral f).text = s.outputText f := by
  rcases Nat.eq_zero_or_pos (unsignedPattern f (s.reg .bits).toNat) with h0 | h0
  · rw [State.outputLiteral_of_zero h0, State.outputText_of_zero h0]
    exact (List.append_nil _).trans (List.append_nil _)
  · rw [State.outputLiteral_of_pos h0, State.outputText_of_finite h0 hfin, text_numberLiteral]

/-- PARSE's pattern of the literal is the pattern it was written of (46_api.md R113). -/
theorem State.literalPattern_outputLiteral (r : Pow5Rounding) :
    literalPattern r f (s.outputLiteral f).scanned = s.pattern f := by
  rw [Literal.scanned, s.pattern_eq f, s.neg_outputLiteral f]
  rcases Nat.eq_zero_or_pos (unsignedPattern f (s.reg .bits).toNat) with h0 | h0
  · have hmant : (s.outputLiteral f).mant = 0 := by
      rw [State.outputLiteral_of_zero h0]
      rfl
    rw [hmant, literalPattern_zero, h0, Nat.add_zero]
  · have hd := State.extracted_isDecimal h0 hfin
    obtain ⟨hmant, hexp⟩ := hd.scanned_numberLiteral ((s.reg .bits).getLsbD (f.width - 1))
    rw [← State.outputLiteral_of_pos h0] at hmant hexp
    rw [hmant, hexp, hd.literalPattern_eq hfin.le]

end

/-! ### The text in memory -/

theorem Literal.endsBefore_none (l : Literal) : l.endsBefore none :=
  ⟨rfl, fun _ => ⟨nofun, nofun⟩, fun _ _ => nofun⟩

namespace Formats

variable {f : FloatFormat} {s t : State} (ht : Formats f s t)
include ht

theorem status : t.status.cause = .ok := by rw [ht.completes.status]

theorem addr : t.reg .addr = s.reg .addr := ht.completes.regs _ (by decide)

/-- The text is read back from where it was written. -/
theorem unsigned_addr (v : Word) : (t.setReg .endAddr v).unsigned .addr = s.outputBase := by
  rw [State.unsigned, State.reg_setReg, if_neg (by decide), ht.addr]
  rfl

theorem pos_eq : t.reg .pos = s.reg .addr + BitVec.ofNat 64 (s.outputText f).length := by rw [ht.pos, ht.len]

variable (hend : s.outputBase + (s.outputText f).length < 2 ^ 64)
include hend

/-- With END = POS the bounded text is FORMAT's. -/
theorem boundedLength : (t.setReg .endAddr (t.reg .pos)).boundedLength = (s.outputText f).length := by
  have hpos : (t.reg .pos).toNat = s.outputBase + (s.outputText f).length := by
    have hbase : (s.reg .addr).toNat = s.outputBase := rfl
    rw [ht.pos_eq, BitVec.toNat_add, BitVec.toNat_ofNat, Nat.add_mod_mod, hbase, Nat.mod_eq_of_lt hend]
  rw [State.boundedLength, ht.unsigned_addr, State.unsigned, State.reg_setReg, if_pos rfl, hpos,
    Nat.add_sub_cancel_left]

variable (hraced : s.raced = [])
  (hacc : ∀ j < (s.outputText f).length, portAccess s.params (s.outputBase + j) = .ok ())
include hraced hacc

/-- Read back with END = POS the text is the literal that it was written as. -/
theorem textIs {l : Literal} (hl : l.text = s.outputText f) :
    TextIs (t.setReg .endAddr (t.reg .pos)) .bounded l := by
  have hlen := ht.boundedLength hend
  rw [textIs_iff, hl]
  constructor
  · intro j hj
    have hread := ht.written j hj (by rw [hraced]; rfl)
    have haccess : portAccess (t.setReg .endAddr (t.reg .pos)).params (s.outputBase + j) = .ok () := by
      rw [State.params_setReg, ht.completes.params]
      exact hacc j hj
    have hseen := (t.setReg .endAddr (t.reg .pos)).seenByte_of_raced_nil ht.raced (s.outputBase + j)
    rw [State.mem_setReg, hread] at hseen
    rw [Nat.zero_add, State.peek, hlen, if_neg (fun h => Nat.not_le.2 hj h.2), ht.unsigned_addr,
      State.portRead_of_access haccess, hseen]
  · refine ⟨none, ?_, l.endsBefore_none⟩
    rw [State.peek, hlen, if_pos ⟨rfl, le_rfl⟩]

end Formats

/-! ### PARSE of the text -/

theorem exec_parse_of_textIs {f : FloatFormat} {s : State} {m : ScanMode} {l : Literal} (hwf : l.wf = true)
    (h : TextIs s m l) : exec (.parse f m) s = .next (((s.setPattern
      (literalPattern s.params.rounding f l.scanned)).setReg .pos (s.textPos l.text.length)).complete .ok) := by
  have hscan : s.scan m = .ok l.scanned := State.scan_ok_iff.2 ⟨l, hwf, h, rfl⟩
  simp only [exec, execParse, hscan]
  rfl

/-- `w` is what PARSE gives of the text that FORMAT of `s` left in `t`: the pattern FORMAT had. -/
structure ParsesBack (f : FloatFormat) (s t w : State) : Prop where
  exec : parseBack f t = .next w
  status : w.status.cause = .ok
  bits : (w.reg .bits).toNat = s.pattern f
  pos : w.reg .pos = s.reg .addr + t.reg .len
  addr : w.reg .addr = s.reg .addr
  params : w.params = s.params
  raced : w.raced = []
  mem : w.mem = t.mem

theorem State.pattern_lt (s : State) (f : FloatFormat) : s.pattern f < 2 ^ f.width :=
  Nat.mod_lt _ (Nat.two_pow_pos _)

section

variable {f : FloatFormat} {s t w : State}

theorem Formats.exists_parsesBack (ht : Formats f s t)
    (hfin : unsignedPattern f (s.reg .bits).toNat < infinityMagnitude f)
    (htext : TextIs (t.setReg .endAddr (t.reg .pos)) .bounded (s.outputLiteral f)) : ∃ w, ParsesBack f s t w := by
  have hexec := exec_parse_of_textIs (f := f) (State.wf_outputLiteral hfin) htext
  have hwidth : 2 ^ f.width ≤ 2 ^ 64 := by cases f <;> decide
  rw [State.literalPattern_outputLiteral hfin] at hexec
  refine ⟨_, hexec, by simp, ?_, ?_, ?_, by simp [ht.completes.params], by simp, by simp⟩
  · simpa using (s.pattern_lt f).trans_le hwidth
  · simp [State.textPos, State.unsigned, State.text_outputLiteral hfin, BitVec.ofNat_add, ht.addr, ht.len]
  · simp [ht.addr]

/-- What PARSE gave back has the same text. -/
theorem ParsesBack.outputText (h : ParsesBack f s t w) : w.outputText f = s.outputText f := by
  rw [State.outputText, State.pattern, State.unsigned, h.bits, Nat.mod_eq_of_lt (s.pattern_lt f), h.params]
  rfl

theorem ParsesBack.outputBase (h : ParsesBack f s t w) : w.outputBase = s.outputBase := by
  rw [State.outputBase, State.unsigned, h.addr]
  rfl

/-- FORMAT of it writes the bytes that stand there. -/
theorem ParsesBack.sameMemory {u : State} (h : ParsesBack f s t w) (hraced : s.raced = []) (ht : Formats f s t)
    (hu : Formats f w u) : SameMemory t u := by
  have htext := h.outputText
  have hbase := h.outputBase
  intro a
  by_cases ha : s.outputBase ≤ a ∧ a < s.outputBase + (s.outputText f).length
  · obtain ⟨j, rfl⟩ := Nat.exists_eq_add_of_le ha.1
    have hj : j < (s.outputText f).length := by omega
    have hread := hu.written j (by rwa [htext]) (by rw [h.raced]; rfl)
    have hread' := ht.written j hj (by rw [hraced]; rfl)
    simp only [htext, hbase] at hread
    rw [hread, hread']
  · rw [hu.kept a (by rw [htext, hbase]; omega), h.mem]

/-- Settles O60: the text is a literal, and its 17 digits give the pattern back. -/
theorem formattedTextScansBackToItsDigits : Obligations.FormattedTextScansBackToItsDigits := by
  intro f s hwf hraced hp hfin hacc
  have hlen := length_formatText_le s.params.rounding f (s.pattern f)
  have hacc' : ∀ j < (s.outputText f).length, portAccess s.params (s.outputBase + j) = .ok () :=
    fun j hj => hacc j (hj.le.trans hlen)
  obtain ⟨t, ht⟩ := exists_formats hwf hacc'
  have hend : s.outputBase + (s.outputText f).length < 2 ^ 64 := by
    have hwidth : 1 ≤ s.params.addrWidth ∧ s.params.addrWidth ≤ 64 := by simpa [Params.wf] using hp
    exact (portAccess_ok_lt (hacc _ hlen)).trans_le (Nat.pow_le_pow_right (by decide) hwidth.2)
  have htext := ht.textIs hend hraced hacc' (State.text_outputLiteral hfin)
  obtain ⟨w, hw⟩ := ht.exists_parsesBack hfin htext
  have haccw : ∀ j < (w.outputText f).length, portAccess w.params (w.outputBase + j) = .ok () := by
    rw [hw.outputText, hw.params, hw.outputBase]
    exact hacc'
  obtain ⟨u, hu⟩ := exists_formats (hw.mem ▸ ht.mem) haccw
  refine ⟨t, ht.exec, fun h0 => ?_, ⟨t, w, ht.exec, ht.status, hw.exec, hw.status, hw.bits, hw.pos⟩,
    ⟨t, w, u, ht.exec, hw.exec, hu.exec, hu.status, hw.outputText, ?_, hw.sameMemory hraced ht hu⟩⟩
  · obtain ⟨x, hx⟩ := exists_extracts f s
    have hd := State.extracted_isDecimal h0 hfin
    obtain ⟨hmant, hcount, hexp⟩ := hx.unsigned_of_isDecimal hd
    obtain ⟨hlmant, hlexp⟩ := hd.scanned_numberLiteral ((s.reg .bits).getLsbD (f.width - 1))
    rw [← State.outputLiteral_of_pos h0] at hlmant hlexp
    obtain ⟨v, hv, hok, hvmant, hvexp, hvflags, hvpos⟩ := exec_scan_of_textIs (State.wf_outputLiteral hfin) htext
    refine ⟨x, v, hx.exec, hv, hok, BitVec.eq_of_toNat_eq ?_, ?_, ?_, ?_⟩
    · rw [hvmant, hlmant, ← hmant, State.unsigned]
    · rw [hvflags, hx.flags, State.neg_outputLiteral]
    · rw [hvpos, State.text_outputLiteral hfin, ht.pos_eq, State.reg_setReg, if_neg (by decide), ht.addr]
    · rw [State.signed, hvexp, hlexp, hexp, hcount]
  · rw [hu.len, ht.len, hw.outputText]

end

end Sys2Proof.Machine
end

section
/-! NOP (46_api.md R111). -/

namespace Sys2Proof.Machine

/-- Settles O29: 0 is the word of NOP, whose meaning is completion alone. -/
theorem nopChangesOnlyStatus : Obligations.NopChangesOnlyStatus := by
  refine ⟨decode_eq_ok_iff.2 ⟨rfl, rfl⟩, fun s => ?_⟩
  have h : exec .nop s = .next (s.complete .ok) := (rfl)
  obtain ⟨hc, hmem⟩ := exec_frame h nofun
  exact ⟨_, h, hc, s.flags_complete _, hmem⟩

end Sys2Proof.Machine
end

section
/-! PARSE beside the sequence SCAN, SCALE, ASSEMBLE (46_api.md R107 to R109): what each command writes of a literal, and
the statements about PARSE. -/

namespace Sys2Proof.Machine

section

variable {f : FloatFormat} {m : ScanMode} {l : Literal} {s t u v w : State}

/-! ### SCAN and PARSE of a literal -/

/-- From `s` to `t` SCAN has completed with the values of the literal `l`, and left all else. -/
structure Scans (m : ScanMode) (l : Literal) (s t : State) : Prop where
  exec : exec (.scan m) s = .next t
  completes : Completes .ok [.mant, .exp10, .pos] s t
  mem : SameMemory s t
  mant : t.unsigned .mant = l.mant
  exp10 : t.signed .exp10 = l.exp10
  flags : t.flags = { s.flags with n := l.neg }
  pos : t.reg .pos = s.reg .addr + BitVec.ofNat 64 l.text.length

theorem exists_scans (hwf : l.wf = true) (h : TextIs s m l) : ∃ t, Scans m l s t := by
  obtain ⟨t, ht, hok, hmant, hexp, hflags, hpos⟩ := exec_scan_of_textIs hwf h
  obtain ⟨hc, hmem⟩ := exec_frame ht nofun
  rw [hok] at hc
  exact ⟨t, ht, hc, hmem, hmant, hexp, hflags, hpos⟩

/-- From `s` to `t` PARSE has completed with the pattern of the literal `l` and its end, and left all else. -/
structure Parses (f : FloatFormat) (m : ScanMode) (l : Literal) (s t : State) : Prop where
  exec : exec (.parse f m) s = .next t
  completes : Completes .ok [.bits, .pos] s t
  mem : SameMemory s t
  bits : t.reg .bits = BitVec.ofNat 64 (literalPattern s.params.rounding f l.scanned)
  flags : t.flags = s.flags
  pos : t.reg .pos = s.reg .addr + BitVec.ofNat 64 l.text.length

theorem exists_parses (f : FloatFormat) (hwf : l.wf = true) (h : TextIs s m l) : ∃ t, Parses f m l s t := by
  have hexec := exec_parse_of_textIs (f := f) hwf h
  obtain ⟨hc, hmem⟩ := exec_frame hexec nofun
  refine ⟨_, hexec, hc, hmem, by simp, by simp, ?_⟩
  simp [State.textPos, State.unsigned, BitVec.ofNat_add]

/-! ### The sequence -/

/-- SCALE after SCAN scales the literal's values. -/
theorem Scans.scaled (h : Scans m l s t) : t.scaled = scale s.params.rounding l.mant l.exp10 := by
  rw [State.scaled, h.completes.params, h.mant, h.exp10]

/-- SCALE accepts the exponent of a scan (43_scaler.md R79). -/
theorem Scans.natAbs_exp10_le (h : Scans m l s t) : (t.signed .exp10).natAbs ≤ scaleRange := by
  obtain ⟨hlo, hhi⟩ := l.exp10_bounds
  rw [h.exp10, scaleRange]
  omega

theorem Assembles.reg_bits (h : Assembles f s t) : t.reg .bits = BitVec.ofNat 64
    (assemble f s.flags.n (s.wide .pHi .pLo) (s.signed .bexp) s.flags.rb s.flags.sb) := by
  obtain rfl := Host.Outcome.next.inj ((exec_assemble f s).symm.trans h.exec)
  rw [State.reg_complete, State.reg_setPattern, if_pos rfl]

/-- What ASSEMBLE computes after SCALE. -/
theorem Scales.assembled (h : Scales s t) (f : FloatFormat) : t.assembled f =
    assembledMagnitude f s.scaled.sig s.scaled.exp (s.scaled.rb || s.scaled.sb) := by
  rw [State.assembled, h.wide, h.bexp, h.flags]

/-- PARSE of the literal `l` takes `s` to `t`; SCAN takes it to `u`, SCALE on to `v` and ASSEMBLE to `w`. -/
structure ParseSteps (f : FloatFormat) (m : ScanMode) (l : Literal) (s t u v w : State) : Prop where
  parse : Parses f m l s t
  scan : Scans m l s u
  scale : Scales u v
  assemble : Assembles f v w

theorem exists_parseSteps (f : FloatFormat) (hwf : l.wf = true) (h : TextIs s m l) :
    ∃ t u v w, ParseSteps f m l s t u v w := by
  obtain ⟨t, ht⟩ := exists_parses f hwf h
  obtain ⟨u, hu⟩ := exists_scans hwf h
  obtain ⟨v, hv⟩ := exists_scales hu.natAbs_exp10_le
  obtain ⟨w, hw⟩ := exists_assembles f v
  exact ⟨t, u, v, w, ht, hu, hv, hw⟩

namespace ParseSteps

variable (h : ParseSteps f m l s t u v w)
include h

/-- PARSE gives the BITS of the sequence (46_api.md R109). -/
theorem bits_eq : w.reg .bits = t.reg .bits := by
  rw [h.assemble.reg_bits, h.scale.wide, h.scale.bexp, h.scale.flags, h.scan.flags, h.scan.scaled, h.parse.bits]
  rfl

/-- PARSE and the sequence differ in the sequence's own operands only. -/
theorem reg_eq (r : DataReg) (hr : r ∉ [DataReg.mant, .exp10, .pHi, .pLo, .bexp]) : w.reg r = t.reg r := by
  rcases eq_or_ne r .bits with rfl | hbits
  · exact h.bits_eq
  simp only [List.mem_cons, List.not_mem_nil, or_false, not_or] at hr
  rw [h.assemble.completes.regs r (by simp [hbits]), h.scale.completes.regs r (by simp [hr])]
  rcases eq_or_ne r .pos with rfl | hpos
  · rw [h.scan.pos, h.parse.pos]
  · rw [h.scan.completes.regs r (by simp [hr, hpos]), h.parse.completes.regs r (by simp [hbits, hpos])]

theorem status_scan : t.status = u.status := by rw [h.parse.completes.status, h.scan.completes.status]

theorem status_assemble : w.status = t.status := by
  rw [h.assemble.completes.status, h.scale.completes.status, h.scan.completes.status, h.parse.completes.status]

theorem cls_eq : w.flags.cls = t.flags.cls := by
  rw [h.assemble.flags, h.scale.flags, h.scan.flags, h.parse.flags]

theorem sameMemory : SameMemory t w := fun a => by
  rw [h.assemble.mem, h.scale.mem, h.scan.mem, h.parse.mem]

/-- PARSE's pattern below the sign is the number assembled of the literal's scaled values. -/
theorem unsignedPattern_eq : unsignedPattern f (t.reg .bits).toNat =
    assembledMagnitude f u.scaled.sig u.scaled.exp (u.scaled.rb || u.scaled.sb) := by
  rw [← h.bits_eq, h.assemble.unsignedPattern_bits, h.scale.assembled]

theorem bits_div : (t.reg .bits).toNat / 2 ^ (f.width - 1) = l.neg.toNat := by
  rw [← h.bits_eq, h.assemble.bits_div, h.scale.flags, h.scan.flags]

theorem unsignedPattern_of_mant_eq_zero (hm : l.mant = 0) : unsignedPattern f (t.reg .bits).toNat = 0 := by
  rw [h.unsignedPattern_eq, h.scan.scaled, hm, scale_zero]
  exact if_pos rfl

end ParseSteps

/-! ### A scan that fails -/

/-- SCAN and PARSE end alike where the scan fails (46_api.md R109). -/
theorem exec_of_scan_error {i : Instr} {e : CmdError} (hi : i = .scan m ∨ ∃ f, i = .parse f m)
    (h : s.scan m = .error e) : exec i s = .next (s.raiseText e) := by
  rcases hi with rfl | ⟨f, rfl⟩ <;> simp only [exec, execScan, execParse, h]

/-! ### The number of an integer literal -/

/-- A mantissa scaled by 10^0 is exact, and what ASSEMBLE makes of it is nearest to it. -/
theorem nearestEven_scale_exponent_zero (f : FloatFormat) (r : Pow5Rounding) {n : Nat} (hlt : n < 2 ^ 64) {x : Scaled}
    (hx : scale r n 0 = x) : NearestEven f n (assembledMagnitude f x.sig x.exp (x.rb || x.sb)) := by
  subst hx
  rcases eq_or_ne n 0 with rfl | hn
  · rw [scale_zero, Nat.cast_zero]
    exact nearestEven_zero (by simpa using (ulp_pos f 0).le)
  · have hnear := (scale_approximates r hn hlt (q := 0) (by decide)).normalized.nearestEven f
    have hvalue : (scale r n 0).value + (scale r n 0).rest = n := by
      rw [scale_exponent_zero r hn, shiftExp_value, scaleInit_value, zpow_zero, mul_one]
      exact add_zero _
    rwa [hvalue] at hnear

/-- The values of an integer literal of at most 17 digits: nothing is dropped. -/
theorem Literal.mant_exp10_of_integer (hfrac : l.frac = none) (hexp : l.exp = none) (hlen : l.int.length ≤ 17) :
    l.mant = digitsNumber l.int ∧ l.exp10 = 0 := by
  have hdigits : l.fracDigits = [] := by rw [Literal.fracDigits, hfrac]; rfl
  have hvalue : l.expValue = 0 := by rw [Literal.expValue, hexp]
  have hsig : l.significant.length ≤ 17 := by
    rw [Literal.significant, hdigits, List.append_nil]
    exact (List.length_dropWhile_le _ _).trans hlen
  constructor
  · rw [Literal.mant_of_length_le hsig, hdigits, List.append_nil]
  · rw [Literal.exp10_of_length_le hsig] <;> simp [hdigits, hvalue]

end

/-! ### The obligations -/

/-- Settles O51: a scan that fails ends both commands alike, and one that succeeds has read a literal. -/
theorem parseIsScanScaleAssemble : Obligations.ParseIsScanScaleAssemble := by
  intro f m s
  rcases hscan : s.scan m with e | x
  · refine ⟨_, _, exec_of_scan_error (.inr ⟨f, rfl⟩) hscan, exec_of_scan_error (.inl rfl) hscan, rfl, rfl,
      fun hok => ?_⟩
    rw [(s.raiseText_frame e).1] at hok
    exact absurd hok e.cause_ne_ok
  · obtain ⟨l, hwf, htext, -⟩ := State.scan_ok_iff.1 hscan
    obtain ⟨t, u, v, w, h⟩ := exists_parseSteps f hwf htext
    refine ⟨t, u, h.parse.exec, h.scan.exec, h.status_scan, by rw [h.parse.pos, h.scan.pos], fun _ => ?_⟩
    exact ⟨v, w, h.scale.exec, by rw [h.scale.completes.status], h.assemble.exec, h.status_assemble, h.reg_eq, h.cls_eq,
      h.sameMemory⟩

/-- Settles O52: the sign and a zero by what the sequence gives. -/
theorem parseOfALiteralCompletes : Obligations.ParseOfALiteralCompletes := by
  intro f s m l _ hwf htext
  obtain ⟨t, u, v, w, h⟩ := exists_parseSteps f hwf htext
  exact ⟨t, h.parse.exec, h.parse.completes, h.parse.flags, h.parse.mem, h.bits_div, h.unsignedPattern_of_mant_eq_zero,
    h.parse.pos⟩

/-- Settles O53: the literal's number is the mantissa, scaled by 10^0. -/
theorem parseRoundsShortIntegersCorrectly : Obligations.ParseRoundsShortIntegersCorrectly := by
  intro f s m l _ hwf htext hfrac hexp hlen
  obtain ⟨t, u, v, w, h⟩ := exists_parseSteps f hwf htext
  obtain ⟨hmant, hexp10⟩ := Literal.mant_exp10_of_integer hfrac hexp hlen
  have hlt : l.mant < 2 ^ 64 := (Literal.mant_lt hwf).trans (by decide)
  have hscaled := h.scan.scaled
  rw [hexp10] at hscaled
  refine ⟨t, h.parse.exec, by rw [h.parse.completes.status], ?_⟩
  rw [h.unsignedPattern_eq, ← hmant]
  exact nearestEven_scale_exponent_zero f _ hlt hscaled.symm

end Sys2Proof.Machine
end

section
/-! How a command ends (60_exceptions.md R115 to R118): the codes of each command, the registers an error records, and a
CMD write of an illegal word. -/

namespace Sys2Proof.Machine

/-! ### SCAN and PARSE -/

/-- The two ways SCAN and PARSE end: with the error of the scan, or with OK. -/
theorem exec_text_cases {s t : State} {i : Instr} {m : ScanMode} (hi : i = .scan m ∨ ∃ f, i = .parse f m)
    (h : exec i s = .next t) : (∃ e, s.scan m = .error e ∧ t = s.raiseText e) ∨ t.status.cause = .ok := by
  rcases hscan : s.scan m with e | r
  · exact .inl ⟨e, rfl, Host.Outcome.next.inj (h.symm.trans (exec_of_scan_error hi hscan))⟩
  · right
    rcases hi with rfl | ⟨f, rfl⟩ <;> simp only [exec, execScan, execParse, hscan] at h <;> cases h <;> rfl

/-- A code other than OK of SCAN or PARSE is that of the scan's error. -/
theorem scan_error_of_exec {s t : State} {i : Instr} {m : ScanMode} (hi : i = .scan m ∨ ∃ f, i = .parse f m)
    (h : exec i s = .next t) (hc : t.status.cause ≠ .ok) :
    ∃ e, s.scan m = .error e ∧ t.status.cause = e.cause ∧ t = s.raiseText e := by
  obtain ⟨e, he, rfl⟩ := (exec_text_cases hi h).resolve_right hc
  exact ⟨e, he, (s.raiseText_frame e).1, rfl⟩

theorem CmdError.cause_eq_invalidArgument {e : CmdError} : e.cause = .invalidArgument ↔ e = .invalidArgument := by
  cases e <;> simp [CmdError.cause]

theorem CmdError.cause_eq_memoryFault {e : CmdError} : e.cause = .memoryFault ↔ ∃ a, e = .memoryFault a := by
  cases e <;> simp [CmdError.cause]

/-! ### The codes of a command (60_exceptions.md R115) -/

theorem ok_mem_causesOf (i : Instr) : .ok ∈ causesOf i := by cases i <;> simp [causesOf]

theorem cause_of_exec_text {s t : State} {i : Instr} {m : ScanMode} (hi : i = .scan m ∨ ∃ f, i = .parse f m)
    (h : exec i s = .next t) : t.status.cause ∈ causesOf i := by
  have hcodes : causesOf i = [.ok, .invalidArgument, .memoryFault] := by rcases hi with rfl | ⟨f, rfl⟩ <;> rfl
  rw [hcodes]
  rcases exec_text_cases hi h with ⟨e, he, rfl⟩ | hok
  · rw [(s.raiseText_frame e).1]
    rcases State.scan_error he with rfl | ⟨a, rfl⟩ <;> simp [CmdError.cause]
  · simp [hok]

/-- The port raises FORMAT's errors, whatever the memory holds. -/
theorem State.portWrites_error {s : State} {m : Memory} {base j : Nat} {bs : List Byte} {e : CmdError}
    (h : (s.portWrites m base bs).2 = some (j, e)) : ∃ a, e = .memoryFault a := by
  rw [State.portWrites_fault_congr (s := s) (s' := s) rfl bs [] m base] at h
  obtain ⟨-, -, -, hfault, -⟩ := s.portWrites_spec bs [] base rfl
  exact portAccess_error (hfault j e h).2

theorem cause_of_exec_format {s t : State} {f : FloatFormat} (h : exec (.format f) s = .next t) :
    t.status.cause ∈ causesOf (.format f) := by
  simp only [exec, execFormat] at h
  rcases hw : s.portWrites s.mem s.outputBase (s.outputText f) with ⟨m, - | ⟨j, e⟩⟩ <;> rw [hw] at h <;> cases h
  · exact ok_mem_causesOf _
  · obtain ⟨a, rfl⟩ := State.portWrites_error (congrArg Prod.snd hw)
    simp [State.raiseWrite, causesOf]

theorem cause_of_exec {i : Instr} {s t : State} (hwf : i.wf = true) (h : exec i s = .next t) :
    t.status.cause ∈ causesOf i := by
  cases i with
  | pow5 tbl k =>
    obtain rfl := Host.Outcome.next.inj ((exec_pow5 (of_decide_eq_true hwf) tbl s).symm.trans h)
    exact ok_mem_causesOf _
  | scan m => exact cause_of_exec_text (.inl rfl) h
  | parse f m => exact cause_of_exec_text (.inr ⟨f, rfl⟩) h
  | format f => exact cause_of_exec_format h
  | scale =>
    rcases le_or_gt (s.signed .exp10).natAbs scaleRange with hq | hq
    · obtain rfl := Host.Outcome.next.inj ((exec_scale_of_le hq).symm.trans h)
      exact ok_mem_causesOf _
    · obtain rfl := Host.Outcome.next.inj ((exec_scale_of_lt hq).symm.trans h)
      simp [causesOf]
  | nop => cases h; exact ok_mem_causesOf _
  | mul64 => cases h; exact ok_mem_causesOf _
  | mul128 => cases h; exact ok_mem_causesOf _
  | assemble f => cases h; exact ok_mem_causesOf _
  | extract f => cases h; exact ok_mem_causesOf _

/-- Settles O21: every command answers a completion, and its code is one of its row. -/
theorem everyCommandCompletesWithItsCodes : Obligations.EveryCommandCompletesWithItsCodes := by
  intro i s hwf
  obtain ⟨t, h, hw⟩ := exec_writesOnly i s
  have hstatus := (completes_of_exec h hw.regs).status
  refine ⟨t, h, ?_, ?_, cause_of_exec hwf h, ?_⟩ <;> rw [hstatus]

/-! ### What an error records (60_exceptions.md R116) -/

/-- Only SCAN and PARSE raise INVALID_ARGUMENT. -/
theorem reads_text_of_invalidArgument {i : Instr} (h : .invalidArgument ∈ causesOf i) :
    ∃ m, i = .scan m ∨ ∃ f, i = .parse f m := by
  cases i with
  | scan m => exact ⟨m, .inl rfl⟩
  | parse f m => exact ⟨m, .inr ⟨f, rfl⟩⟩
  | _ => simp [causesOf] at h

/-- An error records POS, and FORMAT's LEN, at most. -/
theorem mem_writesOf_error {i : Instr} {c : Cause} {r : DataReg} (hc : c ≠ .ok) (h : r ∈ writesOf i c) :
    r = .pos ∨ r = .len ∧ ∃ f, i = .format f := by
  cases c with
  | ok => exact absurd rfl hc
  | invalidArgument => cases i <;> simp_all [writesOf]
  | memoryFault => cases i <;> simp_all [writesOf, or_comm]
  | _ => cases i <;> simp [writesOf] at h

theorem writesOf_operandRange (i : Instr) : writesOf i .operandRange = [] := by cases i <;> rfl

theorem pos_of_invalidArgument {i : Instr} {s t : State} (hwf : i.wf = true) (h : exec i s = .next t)
    (hc : t.status.cause = .invalidArgument) : t.reg .pos = s.reg .addr := by
  obtain ⟨m, hi⟩ := reads_text_of_invalidArgument (hc ▸ cause_of_exec hwf h)
  obtain ⟨e, -, he, rfl⟩ := scan_error_of_exec hi h (by simp [hc])
  obtain rfl := CmdError.cause_eq_invalidArgument.1 (he.symm.trans hc)
  simp [State.raiseText]

theorem Flags.ext_fields {a b : Flags} (hn : a.n = b.n) (hrb : a.rb = b.rb) (hsb : a.sb = b.sb)
    (hcls : a.cls = b.cls) : a = b := by
  cases a
  cases b
  simp_all

/-- Settles O23: the tables of R24 and R20 at an error's code. -/
theorem errorsWriteOnlyTheRecordedValues : Obligations.ErrorsWriteOnlyTheRecordedValues := by
  intro i s t hwf h hc
  obtain ⟨t', h', hw⟩ := exec_writesOnly i s
  obtain rfl : t' = t := by simpa [h'] using h
  obtain ⟨hsign, hrounding, hcls⟩ := writesFlags_of_error i hc
  obtain ⟨hrb, hsb⟩ := hw.rounding hrounding
  have hregs : ∀ r, r ≠ .pos → (r = .len → ∀ f, i ≠ .format f) → t'.reg r = s.reg r := fun r hpos hlen =>
    hw.regs r fun hr => (mem_writesOf_error hc hr).elim hpos fun ⟨hr, f, hi⟩ => hlen hr f hi
  have hflags : t'.flags = s.flags := Flags.ext_fields (hw.sign hsign) hrb hsb (hw.cls hcls)
  refine ⟨hflags, pos_of_invalidArgument hwf h, fun hrange r => hw.regs r ?_,
    fun r hpos hlen => hregs r hpos fun hr => absurd hr hlen,
    fun hi => ⟨hregs .len (by decide) fun _ => hi, (exec_frame h hi).2⟩⟩
  simp [hrange, writesOf_operandRange]

/-! ### Illegal words (60_exceptions.md R118) -/

theorem State.issue_of_illegal {v : Word} {e : IllegalWord} (h : decode v = .error e) (s : State) : s.issue v =
    { s with cmd := v, status := ⟨false, true, .illegalCommand, false⟩, raced := [] } := by
  simp only [State.issue, h]
  rfl

/-- Settles O7: the CMD write issues the word, which completes at once. -/
theorem illegalCmdWriteChangesOnlyStatus : Obligations.IllegalCmdWriteChangesOnlyStatus := by
  intro s v e ops hb hv h
  refine ⟨s.popInbox.issue v, step_writeIdle (r := .cmd) hb h, ?_⟩
  rw [State.issue_of_illegal hv]
  exact ⟨rfl, rfl, rfl, by simp [h], fun _ => rfl, rfl, rfl, fun _ => rfl⟩

/-! ### A fault of FORMAT (60_exceptions.md R119) -/

/-- The first write that the memory does not complete ends the writes. -/
theorem State.portWrites_fault {s : State} {f : FloatFormat} {j : Nat} {e : CmdError} (hwf : Memory.wf s.mem = true)
    (hj : j < (s.outputText f).length) (hacc : ∀ i < j, portAccess s.params (s.outputBase + i) = .ok ())
    (herr : portAccess s.params (s.outputBase + j) = .error e) :
    (s.portWrites s.mem s.outputBase (s.outputText f)).2 = some (j, e) := by
  obtain ⟨-, -, hdone, hfault, -⟩ := s.portWrites_spec (s.outputText f) s.mem s.outputBase hwf
  rcases hw : (s.portWrites s.mem s.outputBase (s.outputText f)).2 with - | ⟨k, e'⟩ <;> rw [hw] at hdone hfault
  · rw [hdone j hj] at herr
    cases herr
  · obtain ⟨-, hk⟩ := hfault k e' rfl
    rcases lt_trichotomy j k with hlt | rfl | hlt
    · rw [hdone j hlt] at herr
      cases herr
    · obtain rfl : e = e' := Except.error.inj (herr.symm.trans hk)
      rfl
    · rw [hacc k hlt] at hk
      cases hk

theorem exec_format_of_fault {f : FloatFormat} {s : State} {j : Nat} {e : CmdError}
    (h : (s.portWrites s.mem s.outputBase (s.outputText f)).2 = some (j, e)) :
    exec (.format f) s = .next ((s.setMem (memAfter (.format f) s)).raiseWrite j e) := by
  obtain ⟨m, hm⟩ : ∃ m, s.portWrites s.mem s.outputBase (s.outputText f) = (m, some (j, e)) := ⟨_, Prod.ext rfl h⟩
  simp only [exec, execFormat, memAfter, hm]

/-- Settles O57: FORMAT's writes end at byte j, and what they leave is the bytes before it. -/
theorem formatFaultKeepsTheBytesBeforeIt : Obligations.FormatFaultKeepsTheBytesBeforeIt := by
  intro f s j a hwf hj hacc herr
  have hfault := State.portWrites_fault hwf hj hacc herr
  have hexec := exec_format_of_fault hfault
  have hwritten : s.bytesWritten f = j := by rw [State.bytesWritten, hfault, writesDone]
  have hread := read_of_format hwf hexec
  rw [hwritten] at hread
  obtain ⟨hcause, hflags, hregs⟩ := (s.setMem (memAfter (.format f) s)).raiseWrite_frame j (.memoryFault a)
  have hc := completes_of_exec hexec (hregs f)
  rw [hcause] at hc
  refine ⟨_, hexec, hc, hflags, by simp [State.raiseWrite], by simp [State.raiseWrite], fun i hi hrace => ?_,
    fun b hb => ?_⟩
  · rw [hread, if_pos (by omega), State.leftByte, hrace, Nat.add_sub_cancel_left,
      List.getD_eq_getElem _ _ (hi.trans hj), List.getElem?_eq_getElem]
  · rw [hread, if_neg (by omega)]

end Sys2Proof.Machine
end

section
/-! The errors of the scanner (60_exceptions.md R117, R119, R121): INVALID_ARGUMENT where the text violates the grammar,
MEMORY_FAULT at the first byte of the text that the memory does not complete. -/

namespace Sys2Proof.Machine

/-! ### Faults -/

open Classical in
/-- The text with EOT in place of what the cursor cannot come to. -/
noncomputable def reachedOnly (peek : Peek) : Peek := fun j => if Reached peek j then peek j else .ok none

theorem scanText_reachedOnly (peek : Peek) (fuel : Nat) : scanText (reachedOnly peek) fuel = scanText peek fuel :=
  scanText_congr (fun _ hj => if_pos hj) fuel

/-- The scanner raises the fault of a byte that its cursor has come to. -/
theorem scanText_fault {peek : Peek} {fuel a : Nat} (h : scanText peek fuel = .error (.memoryFault a)) :
    ∃ j, Reached peek j ∧ peek j = .error (.memoryFault a) := by
  rw [← scanText_reachedOnly] at h
  obtain ⟨j, hj⟩ := (scanText_error h).resolve_left nofun
  unfold reachedOnly at hj
  split at hj
  · next hreached => exact ⟨j, hreached, hj⟩
  · cases hj

theorem scanText_of_first_fault {peek : Peek} {e : CmdError} (h : peek 0 = .error e) (fuel : Nat) :
    scanText peek fuel = .error e := by
  simp only [scanText, scanSign, h]

/-! ### INVALID_ARGUMENT, part by part -/

section

variable {peek : Peek} {fuel i N : Nat}

theorem scanSign_ne_invalid (hP : ∀ j, peek j ≠ .error .invalidArgument) : scanSign peek ≠ .error .invalidArgument := by
  unfold scanSign
  rcases hc : peek 0 with e | c
  · simpa [hc] using hP 0
  · nofun

theorem digitRun_ne_invalid (hP : ∀ j, peek j ≠ .error .invalidArgument) (fuel i : Nat) :
    digitRun peek fuel i ≠ .error .invalidArgument := fun h =>
  let ⟨j, hj⟩ := digitRun_error h
  hP j hj

/-- No digit at all, or a '0' before a digit. -/
theorem scanInt_invalid_iff (hP : ∀ j, peek j ≠ .error .invalidArgument) :
    scanInt peek fuel i = .error .invalidArgument ↔ (∃ c, peek i = .ok c ∧ isDigit c = false) ∨
      peek i = .ok (some chZero) ∧ ∃ c, peek (i + 1) = .ok c ∧ isDigit c = true := by
  unfold scanInt
  rcases hc : peek i with e | c
  · simpa [hc] using hP i
  by_cases hz : c = some chZero
  · have hzero : isDigit (some chZero) = true := by decide
    subst hz
    rcases hc1 : peek (i + 1) with e | c1
    · simpa [hzero, hc1] using hP (i + 1)
    · cases hd1 : isDigit c1 <;> simp [hzero, hd1]
  · cases hd : isDigit c
    · simp [hd]
    · rcases hr : digitRun peek fuel i with e | ds
      · simpa [hd, hz, hr] using digitRun_ne_invalid hP fuel i
      · simp [hd, hz]

/-- The scan raises INVALID_ARGUMENT in the integer, the fraction or the exponent part. -/
theorem scanText_invalid_iff (hP : ∀ j, peek j ≠ .error .invalidArgument) :
    scanText peek fuel = .error .invalidArgument ↔
    ∃ neg, scanSign peek = .ok neg ∧ (scanInt peek fuel neg.toNat = .error .invalidArgument ∨
      ∃ x i, scanInt peek fuel neg.toNat = .ok (x, i) ∧ (scanFrac peek fuel x i = .error .invalidArgument ∨
        ∃ y j, scanFrac peek fuel x i = .ok (y, j) ∧ scanExp peek fuel j = .error .invalidArgument)) := by
  unfold scanText
  rcases hs : scanSign peek with e | neg
  · simpa [hs] using scanSign_ne_invalid hP
  · rcases hx : scanInt peek fuel neg.toNat with e | ⟨x, i⟩
    · simp [hx]
    · rcases hy : scanFrac peek fuel x i with e | ⟨y, j⟩
      · simp [hx, hy]
      · rcases hv : scanExp peek fuel j with e | ⟨v, n⟩ <;> simp [hx, hy, hv]

variable (hN : ∀ j c, peek j = .ok (some c) → j < N) (hf : N < fuel) (hP : ∀ j, peek j ≠ .error .invalidArgument)
include hN hf hP

theorem digitRun1_invalid_iff :
    digitRun1 peek fuel i = .error .invalidArgument ↔ ∃ c, peek i = .ok c ∧ isDigit c = false := by
  have hnil : digitRun peek fuel i = .ok [] ↔ ∃ c, peek i = .ok c ∧ isDigit c = false := by
    simp [digitRun_ok_iff hN hf, digitsText]
  rw [← hnil, digitRun1]
  rcases hr : digitRun peek fuel i with e | - | ⟨d, ds⟩
  · simpa [hr] using digitRun_ne_invalid hP fuel i
  · simp
  · simp

/-- A point before what is no digit. -/
theorem scanFrac_invalid_iff {x : Accum} : scanFrac peek fuel x i = .error .invalidArgument ↔
    peek i = .ok (some chDot) ∧ ∃ c, peek (i + 1) = .ok c ∧ isDigit c = false := by
  rw [← digitRun1_invalid_iff hN hf hP, scanFrac]
  rcases hc : peek i with e | c
  · simpa [hc] using hP i
  · by_cases hdot : c = some chDot
    · cases hr : digitRun1 peek fuel (i + 1) <;> simp [hdot]
    · simp [hdot]

/-- A marker, with a sign or without, before what is no digit. -/
theorem scanExp_invalid_iff : scanExp peek fuel i = .error .invalidArgument ↔
    ∃ upper g, peek i = .ok (some (expMarker upper)) ∧ peek (i + 1) = .ok g ∧
      ∃ c, peek (i + 1 + (isSign g).toNat) = .ok c ∧ isDigit c = false := by
  simp only [← digitRun1_invalid_iff hN hf hP, scanExp, cursor_after_sign, isMarker_iff]
  rcases hc : peek i with e | c
  · simpa [hc] using hP i
  by_cases hmark : ∃ upper, c = some (expMarker upper)
  · rcases hg : peek (i + 1) with e | g
    · simpa [hmark, hg] using hP (i + 1)
    · cases hr : digitRun1 peek fuel (i + 1 + (isSign g).toNat) <;> simp [hmark, hr]
  · simp [hmark]

end

/-! ### The literal before the violation -/

/-- The text begins with a literal that has no exponent part, and what follows it, `c`, is no digit. -/
structure BeginsWith (peek : Peek) (l : Literal) (c : Option Byte) : Prop where
  wf : l.wf = true
  noExp : l.exp = none
  reads : ReadsAt peek 0 l.text
  next : peek l.text.length = .ok c
  noDigit : isDigit c = false

section

variable {peek : Peek} {fuel n N : Nat} {l : Literal} {c : Option Byte}
  (hN : ∀ j c, peek j = .ok (some c) → j < N) (hf : N < fuel)
include hN hf

/-- The scanner reads the sign and the integer part, which end before a byte that is no digit. -/
theorem BeginsWith.scanInt_ok (h : BeginsWith peek l c) : scanSign peek = .ok l.neg ∧
    (∃ x, scanInt peek fuel l.neg.toNat = .ok (x, l.neg.toNat + l.int.length)) ∧
    (∃ b, peek (l.neg.toNat + l.int.length) = .ok b ∧ isDigit b = false) ∧
    ReadsAt peek (l.neg.toNat + l.int.length) (fracText l.frac) := by
  obtain ⟨hwf, hexp, hreads, hnext, hdigit⟩ := h
  obtain ⟨hint, -, -⟩ := Literal.wf_iff.1 hwf
  obtain ⟨hsignInt, hreadsFrac, -⟩ := Literal.readsAt_text_iff.1 hreads
  have hreadsInt : ReadsAt peek l.neg.toNat (digitsText l.int) := by
    simpa [length_signText] using (readsAt_append.1 hsignInt).2
  rw [Literal.length_text, hexp] at hnext
  have hafter : ∃ b, peek (l.neg.toNat + l.int.length) = .ok b ∧ isDigit b = false := by
    refine ⟨_, hreadsFrac.head hnext, ?_⟩
    cases l.frac with
    | none => exact hdigit
    | some fs => rfl
  exact ⟨scanSign_of_reads hint.1 hsignInt,
    ⟨_, (scanInt_ok_iff_reads hN hf).2 ⟨l.int, hint, hreadsInt, hafter, rfl, rfl⟩⟩, hafter, hreadsFrac⟩

/-- The scanner reads the literal up to its end. -/
theorem BeginsWith.scanFrac_ok (h : BeginsWith peek l c) (hdot : l.frac = none → c ≠ some chDot) :
    scanSign peek = .ok l.neg ∧ ∃ x i y, scanInt peek fuel l.neg.toNat = .ok (x, i) ∧
      scanFrac peek fuel x i = .ok (y, l.text.length) := by
  obtain ⟨hsign, ⟨x, hx⟩, hafter, hreadsFrac⟩ := h.scanInt_ok hN hf
  obtain ⟨-, hfrac, -⟩ := Literal.wf_iff.1 h.wf
  refine ⟨hsign, x, _, _, hx, (scanFrac_ok_iff_reads hN hf hafter).2
    ⟨l.frac, hfrac, hreadsFrac, ⟨c, h.next, h.noDigit, hdot⟩, rfl, ?_⟩⟩
  rw [Literal.length_text, h.noExp]
  rfl

/-- A sign and an integer part that the scanner has read are a literal. -/
theorem exists_beginsWith_of_scanInt {neg : Bool} {x : Accum} (hsign : scanSign peek = .ok neg)
    (hx : scanInt peek fuel neg.toNat = .ok (x, n)) :
    ∃ l c, BeginsWith peek l c ∧ l.frac = none ∧ n = l.text.length := by
  obtain ⟨ds, hint, hreadsInt, ⟨c, hc, hdigit⟩, -, rfl⟩ := (scanInt_ok_iff_reads hN hf).1 hx
  have hlen : (⟨neg, ds, none, none⟩ : Literal).text.length = neg.toNat + ds.length := Literal.length_text _
  refine ⟨⟨neg, ds, none, none⟩, c, ⟨Literal.wf_iff.2 ⟨hint, nofun, nofun⟩, rfl, ?_, hlen ▸ hc, hdigit⟩, rfl,
    hlen.symm⟩
  refine Literal.readsAt_text_iff.2 ⟨readsAt_append.2 ⟨reads_signText_of_scanSign hsign, ?_⟩, readsAt_nil, readsAt_nil⟩
  simpa [length_signText] using hreadsInt

/-- A sign, an integer part and a fraction part, or none, that the scanner has read are a literal. -/
theorem exists_beginsWith_of_scanFrac {neg : Bool} {x y : Accum} {i : Nat} (hsign : scanSign peek = .ok neg)
    (hx : scanInt peek fuel neg.toNat = .ok (x, i)) (hy : scanFrac peek fuel x i = .ok (y, n)) :
    ∃ l c, BeginsWith peek l c ∧ n = l.text.length := by
  obtain ⟨l, b, hbegins, hnone, rfl⟩ := exists_beginsWith_of_scanInt hN hf hsign hx
  obtain ⟨fr, hfrac, hreadsFrac, ⟨c, hc, hdigit, -⟩, -, rfl⟩ :=
    (scanFrac_ok_iff_reads hN hf ⟨b, hbegins.next, hbegins.noDigit⟩).1 hy
  obtain ⟨hint, -, -⟩ := Literal.wf_iff.1 hbegins.wf
  have htext : (⟨l.neg, l.int, fr, none⟩ : Literal).text = l.text ++ fracText fr := by
    simp [Literal.text_eq, hnone, hbegins.noExp, fracText, expText]
  refine ⟨⟨l.neg, l.int, fr, none⟩, c, ⟨Literal.wf_iff.2 ⟨hint, hfrac, nofun⟩, rfl, ?_, ?_, hdigit⟩, ?_⟩
  · exact htext ▸ readsAt_append.2 ⟨hbegins.reads, by simpa using hreadsFrac⟩
  · rw [htext, List.length_append, hc]
  · rw [htext, List.length_append]

end

/-! ### The grammar's violations (42_scanner.md R68, 60_exceptions.md R117) -/

section

variable {s : State} {m : ScanMode}

theorem State.textBegins_iff {bs : List Byte} : s.textBegins m bs ↔ ReadsAt (s.peek m) 0 bs := by
  simp only [State.textBegins, ReadsAt, Nat.zero_add]

/-- The port raises no INVALID_ARGUMENT. -/
theorem State.peek_ne_invalid (j : Nat) : s.peek m j ≠ .error .invalidArgument := fun h => by
  obtain ⟨a, ha⟩ := State.peek_error h
  cases ha

theorem State.offset_lt_of_peek (j : Nat) (c : Byte) (h : s.peek m j = .ok (some c)) : j < 2 ^ s.params.addrWidth :=
  (Nat.le_add_left _ _).trans_lt (State.peek_some_lt h)

theorem State.lt_scanFuel (s : State) : 2 ^ s.params.addrWidth < s.scanFuel := Nat.lt_succ_self _

/-- The integer part fails at a text with none, or with a digit after its '0'. -/
theorem State.grammarError_of_scanInt {neg : Bool} (hsign : scanSign (s.peek m) = .ok neg)
    (h : scanInt (s.peek m) s.scanFuel neg.toNat = .error .invalidArgument) : s.GrammarError m := by
  have hreads := reads_signText_of_scanSign hsign
  rcases (scanInt_invalid_iff State.peek_ne_invalid).1 h with ⟨c, hc, hdigit⟩ | ⟨hzero, c, hc, hdigit⟩
  · refine .noInteger neg c (State.textBegins_iff.2 hreads) hc ?_ hdigit
    rintro rfl rfl
    obtain ⟨b, hb, hminus⟩ := scanSign_ok_iff.1 hsign
    obtain rfl : b = some chMinus := Except.ok.inj (hb.symm.trans hc)
    cases hminus
  · refine .leadingZero neg c (State.textBegins_iff.2 (readsAt_append.2 ⟨hreads, ?_⟩)) hc hdigit
    rw [length_signText, Nat.zero_add]
    exact readsAt_cons.2 ⟨hzero, readsAt_nil⟩

/-- The fraction part fails at a point that no digit follows. -/
theorem State.grammarError_of_scanFrac {neg : Bool} {x : Accum} {i : Nat} (hsign : scanSign (s.peek m) = .ok neg)
    (hx : scanInt (s.peek m) s.scanFuel neg.toNat = .ok (x, i))
    (h : scanFrac (s.peek m) s.scanFuel x i = .error .invalidArgument) : s.GrammarError m := by
  obtain ⟨l, _, hbegins, hnone, rfl⟩ := exists_beginsWith_of_scanInt State.offset_lt_of_peek s.lt_scanFuel hsign hx
  obtain ⟨hdot, c, hc, hdigit⟩ := (scanFrac_invalid_iff State.offset_lt_of_peek s.lt_scanFuel State.peek_ne_invalid).1 h
  refine .noFraction l c hbegins.wf hnone hbegins.noExp (State.textBegins_iff.2 (readsAt_append.2 ⟨hbegins.reads, ?_⟩))
    hc hdigit
  exact readsAt_cons.2 ⟨by rwa [Nat.zero_add], readsAt_nil⟩

/-- The exponent part fails at a marker, with a sign or without, that no digit follows. -/
theorem State.grammarError_of_scanExp {l : Literal} {b : Option Byte} (hbegins : BeginsWith (s.peek m) l b)
    (h : scanExp (s.peek m) s.scanFuel l.text.length = .error .invalidArgument) : s.GrammarError m := by
  obtain ⟨upper, g, hmark, hg, c, hc, hdigit⟩ :=
    (scanExp_invalid_iff State.offset_lt_of_peek s.lt_scanFuel State.peek_ne_invalid).1 h
  obtain ⟨sign, hsign, hexp⟩ := exists_beginsExponent hg
  have hreads : s.textBegins m (l.text ++ expMarker upper :: expSignText sign) :=
    State.textBegins_iff.2 (readsAt_append.2 ⟨hbegins.reads, readsAt_cons.2
      ⟨by rwa [Nat.zero_add], by rwa [Nat.zero_add]⟩⟩)
  rw [hexp.length] at hc
  rcases sign with - | minus
  · obtain rfl : g = c := Except.ok.inj (hg.symm.trans hc)
    have hnone : isSign g = false := by simpa [expSignText] using hexp.length
    exact .noExponent l upper g hbegins.wf hbegins.noExp hreads hg
      ⟨hdigit, not_or.1 (isSign_iff.not.1 (by simp [hnone]))⟩
  · have hone : expSignText (some minus) = [if minus then chMinus else chPlus] := by cases minus <;> rfl
    rw [hone] at hreads hc
    exact .noSignedExponent l upper minus c hbegins.wf hbegins.noExp hreads hc hdigit

/-- A marker that begins an exponent part without digits fails the scan. -/
theorem State.scan_invalid_of_exponent {l : Literal} {upper : Bool} {g c : Option Byte}
    (hwf : l.wf = true) (hexp : l.exp = none)
    (hreads : ReadsAt (s.peek m) 0 (l.text ++ [expMarker upper])) (hg : s.peek m (l.text.length + 1) = .ok g)
    (hc : s.peek m (l.text.length + 1 + (isSign g).toNat) = .ok c) (hdigit : isDigit c = false) :
    s.scan m = .error .invalidArgument := by
  obtain ⟨hreadsLit, hmark⟩ := readsAt_append.1 hreads
  rw [Nat.zero_add] at hmark
  have hmarker := (readsAt_cons.1 hmark).1
  have hbegins : BeginsWith (s.peek m) l (some (expMarker upper)) :=
    ⟨hwf, hexp, hreadsLit, hmarker, isDigit_expMarker upper⟩
  obtain ⟨hsign, x, i, y, hx, hy⟩ := hbegins.scanFrac_ok State.offset_lt_of_peek s.lt_scanFuel fun _ h =>
    expMarker_ne_chDot upper (Option.some.inj h)
  exact (scanText_invalid_iff State.peek_ne_invalid).2 ⟨_, hsign, .inr ⟨x, i, hx, .inr ⟨y, _, hy,
    (scanExp_invalid_iff State.offset_lt_of_peek s.lt_scanFuel State.peek_ne_invalid).2
      ⟨upper, g, hmarker, hg, c, hc, hdigit⟩⟩⟩⟩

theorem State.scan_invalid_of_grammarError (h : s.GrammarError m) : s.scan m = .error .invalidArgument := by
  cases h with
  | noInteger neg c begins reads unsigned violation =>
    have hsign : scanSign (s.peek m) = .ok neg := by
      rw [scanSign_ok_iff]
      cases neg with
      | true => exact ⟨_, (readsAt_cons.1 (State.textBegins_iff.1 begins)).1, rfl⟩
      | false => exact ⟨c, reads, by simpa using unsigned rfl⟩
    exact (scanText_invalid_iff State.peek_ne_invalid).2
      ⟨neg, hsign, .inl ((scanInt_invalid_iff State.peek_ne_invalid).2 (.inl ⟨c, reads, violation⟩))⟩
  | leadingZero neg c begins reads violation =>
    have hreads : ReadsAt (s.peek m) 0 (signText neg ++ digitsText [0]) := State.textBegins_iff.1 begins
    have hzero := (readsAt_cons.1 (readsAt_append.1 hreads).2).1
    rw [length_signText, Nat.zero_add] at hzero
    exact (scanText_invalid_iff State.peek_ne_invalid).2 ⟨neg, scanSign_of_reads (by decide) hreads,
      .inl ((scanInt_invalid_iff State.peek_ne_invalid).2 (.inr ⟨hzero, c, reads, violation⟩))⟩
  | noFraction l c wf noFrac noExp begins reads violation =>
    obtain ⟨hreads, hpoint⟩ := readsAt_append.1 (State.textBegins_iff.1 begins)
    rw [Nat.zero_add] at hpoint
    have hdot := (readsAt_cons.1 hpoint).1
    have hbegins : BeginsWith (s.peek m) l (some chDot) := ⟨wf, noExp, hreads, hdot, rfl⟩
    obtain ⟨hsign, ⟨x, hx⟩, -⟩ := hbegins.scanInt_ok State.offset_lt_of_peek s.lt_scanFuel
    have hlen : l.neg.toNat + l.int.length = l.text.length := by
      rw [Literal.length_text, noFrac, noExp]
      rfl
    rw [hlen] at hx
    exact (scanText_invalid_iff State.peek_ne_invalid).2 ⟨_, hsign, .inr ⟨x, _, hx, .inl
      ((scanFrac_invalid_iff State.offset_lt_of_peek s.lt_scanFuel State.peek_ne_invalid).2
        ⟨hdot, c, reads, violation⟩)⟩⟩
  | noExponent l upper c wf noExp begins reads violation =>
    obtain ⟨hdigit, hplus, hminus⟩ := violation
    have hnone : isSign c = false := by simp [isSign, hplus, hminus]
    exact State.scan_invalid_of_exponent wf noExp (State.textBegins_iff.1 begins) reads
      (by rwa [hnone]) hdigit
  | noSignedExponent l upper minus c wf noExp begins reads violation =>
    rw [List.append_cons, State.textBegins_iff, readsAt_append] at begins
    obtain ⟨hreads, hsign⟩ := begins
    have hg := (readsAt_cons.1 hsign).1
    rw [Nat.zero_add, List.length_append] at hg
    refine State.scan_invalid_of_exponent wf noExp hreads hg (c := c) ?_ violation
    cases minus <;> exact reads

/-- The scan raises INVALID_ARGUMENT exactly where the text violates the grammar. -/
theorem State.scan_invalid_iff : s.scan m = .error .invalidArgument ↔ s.GrammarError m := by
  refine ⟨fun h => ?_, State.scan_invalid_of_grammarError⟩
  obtain ⟨neg, hsign, hx | ⟨x, i, hx, hy | ⟨y, j, hy, hv⟩⟩⟩ := (scanText_invalid_iff State.peek_ne_invalid).1 h
  · exact State.grammarError_of_scanInt hsign hx
  · exact State.grammarError_of_scanFrac hsign hx hy
  · obtain ⟨l, c, hbegins, rfl⟩ :=
      exists_beginsWith_of_scanFrac State.offset_lt_of_peek s.lt_scanFuel hsign hx hy
    exact State.grammarError_of_scanExp hbegins hv

end

/-! ### SCAN and PARSE -/

section

variable {s t : State} {i : Instr} {m : ScanMode}

/-- A fault of the text is the port's, at an address and not at the end of a bounded text. -/
theorem State.peek_eq_error_iff {j : Nat} {e : CmdError} : s.peek m j = .error e ↔
    ¬(m = .bounded ∧ s.boundedLength ≤ j) ∧ portAccess s.params (s.unsigned .addr + j) = .error e := by
  unfold State.peek State.portRead
  by_cases hend : m = .bounded ∧ s.boundedLength ≤ j
  · simp [hend]
  · rcases portAccess s.params (s.unsigned .addr + j) with e' | u <;> simp [hend]

/-- SCAN and PARSE whose scan fails complete with the error's code and write at most POS. -/
theorem completes_of_scan_error {e : CmdError} (hi : i = .scan m ∨ ∃ f, i = .parse f m) (h : s.scan m = .error e) :
    exec i s = .next (s.raiseText e) ∧ Completes e.cause [.pos] s (s.raiseText e) ∧
      (s.raiseText e).flags = s.flags ∧ SameMemory s (s.raiseText e) := by
  have hexec := exec_of_scan_error hi h
  obtain ⟨hcause, hflags, hregs⟩ := s.raiseText_frame e
  have hc := completes_of_exec (rs := [.pos]) hexec fun r hr => hregs r (by simpa using hr)
  rw [hcause] at hc
  have hne : ∀ f, i ≠ .format f := by rcases hi with rfl | ⟨f, rfl⟩ <;> nofun
  exact ⟨hexec, hc, hflags, (exec_frame hexec hne).2⟩

end

/-- Settles O41: the scan's fault is one its cursor has come to, and its INVALID_ARGUMENT a violation of the grammar. -/
theorem textFaultIsTheFirstUnreadableByte : Obligations.TextFaultIsTheFirstUnreadableByte := by
  refine ⟨fun s t i m hi h hc => ?_, fun s i m a hi hlen hacc => ?_, fun s i m hi => ⟨fun hg => ?_, ?_⟩⟩
  · obtain ⟨e, he, hcause, rfl⟩ := scan_error_of_exec hi h (by simp [hc])
    obtain ⟨a, rfl⟩ := CmdError.cause_eq_memoryFault.1 (hcause.symm.trans hc)
    obtain ⟨j, hreached, hj⟩ := scanText_fault he
    obtain ⟨hin, hacc⟩ := State.peek_eq_error_iff.1 hj
    exact ⟨j, a, hacc, by simp [State.raiseText], State.inText_of_reached hreached hin⟩
  · have hpeek : s.peek m 0 = .error (.memoryFault a) :=
      State.peek_eq_error_iff.2 ⟨fun hend => absurd (hlen hend.1) (Nat.not_lt.2 hend.2), hacc⟩
    obtain ⟨hexec, hcompl, hflags, -⟩ := completes_of_scan_error hi (scanText_of_first_fault hpeek _)
    exact ⟨_, hexec, hcompl, by simp [State.raiseText], hflags⟩
  · obtain ⟨hexec, hcompl, hflags, hmem⟩ := completes_of_scan_error hi (State.scan_invalid_iff.2 hg)
    exact ⟨_, hexec, hcompl, by simp [State.raiseText], hflags, hmem⟩
  · rintro ⟨t, h, hcompl, -⟩
    have hc : t.status.cause = .invalidArgument := by rw [hcompl.status]
    obtain ⟨e, he, hcause, -⟩ := scan_error_of_exec hi h (by simp [hc])
    obtain rfl := CmdError.cause_eq_invalidArgument.1 (hcause.symm.trans hc)
    exact State.scan_invalid_iff.1 he

end Sys2Proof.Machine
end

section
/-! Reset and hazards (70_reset_and_hazards.md): the host's register accesses while BUSY, issue and execution of a
legal command, and what reset leaves. -/

namespace Sys2Proof.Machine

section

variable {s : State} {ops : List HostOp}

/-! ### Register writes while BUSY (R133) -/

theorem State.writeReg_of_busy (hb : s.status.busy = true) (r : Reg) (v : Word) : s.writeReg r v = s.overrun := by
  simp [State.writeReg, hb]

theorem step_write_busy {r : Reg} {v : Word} (hb : s.status.busy = true) (h : s.inbox = .write 8 r.offset v :: ops) :
    step s = .next s.popInbox.overrun := by
  rw [step_write h, hostWrite_offset, State.writeReg_of_busy (by simpa using hb)]

/-! ### Register reads (R132, 10_state.md R17 to R19) -/

@[simp] theorem State.readWindow_offset (s : State) (r : Reg) : s.readWindow r.offset = s.readReg r := by
  simp [State.readWindow]

/-- A reserved offset reads 0 (10_state.md R15). -/
theorem State.readWindow_reserved (s : State) {n : Nat} (h : 18 ≤ n) : s.readWindow (8 * n) = 0 := by
  simp [State.readWindow, regOf_reserved h]

/-- A host read of a register adds its value to what the host has read, whether the engine is busy or idle. -/
theorem step_readReg {r : Reg} (h : s.inbox = .read 8 r.offset :: ops) :
    step s = .next { s with inbox := ops, hostReads := s.readReg r :: s.hostReads } := by
  have hread : hostRead 8 r.offset s.popInbox = .next (s.popInbox.returnToHost (s.popInbox.readReg r)) := by
    simp [hostRead]
  rw [step_read h, hread, State.popInbox_of_cons h]
  cases r <;> rfl

/-- Where CLASS stands in the word of FLAGS, and that the bits of no field read 0, evaluated at each value of FLAGS. -/
theorem Flags.word_class_and_rest (f : Flags) :
    (f.word.extractLsb' 4 2).toNat = f.cls.code ∧ f.word &&& ~~~0x37#64 = 0 := by
  rcases f with ⟨_ | _, _ | _, _ | _, _ | _ | _ | _⟩ <;> decide

/-! ### Issue and execution (R131) -/

theorem State.issue_of_legal {v : Word} {i : Instr} (h : decode v = .ok i) (s : State) :
    s.issue v = { s with cmd := v, status := ⟨true, false, .ok, false⟩, raced := [] } := by
  simp only [State.issue, h]

/-- A busy engine has the turn when the host waits or has nothing left to do. -/
theorem State.turn_of_busy_waiting (hb : s.status.busy = true) (hw : s.inbox = [] ∨ ∃ ops, s.inbox = .wait :: ops) :
    s.turn = .engine := by
  rcases hw with h | ⟨ops, h⟩ <;> simp [State.turn, h, hb]

theorem step_of_busy_waiting {i : Instr} (hb : s.status.busy = true)
    (hw : s.inbox = [] ∨ ∃ ops, s.inbox = .wait :: ops) (hi : decode s.cmd = .ok i) : step s = exec i s := by
  simp [step, State.turn_of_busy_waiting hb hw, runCommand, hi]

/-- A word of 32 bits that is legal is issued as it stands, and the host waits for it. -/
theorem State.withFetchWord_of_legal {w : Nat} {i : Instr} (hw : w < 2 ^ 32) (hi : decode (BitVec.ofNat 64 w) = .ok i)
    (s : State) : s.withFetchWord 32 w =
      { s with
        cmd := BitVec.ofNat 64 w, status := ⟨true, false, .ok, false⟩, raced := [], inbox := .wait :: s.inbox } := by
  rw [State.withFetchWord, Nat.mod_eq_of_lt hw, State.issueAndWait, State.issue_of_legal hi]

/-! ### Reset (R128, R129) -/

theorem step_reset (h : s.inbox = .reset :: ops) : step s = .next s.popInbox.afterReset :=
  step_of_hostOp (op := .reset) nofun h

/-- A state whose control registers hold their reset values reads 0 at their offsets and at the reserved ones. -/
theorem State.readWindow_of_control_reset (hcmd : s.cmd = 0) (hstatus : s.status = Status.reset)
    (hflags : s.flags = Flags.reset) :
    s.readWindow 0x00 = 0 ∧ s.readWindow 0x08 = 0 ∧ s.readWindow 0x10 = 0 ∧
      ∀ n, 18 ≤ n → n < 32 → s.readWindow (8 * n) = 0 := by
  refine ⟨hcmd, ?_, ?_, fun n hn _ => s.readWindow_reserved hn⟩
  · exact (congrArg Status.word hstatus).trans (by decide)
  · exact (congrArg Flags.word hflags).trans (by decide)

/-- A run of engine writes leaves at each address the byte that was there, or its own byte where the memory completes
each access up to it. -/
theorem State.read_portWrites_cases (hwf : Memory.wf s.mem = true) (bs : List Byte) (base a : Nat) :
    (s.portWrites s.mem base bs).1.read a = s.mem.read a ∨
      (base ≤ a ∧ bs[a - base]? = some ((s.portWrites s.mem base bs).1.read a) ∧
        ∀ a', base ≤ a' → a' ≤ a → portAccess s.params a' = .ok ()) := by
  obtain ⟨-, hlen, hacc, -, hread⟩ := s.portWrites_spec bs s.mem base hwf
  rw [hread]
  split
  · next hin =>
    obtain ⟨hlo, hhi⟩ := hin
    rcases s.leftByte_cases s.mem a (bs.getD (a - base) 0) with e | e <;> rw [e]
    · refine .inr ⟨hlo, ?_, fun a' hlo' ha' => ?_⟩
      · rw [List.getD_eq_getElem _ _ (by omega), List.getElem?_eq_getElem]
      · have hport := hacc (a' - base) (by omega)
        rwa [Nat.add_sub_cancel' hlo'] at hport
    · exact .inl rfl
  · exact .inl rfl

theorem State.memAtReset_of_format {f : FloatFormat} (h : s.running = some (.format f)) : s.memAtReset =
    (s.portWrites s.mem s.outputBase ((s.outputText f).take (Config.bytesBeforeReset s.draws))).1 := by
  simp only [State.memAtReset, h]

theorem State.memAtReset_of_no_format (h : ∀ f, s.running ≠ some (.format f)) : s.memAtReset = s.mem := by
  unfold State.memAtReset
  split
  · next f hf => exact absurd hf (h f)
  · rfl

/-- Reset leaves the byte in memory, or the one that the FORMAT it abandons writes there. -/
theorem State.read_memAtReset_cases (hwf : Memory.wf s.mem = true) (a : Nat) :
    s.memAtReset.read a = s.mem.read a ∨
      ∃ f, s.running = some (.format f) ∧ s.writesByte f a (s.memAtReset.read a) := by
  by_cases hf : ∃ f, s.running = some (.format f)
  · obtain ⟨f, hf⟩ := hf
    rw [State.memAtReset_of_format hf]
    refine (State.read_portWrites_cases hwf _ _ a).imp_right fun ⟨hlo, hbyte, hacc⟩ => ⟨f, hf, hlo, ?_, hacc⟩
    obtain ⟨-, hget⟩ : a - s.outputBase < Config.bytesBeforeReset s.draws ∧ _ := by
      simpa only [List.getElem?_take, Option.ite_none_right_eq_some] using hbyte
    exact hget
  · exact .inl (by rw [State.memAtReset_of_no_format (not_exists.1 hf)])

end

/-! ### The obligations -/

/-- Settles O8: the write is `overrun`, which sets OVR; BUSY is already the 1 that the statement writes. -/
theorem writeWhileBusySetsOnlyOverrun : Obligations.WriteWhileBusySetsOnlyOverrun := by
  intro s r v ops hb h
  rw [step_write_busy hb h, State.popInbox_of_cons h]
  simp [State.overrun, State.setStatus, hb]

/-- Settles O12: each register is read through `step_readReg`, and the word of FLAGS is laid out. -/
theorem hostReadReturnsTheRegister : Obligations.HostReadReturnsTheRegister := by
  intro s ops
  obtain ⟨hn, hrb, hsb, -, -⟩ := s.flags.word_layout
  obtain ⟨hcls, hrest⟩ := s.flags.word_class_and_rest
  refine ⟨fun r => step_readReg (r := .data r), step_readReg (r := .cmd), step_readReg (r := .status),
    step_readReg (r := .flags), hn, hrb, hsb, hcls.trans ?_, hrest⟩
  cases s.flags.cls <;> rfl

/-- Settles O17: a reset leaves `memAtReset`, and taking the reset off the host's list changes nothing it depends on. -/
theorem resetKeepsMemoryButForAbandonedText : Obligations.ResetKeepsMemoryButForAbandonedText := by
  intro s ops hwf h
  refine ⟨_, step_reset h, fun a => ?_⟩
  refine (State.read_memAtReset_cases (s := s.popInbox) hwf a).imp_right fun ⟨f, hrun, hw⟩ => ?_
  obtain ⟨hb, hi⟩ := State.running_eq_some.1 hrun
  exact ⟨f, hb, hi, hw⟩

/-- Settles O5: the engine has the turn, and `withFetchWord` gives a busy state whose host waits. -/
theorem stepRunsTheIssuedCommand : Obligations.StepRunsTheIssuedCommand := by
  refine ⟨fun s i => step_of_busy_waiting, fun s w i hw hi => ?_⟩
  rw [State.withFetchWord_of_legal hw hi]
  exact ⟨step_of_busy_waiting rfl (.inr ⟨_, rfl⟩) hi, rfl, rfl, rfl, rfl⟩

/-- Settles O6: an idle engine's CMD write is `issue`, which for a legal word sets CMD and STATUS. -/
theorem cmdWriteIssuesALegalWord : Obligations.CmdWriteIssuesALegalWord := by
  intro s v i ops hb hv h
  refine ⟨s.popInbox.issue v, step_writeIdle (r := .cmd) hb h, ?_⟩
  rw [State.issue_of_legal hv]
  exact ⟨rfl, rfl, rfl, by simp [h], fun _ => rfl, rfl, rfl, fun _ => rfl⟩

/-- Settles O16: `State.reset` and the state after a reset action hold the control registers' reset values. -/
theorem resetClearsTheControlRegisters : Obligations.ResetClearsTheControlRegisters := by
  obtain ⟨hcmd, hstatus, hflags, hreserved⟩ := State.readWindow_of_control_reset (s := State.reset) rfl rfl rfl
  refine ⟨hcmd, hstatus, hflags, hreserved, fun s ops h => ⟨_, step_reset h, ?_⟩⟩
  obtain ⟨hcmd, hstatus, hflags, hreserved⟩ :=
    State.readWindow_of_control_reset (s := s.popInbox.afterReset) rfl rfl rfl
  exact ⟨hcmd, hstatus, hflags, hreserved, by simp, congrArg State.inbox (State.popInbox_of_cons h)⟩

end Sys2Proof.Machine
end
